-- ==== Sys2Proof/Word.lean ====
section
/-! DEFINITION. The word and byte types of the W-LSB codec block (00_scope.md R7, R11). -/

namespace Sys2Proof

/-- A register of the block: 32 bits, read as unsigned unless a rule says otherwise (R7, R11). -/
abbrev Word := BitVec 32

/-- One byte of MEM (20_memory.md R70); bit 7 is the most significant (00_scope.md R10). -/
abbrev Byte := BitVec 8

end Sys2Proof
end

