-- ==== Sys2Proof/Syntax.lean ====
section
/-! DEFINITION. The commands of the block: one constructor for each row of the opcode map
(30_encoding.md R94). Immediates are unsigned integers (R92), hence Nat; which values an encoding
holds is said in WellFormed. -/

namespace Sys2Proof

/-- A command. `inst` is the INST field, `n` the bit count N, `k` the received bit count K, `sel` the
read selector SEL, and `kind`, `d`, `m`, `c` the sub-fields of CRC (R90, R92). -/
inductive Instr where
  | nop
  | brInit
  | brRead (n : Nat)
  | brPeek (n : Nat)
  | brAlign
  | bwInit
  | bwWrite (n : Nat)
  | bwAlign
  | sdvlEnc
  | sdvlDec
  | crc (kind : Nat) (d m c : Bool)
  | weCfg (inst : Nat)
  | weAdd (inst : Nat)
  | weK (inst : Nat)
  | weInfo (inst sel : Nat)
  | weEntry (inst : Nat)
  | wdCfg (inst : Nat)
  | wdSetref (inst : Nat)
  | wdDec (inst k : Nat)
  | wdRd (inst sel : Nat)
  | tseCfg (inst : Nat)
  | tseEnc (inst : Nat)
  | tseRd (inst sel : Nat)
  | tsdCfg (inst : Nat)
  | tsdStride (inst : Nat)
  | tsdScaled (inst : Nat)
  | tsdDeduce (inst : Nat)
  | tsdCommit (inst : Nat)
  | tsdRd (inst sel : Nat)
  deriving DecidableEq, Repr

end Sys2Proof
end

