-- ==== Sys2Proof/WellFormed.lean ====
section
/-! DEFINITION. Which terms of Instr are commands: every operand fits its field of the command word
(30_encoding.md R90, R92). An operand that fits but is outside its legal range is well formed: such a
command runs and completes with ILLEGAL_OPERAND (R92, R95). -/

namespace Sys2Proof

/-- INST is the 8-bit field [23:16] (R90). -/
def instFits (inst : Nat) : Bool := decide (inst < 256)

/-- N and K are the 6-bit field FIELD[5:0] (R92). -/
def countFits (n : Nat) : Bool := decide (n < 64)

/-- KIND is the 3-bit field FIELD[2:0] (R92). -/
def kindFits (kind : Nat) : Bool := decide (kind < 8)

/-- SEL of WE_INFO and WD_RD is the 1-bit field FIELD[0] (R92). -/
def selBitFits (sel : Nat) : Bool := decide (sel < 2)

/-- SEL of TSE_RD and TSD_RD is the 4-bit field FIELD[3:0] (R92). -/
def selFits (sel : Nat) : Bool := decide (sel < 16)

/-- The command has an encoding: each operand fits its field. -/
def Instr.wf : Instr → Bool
  | .nop => true
  | .brInit => true
  | .brRead n => countFits n
  | .brPeek n => countFits n
  | .brAlign => true
  | .bwInit => true
  | .bwWrite n => countFits n
  | .bwAlign => true
  | .sdvlEnc => true
  | .sdvlDec => true
  | .crc kind _ _ _ => kindFits kind
  | .weCfg i => instFits i
  | .weAdd i => instFits i
  | .weK i => instFits i
  | .weInfo i sel => instFits i && selBitFits sel
  | .weEntry i => instFits i
  | .wdCfg i => instFits i
  | .wdSetref i => instFits i
  | .wdDec i k => instFits i && countFits k
  | .wdRd i sel => instFits i && selBitFits sel
  | .tseCfg i => instFits i
  | .tseEnc i => instFits i
  | .tseRd i sel => instFits i && selFits sel
  | .tsdCfg i => instFits i
  | .tsdStride i => instFits i
  | .tsdScaled i => instFits i
  | .tsdDeduce i => instFits i
  | .tsdCommit i => instFits i
  | .tsdRd i sel => instFits i && selFits sel

end Sys2Proof
end

