-- ==== Sys2Proof/Decode.lean ====
section
/-! DEFINITION. From a command word to a command (30_encoding.md R90 to R95) and back. Decoding is
total: every word gives a command or the name of the check of R91 that it fails. -/

namespace Sys2Proof

/-- Which of the first three checks of R91 a word fails. Each completes with ILLEGAL_COMMAND (R95). -/
inductive DecodeError where
  /-- check 1: OPC is not a row of the opcode map -/
  | unknownOpcode
  /-- check 2: a FIELD bit outside the command's sub-fields is 1 -/
  | reservedField
  /-- check 3: the command is no instance command and INST is not 0 -/
  | instNotZero
  deriving DecidableEq, Repr

/-- OPC, bits [31:24] (R90). -/
def opcOf (w : Word) : Nat := (w.extractLsb' 24 8).toNat

/-- INST, bits [23:16] (R90). -/
def instOf (w : Word) : Nat := (w.extractLsb' 16 8).toNat

/-- FIELD, bits [15:0] (R90). -/
def fieldOf (w : Word) : Nat := (w.extractLsb' 0 16).toNat

/-- Checks 2 and 3 of R91 for a command that selects no instance; `bound` is 2 to the number of
FIELD bits when the defined sub-fields fill the low bits of FIELD. -/
def decodePlain (w : Word) (bound : Nat) (i : Instr) : Except DecodeError Instr :=
  if bound ≤ fieldOf w then .error .reservedField
  else if instOf w ≠ 0 then .error .instNotZero
  else .ok i

/-- Checks 2 and 3 of R91 for CRC, whose FIELD[3] and FIELD[15:7] are reserved (R92). -/
def decodeCrc (w : Word) : Except DecodeError Instr :=
  if 128 ≤ fieldOf w ∨ (fieldOf w).testBit 3 then .error .reservedField
  else if instOf w ≠ 0 then .error .instNotZero
  else .ok (.crc (fieldOf w % 8) ((fieldOf w).testBit 4) ((fieldOf w).testBit 5) ((fieldOf w).testBit 6))

/-- Check 2 of R91 for an instance command; INST selects the instance and is checked against the
instance count when the command runs (check 4). -/
def decodeInst (w : Word) (bound : Nat) (i : Instr) : Except DecodeError Instr :=
  if bound ≤ fieldOf w then .error .reservedField else .ok i

/-- The opcode map (R94) with the decode checks of R91 in their order. -/
def decode (w : Word) : Except DecodeError Instr :=
  match opcOf w with
  | 0x00 => decodePlain w 1 .nop
  | 0x01 => decodePlain w 1 .brInit
  | 0x02 => decodePlain w 64 (.brRead (fieldOf w))
  | 0x03 => decodePlain w 64 (.brPeek (fieldOf w))
  | 0x04 => decodePlain w 1 .brAlign
  | 0x05 => decodePlain w 1 .bwInit
  | 0x06 => decodePlain w 64 (.bwWrite (fieldOf w))
  | 0x07 => decodePlain w 1 .bwAlign
  | 0x08 => decodePlain w 1 .sdvlEnc
  | 0x09 => decodePlain w 1 .sdvlDec
  | 0x10 => decodeCrc w
  | 0x20 => decodeInst w 1 (.weCfg (instOf w))
  | 0x21 => decodeInst w 1 (.weAdd (instOf w))
  | 0x22 => decodeInst w 1 (.weK (instOf w))
  | 0x23 => decodeInst w 2 (.weInfo (instOf w) (fieldOf w))
  | 0x24 => decodeInst w 1 (.weEntry (instOf w))
  | 0x28 => decodeInst w 1 (.wdCfg (instOf w))
  | 0x29 => decodeInst w 1 (.wdSetref (instOf w))
  | 0x2A => decodeInst w 64 (.wdDec (instOf w) (fieldOf w))
  | 0x2B => decodeInst w 2 (.wdRd (instOf w) (fieldOf w))
  | 0x30 => decodeInst w 1 (.tseCfg (instOf w))
  | 0x31 => decodeInst w 1 (.tseEnc (instOf w))
  | 0x32 => decodeInst w 16 (.tseRd (instOf w) (fieldOf w))
  | 0x38 => decodeInst w 1 (.tsdCfg (instOf w))
  | 0x39 => decodeInst w 1 (.tsdStride (instOf w))
  | 0x3A => decodeInst w 1 (.tsdScaled (instOf w))
  | 0x3B => decodeInst w 1 (.tsdDeduce (instOf w))
  | 0x3C => decodeInst w 1 (.tsdCommit (instOf w))
  | 0x3D => decodeInst w 16 (.tsdRd (instOf w) (fieldOf w))
  | _ => .error .unknownOpcode

/-- The OPC of each command (R94). -/
def Instr.opc : Instr → Byte
  | .nop => 0x00#8
  | .brInit => 0x01#8
  | .brRead _ => 0x02#8
  | .brPeek _ => 0x03#8
  | .brAlign => 0x04#8
  | .bwInit => 0x05#8
  | .bwWrite _ => 0x06#8
  | .bwAlign => 0x07#8
  | .sdvlEnc => 0x08#8
  | .sdvlDec => 0x09#8
  | .crc _ _ _ _ => 0x10#8
  | .weCfg _ => 0x20#8
  | .weAdd _ => 0x21#8
  | .weK _ => 0x22#8
  | .weInfo _ _ => 0x23#8
  | .weEntry _ => 0x24#8
  | .wdCfg _ => 0x28#8
  | .wdSetref _ => 0x29#8
  | .wdDec _ _ => 0x2A#8
  | .wdRd _ _ => 0x2B#8
  | .tseCfg _ => 0x30#8
  | .tseEnc _ => 0x31#8
  | .tseRd _ _ => 0x32#8
  | .tsdCfg _ => 0x38#8
  | .tsdStride _ => 0x39#8
  | .tsdScaled _ => 0x3A#8
  | .tsdDeduce _ => 0x3B#8
  | .tsdCommit _ => 0x3C#8
  | .tsdRd _ _ => 0x3D#8

/-- The INST field of a command: 0 for a command that selects no instance (R90). -/
def Instr.instField : Instr → Nat
  | .nop => 0
  | .brInit => 0
  | .brRead _ => 0
  | .brPeek _ => 0
  | .brAlign => 0
  | .bwInit => 0
  | .bwWrite _ => 0
  | .bwAlign => 0
  | .sdvlEnc => 0
  | .sdvlDec => 0
  | .crc _ _ _ _ => 0
  | .weCfg i => i
  | .weAdd i => i
  | .weK i => i
  | .weInfo i _ => i
  | .weEntry i => i
  | .wdCfg i => i
  | .wdSetref i => i
  | .wdDec i _ => i
  | .wdRd i _ => i
  | .tseCfg i => i
  | .tseEnc i => i
  | .tseRd i _ => i
  | .tsdCfg i => i
  | .tsdStride i => i
  | .tsdScaled i => i
  | .tsdDeduce i => i
  | .tsdCommit i => i
  | .tsdRd i _ => i

/-- FIELD of the CRC command: KIND [2:0], D [4], M [5], C [6] (R92). -/
def crcField (kind : Nat) (d m c : Bool) : Nat := kind + 16 * d.toNat + 32 * m.toNat + 64 * c.toNat

/-- The FIELD of a command (R92); 0 where R92 gives no sub-field. -/
def Instr.fieldBits : Instr → Nat
  | .nop => 0
  | .brInit => 0
  | .brRead n => n
  | .brPeek n => n
  | .brAlign => 0
  | .bwInit => 0
  | .bwWrite n => n
  | .bwAlign => 0
  | .sdvlEnc => 0
  | .sdvlDec => 0
  | .crc kind d m c => crcField kind d m c
  | .weCfg _ => 0
  | .weAdd _ => 0
  | .weK _ => 0
  | .weInfo _ sel => sel
  | .weEntry _ => 0
  | .wdCfg _ => 0
  | .wdSetref _ => 0
  | .wdDec _ k => k
  | .wdRd _ sel => sel
  | .tseCfg _ => 0
  | .tseEnc _ => 0
  | .tseRd _ sel => sel
  | .tsdCfg _ => 0
  | .tsdStride _ => 0
  | .tsdScaled _ => 0
  | .tsdDeduce _ => 0
  | .tsdCommit _ => 0
  | .tsdRd _ sel => sel

/-- The word of a command: OPC [31:24], INST [23:16], FIELD [15:0] (R90). -/
def encode (i : Instr) : Word := i.opc ++ BitVec.ofNat 8 i.instField ++ BitVec.ofNat 16 i.fieldBits

/-- The command read from an instruction whose bits are w, numbered as opcode_table.json numbers them.
A command is one 32-bit word (R90), so the word is the number; bits at and above nbits are 0. -/
def decodeTableWord (nbits w : Nat) : Option Instr :=
  match decode (BitVec.ofNat 32 (w % 2 ^ nbits)) with
  | .ok i => some i
  | .error _ => none

end Sys2Proof
end

