-- ==== Sys2Proof/Config.lean ====
section
/-! DEFINITION. What the spec leaves to the implementation: the OPEN parameters of 00_scope.md R7,
the free values, and the fixed constants of the rules. -/

namespace Sys2Proof

/-- CRC6_POLY (41_crc.md R161, D14): OPEN, no source value. No body, so nothing can be proved of its
value. DESIGN CHOICE, log 2. -/
opaque Config.crc6Poly : BitVec 6

/-- CRC6_INIT (41_crc.md R161, D14): OPEN, no source value. DESIGN CHOICE, log 2. -/
opaque Config.crc6Init : BitVec 6

/-- The free draw of MEM after a reset (70_reset_and_hazards.md R311: "A model draws each byte
freely"): the byte at an address after the reset numbered by the first argument. DESIGN CHOICE, log 3. -/
opaque Config.powerOnByte : Nat → Nat → Byte

/-- The OPEN parameters of 00_scope.md R7. -/
structure Params where
  memSize  : Nat
  numWe    : Nat
  numWd    : Nat
  numTse   : Nat
  numTsd   : Nat
  crc6Poly : BitVec 6
  crc6Init : BitVec 6
  deriving DecidableEq, Repr

/-- The ranges R7 gives the parameters: 64 ≤ MEM_SIZE ≤ 65536 and 1 to 256 instances of each unit. -/
abbrev Params.wf (p : Params) : Prop :=
  (64 ≤ p.memSize ∧ p.memSize ≤ 65536) ∧ (1 ≤ p.numWe ∧ p.numWe ≤ 256) ∧
  (1 ≤ p.numWd ∧ p.numWd ≤ 256) ∧ (1 ≤ p.numTse ∧ p.numTse ≤ 256) ∧ (1 ≤ p.numTsd ∧ p.numTsd ≤ 256)

/-- The parameters of the one machine that State.reset names: those of the spec's own vectors
(95_test_vectors.md section 0). DESIGN CHOICE, log 1; only statements about State.reset rest on them. -/
def Params.chosen : Params :=
  { memSize := 256, numWe := 4, numWd := 4, numTse := 4, numTsd := 4
    crc6Poly := Config.crc6Poly, crc6Init := Config.crc6Init }

/-- SDVL_MAX, the largest SDVL value (00_scope.md R7, 40_bitio_sdvl.md R139). -/
def Config.sdvlMax : Nat := 2 ^ 29 - 1

/-- The content of the ID register, "WLSB" in ASCII (10_state.md R31). -/
def Config.idValue : Word := 0x574C5342#32

end Sys2Proof
end

