-- ==== Sys2Proof/Machine/State.lean ====
section
/-! DEFINITION. The architectural state of the block (10_state.md), the host's accesses to it
(70_reset_and_hazards.md R336), the reasons a step can stop, and the state after reset (R312). -/

namespace Sys2Proof.Machine

/-- The error codes of STATUS.CODE (60_exceptions.md R280). No other value is ever written. -/
inductive ErrCode where
  | ok
  | illegalCommand
  | illegalOperand
  | badAddress
  | malformed
  | malformedSdvl
  | outputTooSmall
  /-- reserved, never raised (42_wlsb.md R215) -/
  | wlsbAmbiguous
  | noReference
  | crcMismatch
  deriving DecidableEq, Repr

/-- The STATUS register less its reserved bits, which read as zero and ignore writes (10_state.md R33). -/
structure Status where
  code    : ErrCode
  sticky  : Bool
  lastOpc : Byte
  deriving DecidableEq, Repr

/-- The argument registers, written only by the host and read only by commands (10_state.md R36). -/
structure Args where
  arg0 : Word
  arg1 : Word
  arg2 : Word
  arg3 : Word
  arg4 : Word
  arg5 : Word
  deriving DecidableEq, Repr

/-- The state of the bit reader (br_base, br_len, br_pos; 10_state.md R40) or of the bit writer
(bw_base, bw_cap, bw_pos; R41): a region of MEM and a cursor in bits. -/
structure Stream where
  base : Word
  len  : Word
  pos  : Word
  deriving DecidableEq, Repr

/-- The legal value and SN widths: 12, 16 or 32 bits (10_state.md R50, R52, R55, R56; conflict C3). -/
inductive Width where
  | w12
  | w16
  | w32
  deriving DecidableEq, Repr

/-- pmode: 0 is a constant shift p, 1 the RTP-TS rule (42_wlsb.md R191). -/
inductive PMode where
  | constant
  | rtpTs
  deriving DecidableEq, Repr

/-- The legal window widths W: a power of two in 1..256 (10_state.md R50; conflict C4). -/
inductive WindowWidth where
  | one
  | two
  | four
  | eight
  | sixteen
  | thirtyTwo
  | sixtyFour
  | oneTwentyEight
  | twoFiftySix
  deriving DecidableEq, Repr

/-- One entry of an encoder window: value of n bits, sn of snw bits (10_state.md R50). -/
structure WeEntry where
  value : Word
  sn    : Word
  deriving DecidableEq, Repr

/-- A W-LSB encoder instance (10_state.md R50); `win` is oldest first (R51). -/
structure WeInst where
  n      : Width
  pmode  : PMode
  pconst : Word
  w      : WindowWidth
  snw    : Width
  win    : List WeEntry
  deriving DecidableEq, Repr

/-- A W-LSB decoder instance (10_state.md R52). -/
structure WdInst where
  n        : Width
  pmode    : PMode
  pconst   : Word
  ref      : Word
  refValid : Bool
  deriving DecidableEq, Repr

/-- The states of a TS encoder (43_ts_scaled.md R230). -/
inductive TseState where
  | initTs
  | initStride
  | sendScaled
  deriving DecidableEq, Repr

/-- A TS encoder instance (10_state.md R55). -/
structure TseInst where
  l           : Byte
  snw         : Width
  state       : TseState
  haveOld     : Bool
  oldTs       : Word
  oldSn       : Word
  tsStride    : Word
  tsOffset    : Word
  tsScaled    : Word
  strideCount : Byte
  deducible   : Bool
  deriving DecidableEq, Repr

/-- A TS decoder instance (10_state.md R56). -/
structure TsdInst where
  snw       : Width
  stride    : Word
  offset    : Word
  scaledRef : Word
  tsRef     : Word
  snRef     : Word
  refValid  : Bool
  deriving DecidableEq, Repr

/-- One access of the host, or the platform's reset (70_reset_and_hazards.md R336). `offset` is in the
register space, `bytes` the width of the access. A byte write carries its byte in the low bits of
`data` (log 15). -/
inductive Access where
  | read (offset bytes : Nat)
  | write (offset bytes : Nat) (data : Word)
  | reset
  deriving DecidableEq, Repr

/-- The bytes of MEM written since reset, by rising address; an address not listed holds no value the
model knows (70_reset_and_hazards.md R311; log 4). -/
abbrev Memory := List Host.Cell

/-- Everything the spec gives the block (10_state.md), the OPEN parameters it reports in CFG_*, and
three fields of the model's own: `draw`, `bus`, `seen`. NUM_WE, NUM_WD, NUM_TSE and NUM_TSD are the
lengths of the four instance lists (log 11). -/
structure State where
  memSize  : Nat
  crc6Poly : BitVec 6
  crc6Init : BitVec 6
  status   : Status
  cmdCount : Word
  args     : Args
  res0     : Word
  res1     : Word
  reader   : Stream
  writer   : Stream
  we       : List WeInst
  wd       : List WdInst
  tse      : List TseInst
  tsd      : List TsdInst
  mem      : Memory
  /-- the model's own: how many resets have drawn MEM anew (log 3) -/
  draw     : Nat
  /-- the model's own: the host's accesses still to come, the next one first (log 5) -/
  bus      : List Access
  /-- the model's own: what the host has read, newest first (R335; log 6) -/
  seen     : List Word
  deriving DecidableEq, Repr

/-- Why a step stops with a fault. Neither reason is reachable from a state that meets the invariant of
Safety.lean, and the spec describes no such stop. -/
inductive Fault where
  /-- Raised by BR_READ, BR_PEEK, SDVL_DEC, BW_WRITE, BW_ALIGN and SDVL_ENC when the field lies past the
  end of MEM, which 10_state.md R40 and R41 say cannot happen. Safe: the model stops (log 9). -/
  | noSuchAddress
  /-- Raised by TSE_ENC in SEND_SCALED with TS_STRIDE 0, which 43_ts_scaled.md R232 says cannot happen.
  Safe: the model stops (log 10). -/
  | zeroStride
  deriving DecidableEq, Repr

/-- Why a step has no meaning. -/
inductive Refusal where
  /-- Raised by an arm of exec that has no meaning yet. Safe. -/
  | notModelled (mnemonic : String)
  /-- Raised by a host access of a width or alignment outside 20_memory.md R80
  (93_implementation_defined.md: refuse). Safe. -/
  | hostWidth
  /-- Raised by a host access at or above 0x20000 (10_state.md R31; 93_implementation_defined.md:
  refuse). Safe. -/
  | hostOffset
  deriving DecidableEq, Repr

/-- The outcome of one step of this machine. -/
abbrev Result := Host.Outcome State Fault Refusal

/-- The reset state of a W-LSB encoder instance (70_reset_and_hazards.md R312). -/
def WeInst.reset : WeInst :=
  { n := .w16, pmode := .constant, pconst := 0#32, w := .four, snw := .w16, win := [] }

/-- The reset state of a W-LSB decoder instance (R312). -/
def WdInst.reset : WdInst :=
  { n := .w16, pmode := .constant, pconst := 0#32, ref := 0#32, refValid := false }

/-- The reset state of a TS encoder instance (R312). -/
def TseInst.reset : TseInst :=
  { l := 3#8, snw := .w16, state := .initTs, haveOld := false, oldTs := 0#32, oldSn := 0#32
    tsStride := 0#32, tsOffset := 0#32, tsScaled := 0#32, strideCount := 0#8, deducible := false }

/-- The reset state of a TS decoder instance (R312). -/
def TsdInst.reset : TsdInst :=
  { snw := .w16, stride := 0#32, offset := 0#32, scaledRef := 0#32, tsRef := 0#32, snRef := 0#32
    refValid := false }

/-- The state after a reset of a block with parameters p (R312), MEM drawn for the `draw`-th time
(R311), with the host's side (`bus`, `seen`) as given. -/
def State.resetWith (p : Params) (draw : Nat) (bus : List Access) (seen : List Word) : State :=
  { memSize := p.memSize, crc6Poly := p.crc6Poly, crc6Init := p.crc6Init
    status := { code := .ok, sticky := false, lastOpc := 0#8 }
    cmdCount := 0#32
    args := { arg0 := 0#32, arg1 := 0#32, arg2 := 0#32, arg3 := 0#32, arg4 := 0#32, arg5 := 0#32 }
    res0 := 0#32, res1 := 0#32
    reader := { base := 0#32, len := 0#32, pos := 0#32 }
    writer := { base := 0#32, len := 0#32, pos := 0#32 }
    we := List.replicate p.numWe WeInst.reset
    wd := List.replicate p.numWd WdInst.reset
    tse := List.replicate p.numTse TseInst.reset
    tsd := List.replicate p.numTsd TsdInst.reset
    mem := [], draw := draw, bus := bus, seen := seen }

/-- The block right after reset (R312), with the parameters of log 1 and no host access pending. -/
def State.reset : State := State.resetWith Params.chosen 0 [] []

end Sys2Proof.Machine
end

