-- ==== Sys2Proof/Machine/Ops.lean ====
section
/-! DEFINITION. The named operations over MEM, the registers and the instances, and how a command
completes (60_exceptions.md R281), which is all this block has in place of taking an exception
(R287: no trap, no handler; R288: no return). -/

namespace Sys2Proof.Machine

/-- Addresses strictly rising: the one canonical form of a memory. An address not listed holds no
value, so no entry can repeat one (log 4). -/
abbrev Memory.wf (m : Memory) : Prop := m.Pairwise (fun x y => x.1 < y.1)

/-- The byte a memory lists for an address, if it lists one. -/
def Memory.get? : Memory → Nat → Option Byte
  | [], _ => none
  | (k, v) :: m, a => if k = a then some v else Memory.get? m a

/-- Store one byte, keeping the addresses rising. -/
def Memory.set : Memory → Nat → Byte → Memory
  | [], a, b => [(a, b)]
  | (k, v) :: m, a, b =>
    if a < k then (a, b) :: (k, v) :: m
    else if a = k then (a, b) :: m
    else (k, v) :: Memory.set m a b

/-- The byte at an address: the one written since reset, else the free draw of that reset
(70_reset_and_hazards.md R311). -/
def Memory.read (draw : Nat) (m : Memory) (a : Nat) : Byte :=
  (Memory.get? m a).getD (Config.powerOnByte draw a)

/-- MemRead(a, 1) (00_scope.md R12). -/
def State.memRead (s : State) (a : Nat) : Byte := Memory.read s.draw s.mem a

/-- The state with another memory. -/
def State.setMem (s : State) (m : Memory) : State := { s with mem := m }

/-- MemWrite(a, 1, v) (00_scope.md R12). -/
def State.memWrite (s : State) (a : Nat) (v : Byte) : State := s.setMem (Memory.set s.mem a v)

/-- RES[0] <- v (00_scope.md R12). -/
def State.setRes0 (s : State) (v : Word) : State := { s with res0 := v }

/-- RES[1] <- v (00_scope.md R12). -/
def State.setRes1 (s : State) (v : Word) : State := { s with res1 := v }

/-- The state with another bit reader. -/
def State.setReader (s : State) (r : Stream) : State := { s with reader := r }

/-- The state with another bit writer. -/
def State.setWriter (s : State) (w : Stream) : State := { s with writer := w }

/-- The state with WE[i] replaced. -/
def State.setWe (s : State) (i : Nat) (x : WeInst) : State := { s with we := s.we.set i x }

/-- The state with WD[i] replaced. -/
def State.setWd (s : State) (i : Nat) (x : WdInst) : State := { s with wd := s.wd.set i x }

/-- The state with TSE[i] replaced. -/
def State.setTse (s : State) (i : Nat) (x : TseInst) : State := { s with tse := s.tse.set i x }

/-- The state with TSD[i] replaced. -/
def State.setTsd (s : State) (i : Nat) (x : TsdInst) : State := { s with tsd := s.tsd.set i x }

/-- The state with other argument registers (host writes only, 10_state.md R36). -/
def State.setArgs (s : State) (a : Args) : State := { s with args := a }

/-- A host write to STATUS: a 1 in bit 8 clears STICKY, every other bit is ignored (10_state.md R33). -/
def State.clearSticky (s : State) (data : Word) : State :=
  { s with status := { s.status with sticky := s.status.sticky && !data.getLsbD 8 } }

/-- The host has read a value: recorded, and nothing else changes (20_memory.md R81; log 6). -/
def State.record (s : State) (v : Word) : State := { s with seen := v :: s.seen }

/-- The state with other host accesses pending. -/
def State.setBus (s : State) (b : List Access) : State := { s with bus := b }

/-- The OPEN parameters of this block (00_scope.md R7). -/
def State.params (s : State) : Params :=
  { memSize := s.memSize, numWe := s.we.length, numWd := s.wd.length, numTse := s.tse.length
    numTsd := s.tsd.length, crc6Poly := s.crc6Poly, crc6Init := s.crc6Init }

/-- complete(word, code) with OPC the word's bits [31:24] (60_exceptions.md R281). -/
def complete (opc : Byte) (code : ErrCode) (s : State) : State :=
  { s with
    status := { code := code, sticky := s.status.sticky || code != .ok, lastOpc := opc }
    cmdCount := s.cmdCount + 1#32 }

/-- `finish`: the command ends with code OK (00_scope.md R12). -/
def finish (opc : Byte) (s : State) : Result := .next (complete opc .ok s)

/-- `raise E`: the command ends with error code E; the state given is the one before the command, so
nothing but STATUS and CMD_COUNT changes (00_scope.md R12, 60_exceptions.md R283). -/
def raise (opc : Byte) (e : ErrCode) (s : State) : Result := .next (complete opc e s)

end Sys2Proof.Machine
end

