-- ==== Sys2Proof/Machine/Operands.lean ====
section
/-! DEFINITION. Every operand form of the commands: modular and signed readings (00_scope.md R11),
configuration values, MEM regions (20_memory.md R71) and bit-stream fields (R72, 40_bitio_sdvl.md R120). -/

namespace Sys2Proof.Machine

/-- u_N(x): x mod 2^N (00_scope.md R11). -/
def uN (n : Nat) (x : Int) : Nat := (x % ((2 ^ n : Nat) : Int)).toNat

/-- sext_N(x): the low N bits of x as a two's-complement number (00_scope.md R11). -/
def sextN (n : Nat) (x : Int) : Int :=
  if uN n x < 2 ^ (n - 1) then (uN n x : Int) else (uN n x : Int) - ((2 ^ n : Nat) : Int)

/-- A number placed in a 32-bit register, reduced mod 2^32. -/
def toWord (x : Nat) : Word := BitVec.ofNat 32 x

/-- The number of bits of a width. -/
def Width.bits : Width → Nat
  | .w12 => 12
  | .w16 => 16
  | .w32 => 32

/-- A width operand: 12, 16 or 32, else none (42_wlsb.md R196, R210; 43_ts_scaled.md R231, R250). -/
def Width.ofWord? (v : Word) : Option Width :=
  if v.toNat = 12 then some .w12
  else if v.toNat = 16 then some .w16
  else if v.toNat = 32 then some .w32
  else none

/-- A pmode operand: 0 or 1, else none (42_wlsb.md R196, R210). -/
def PMode.ofWord? (v : Word) : Option PMode :=
  if v.toNat = 0 then some .constant
  else if v.toNat = 1 then some .rtpTs
  else none

/-- The value of a pmode bit (10_state.md R50). -/
def PMode.bit : PMode → Bool
  | .constant => false
  | .rtpTs => true

/-- The number of entries of a window width. -/
def WindowWidth.toNat : WindowWidth → Nat
  | .one => 1
  | .two => 2
  | .four => 4
  | .eight => 8
  | .sixteen => 16
  | .thirtyTwo => 32
  | .sixtyFour => 64
  | .oneTwentyEight => 128
  | .twoFiftySix => 256

/-- A window-width operand: a power of two in 1..256, else none (42_wlsb.md R196). -/
def WindowWidth.ofWord? (v : Word) : Option WindowWidth :=
  if v.toNat = 1 then some .one
  else if v.toNat = 2 then some .two
  else if v.toNat = 4 then some .four
  else if v.toNat = 8 then some .eight
  else if v.toNat = 16 then some .sixteen
  else if v.toNat = 32 then some .thirtyTwo
  else if v.toNat = 64 then some .sixtyFour
  else if v.toNat = 128 then some .oneTwentyEight
  else if v.toNat = 256 then some .twoFiftySix
  else none

/-- A region (a, len) is legal iff a + len ≤ MEM_SIZE, without wrap-around (20_memory.md R71). -/
def regionLegal (s : State) (a len : Nat) : Bool := decide (a + len ≤ s.memSize)

/-- A field of n bits at the cursor lies inside the stream's region (40_bitio_sdvl.md R122, R131). -/
def Stream.holds (r : Stream) (n : Nat) : Bool := decide (r.pos.toNat + n ≤ 8 * r.len.toNat)

/-- Every byte that holds a bit of the n-bit field at the cursor is a byte of MEM. 10_state.md R40 and
R41 make this follow from `Stream.holds`; a command stops where it does not (log 9). -/
def Stream.inMem (s : State) (r : Stream) (n : Nat) : Bool :=
  n == 0 || decide (r.base.toNat + (r.pos.toNat + n - 1) / 8 < s.memSize)

/-- The stream with its cursor n bits further. -/
def Stream.advance (r : Stream) (n : Nat) : Stream := { r with pos := toWord (r.pos.toNat + n) }

/-- Bits from the cursor to the next byte boundary (20_memory.md R77). -/
def Stream.padding (r : Stream) : Nat := (8 - r.pos.toNat % 8) % 8

/-- bit(b, q): bit 7 - (q mod 8) of byte b + q div 8 (40_bitio_sdvl.md R120). -/
def streamBit (s : State) (base q : Nat) : Bool := (s.memRead (base + q / 8)).getLsbD (7 - q % 8)

/-- getbits(b, q, N), most significant bit first (40_bitio_sdvl.md R120). -/
def getBits (s : State) (base q : Nat) : Nat → Nat
  | 0 => 0
  | n + 1 => 2 * getBits s base q n + (streamBit s base (q + n)).toNat

/-- One bit of a byte replaced, the other seven kept. -/
def putBit (b : Byte) (i : Nat) (x : Bool) : Byte :=
  if x then b ||| BitVec.twoPow 8 i else b &&& ~~~(BitVec.twoPow 8 i)

/-- setbit(b, q, x) (40_bitio_sdvl.md R120). -/
def setBit (s : State) (base q : Nat) (x : Bool) : State :=
  s.memWrite (base + q / 8) (putBit (s.memRead (base + q / 8)) (7 - q % 8) x)

/-- The low n bits of v written at position q, most significant first (40_bitio_sdvl.md R131): bits
v[n-1] .. v[1] first, then v[0] at the last position. -/
def setBits (s : State) (base q : Nat) : Nat → Nat → State
  | 0, _ => s
  | n + 1, v => setBit (setBits s base q n (v / 2)) base (q + n) (v.testBit 0)

end Sys2Proof.Machine
end

