-- ==== Sys2Proof/Machine/Flags.lean ====
section
/-! DEFINITION. Every flag layout: STATUS (10_state.md R33), the configuration registers (R35), the
packed results of WE_INFO, WD_RD, TSE_RD and TSD_RD, and the result flags of TSE_ENC
(43_ts_scaled.md R239). -/

namespace Sys2Proof.Machine

/-- The number of an error code (60_exceptions.md R280). -/
def ErrCode.value : ErrCode → Byte
  | .ok => 0x00#8
  | .illegalCommand => 0x01#8
  | .illegalOperand => 0x02#8
  | .badAddress => 0x03#8
  | .malformed => 0x04#8
  | .malformedSdvl => 0x05#8
  | .outputTooSmall => 0x06#8
  | .wlsbAmbiguous => 0x07#8
  | .noReference => 0x08#8
  | .crcMismatch => 0x09#8

/-- A Boolean as one bit. -/
def bit (b : Bool) : BitVec 1 := BitVec.ofBool b

/-- STATUS as the host reads it: CODE [7:0], STICKY [8], LAST_OPC [23:16], the rest 0 (10_state.md R33). -/
def Status.word (t : Status) : Word := 0#8 ++ t.lastOpc ++ 0#7 ++ bit t.sticky ++ t.code.value

/-- CFG_INST (10_state.md R35). -/
def cfgInst (s : State) : Word :=
  BitVec.ofNat 8 (s.tsd.length - 1) ++ BitVec.ofNat 8 (s.tse.length - 1) ++
  BitVec.ofNat 8 (s.wd.length - 1) ++ BitVec.ofNat 8 (s.we.length - 1)

/-- CFG_CRC6 (10_state.md R35). -/
def cfgCrc6 (s : State) : Word := 0#18 ++ s.crc6Init ++ 0#2 ++ s.crc6Poly

/-- RES1 of WE_INFO with SEL 0: pmode [24], snw [21:16], n [13:8], W - 1 [7:0] (42_wlsb.md R198). -/
def WeInst.infoWord (x : WeInst) : Word :=
  0#7 ++ bit x.pmode.bit ++ 0#2 ++ BitVec.ofNat 6 x.snw.bits ++ 0#2 ++ BitVec.ofNat 6 x.n.bits ++
  BitVec.ofNat 8 (x.w.toNat - 1)

/-- RES1 of WD_RD with SEL 0: ref_valid [31], pmode [24], n [13:8] (42_wlsb.md R214). -/
def WdInst.infoWord (x : WdInst) : Word :=
  bit x.refValid ++ 0#6 ++ bit x.pmode.bit ++ 0#10 ++ BitVec.ofNat 6 x.n.bits ++ 0#8

/-- The code of a TS encoder state (43_ts_scaled.md, the state names; R239). -/
def TseState.code : TseState → BitVec 2
  | .initTs => 0#2
  | .initStride => 1#2
  | .sendScaled => 2#2

/-- What a packet must carry, as TSE_ENC reports it (43_ts_scaled.md R239). -/
structure TsFlags where
  uns : Bool
  stf : Bool
  ded : Bool
  all : Bool
  deriving DecidableEq, Repr

/-- INIT_TS: the TS goes unscaled (R234). -/
def TsFlags.unscaled : TsFlags := { uns := true, stf := false, ded := false, all := false }

/-- INIT_STRIDE: TS_STRIDE and the unscaled TS (R236). -/
def TsFlags.withStride : TsFlags := { uns := true, stf := true, ded := false, all := false }

/-- SEND_SCALED: deducible, else all bits of TS_SCALED (R238). -/
def TsFlags.scaled (ded : Bool) : TsFlags := { uns := false, stf := false, ded := ded, all := !ded }

/-- RES1 of TSE_ENC: COUNT [15:8], ALL [5], DED [4], STF [3], UNS [2], STATE [1:0] (R232, R239). -/
def tseResult (x : TseInst) (f : TsFlags) : Word :=
  0#16 ++ x.strideCount ++ 0#2 ++ bit f.all ++ bit f.ded ++ bit f.stf ++ bit f.uns ++ x.state.code

/-- RES0 of TSE_RD with SEL 7: deducible [1], have_old [0] (43_ts_scaled.md R240). -/
def TseInst.flagWord (x : TseInst) : Word := 0#30 ++ bit x.deducible ++ bit x.haveOld

/-- RES0 of TSD_RD with SEL 5: stride known [1], ref_valid [0] (43_ts_scaled.md R256). -/
def TsdInst.flagWord (x : TsdInst) : Word := 0#30 ++ bit (decide (x.stride ≠ 0#32)) ++ bit x.refValid

end Sys2Proof.Machine
end

