-- ==== Sys2Proof/Machine/Bio.lean ====
section
/-! DEFINITION. The BIO unit: bit reader, bit writer and SDVL codec (40_bitio_sdvl.md). -/

namespace Sys2Proof.Machine

/-- The stream of a freshly set region: cursor 0 (40_bitio_sdvl.md R121, R130). -/
def Stream.fresh (base len : Word) : Stream := { base := base, len := len, pos := 0#32 }

/-- The n bits at the cursor of the reader, as a register value. -/
def readerField (s : State) (n : Nat) : Word :=
  toWord (getBits s s.reader.base.toNat s.reader.pos.toNat n)

/-- The state with the low n bits of v written at the writer's cursor and the cursor n bits further. -/
def writeField (s : State) (n v : Nat) : State :=
  (setBits s s.writer.base.toNat s.writer.pos.toNat n v).setWriter (s.writer.advance n)

/-- BR_INIT (40_bitio_sdvl.md R121). -/
def execBrInit (s : State) : Result :=
  if regionLegal s s.args.arg0.toNat s.args.arg1.toNat then
    finish 0x01#8 (s.setReader (Stream.fresh s.args.arg0 s.args.arg1))
  else raise 0x01#8 .badAddress s

/-- BR_READ N (40_bitio_sdvl.md R122). -/
def execBrRead (n : Nat) (s : State) : Result :=
  if 32 < n then raise 0x02#8 .illegalOperand s
  else if !s.reader.holds n then raise 0x02#8 .malformed s
  else if !Stream.inMem s s.reader n then .fault .noSuchAddress
  else finish 0x02#8 ((s.setRes0 (readerField s n)).setReader (s.reader.advance n))

/-- BR_PEEK N (40_bitio_sdvl.md R124). -/
def execBrPeek (n : Nat) (s : State) : Result :=
  if 32 < n then raise 0x03#8 .illegalOperand s
  else if !s.reader.holds n then raise 0x03#8 .malformed s
  else if !Stream.inMem s s.reader n then .fault .noSuchAddress
  else finish 0x03#8 (s.setRes0 (readerField s n))

/-- BR_ALIGN (40_bitio_sdvl.md R125). -/
def execBrAlign (s : State) : Result :=
  finish 0x04#8 (s.setReader { s.reader with pos := toWord (8 * ((s.reader.pos.toNat + 7) / 8)) })

/-- BW_INIT (40_bitio_sdvl.md R130). -/
def execBwInit (s : State) : Result :=
  if regionLegal s s.args.arg0.toNat s.args.arg1.toNat then
    finish 0x05#8 (s.setWriter (Stream.fresh s.args.arg0 s.args.arg1))
  else raise 0x05#8 .badAddress s

/-- BW_WRITE N (40_bitio_sdvl.md R131). -/
def execBwWrite (n : Nat) (s : State) : Result :=
  if 32 < n then raise 0x06#8 .illegalOperand s
  else if !s.writer.holds n then raise 0x06#8 .outputTooSmall s
  else if !Stream.inMem s s.writer n then .fault .noSuchAddress
  else finish 0x06#8 (writeField s n (s.args.arg0.toNat % 2 ^ n))

/-- BW_ALIGN (40_bitio_sdvl.md R133). -/
def execBwAlign (s : State) : Result :=
  if !Stream.inMem s s.writer s.writer.padding then .fault .noSuchAddress
  else finish 0x07#8 (writeField s s.writer.padding 0)

/-- The length in bytes of the shortest SDVL form of v (40_bitio_sdvl.md R140). -/
def sdvlLength (v : Nat) : Nat :=
  if v < 2 ^ 7 then 1 else if v < 2 ^ 14 then 2 else if v < 2 ^ 21 then 3 else 4

/-- The SDVL code word of v: prefix 0, 10, 110 or 111, then the value bits (40_bitio_sdvl.md R139, R140). -/
def sdvlCode (v : Nat) : Nat :=
  if v < 2 ^ 7 then v
  else if v < 2 ^ 14 then 0b10 * 2 ^ 14 + v
  else if v < 2 ^ 21 then 0b110 * 2 ^ 21 + v
  else 0b111 * 2 ^ 29 + v

/-- SDVL_ENC (40_bitio_sdvl.md R140). -/
def execSdvlEnc (s : State) : Result :=
  if Config.sdvlMax < s.args.arg0.toNat then raise 0x08#8 .malformedSdvl s
  else if !s.writer.holds (8 * sdvlLength s.args.arg0.toNat) then raise 0x08#8 .outputTooSmall s
  else if !Stream.inMem s s.writer (8 * sdvlLength s.args.arg0.toNat) then .fault .noSuchAddress
  else finish 0x08#8 ((writeField s (8 * sdvlLength s.args.arg0.toNat) (sdvlCode s.args.arg0.toNat)).setRes0
    (toWord (sdvlLength s.args.arg0.toNat)))

/-- The length in bytes that the first byte of an SDVL code announces (40_bitio_sdvl.md R141). -/
def sdvlPrefixLength (b0 : Nat) : Nat :=
  if b0 / 2 ^ 7 = 0 then 1
  else if b0 / 2 ^ 6 = 0b10 then 2
  else if b0 / 2 ^ 5 = 0b110 then 3
  else 4

/-- The number of value bits of an SDVL code of a length (40_bitio_sdvl.md R139). -/
def sdvlValueBits (len : Nat) : Nat :=
  if len = 1 then 7 else if len = 2 then 14 else if len = 3 then 21 else 29

/-- The length of the SDVL code at the reader's cursor. -/
def readerSdvlLength (s : State) : Nat :=
  sdvlPrefixLength (getBits s s.reader.base.toNat s.reader.pos.toNat 8)

/-- SDVL_DEC (40_bitio_sdvl.md R141). -/
def execSdvlDec (s : State) : Result :=
  if !s.reader.holds 8 then raise 0x09#8 .malformedSdvl s
  else if !Stream.inMem s s.reader 8 then .fault .noSuchAddress
  else if !s.reader.holds (8 * readerSdvlLength s) then raise 0x09#8 .malformedSdvl s
  else if !Stream.inMem s s.reader (8 * readerSdvlLength s) then .fault .noSuchAddress
  else finish 0x09#8
    (((s.setRes0 (toWord (getBits s s.reader.base.toNat s.reader.pos.toNat (8 * readerSdvlLength s)
        % 2 ^ sdvlValueBits (readerSdvlLength s)))).setRes1 (toWord (readerSdvlLength s))).setReader
      (s.reader.advance (8 * readerSdvlLength s)))

end Sys2Proof.Machine
end

