-- ==== Sys2Proof/Machine/Control.lean ====
section
/-! DEFINITION. The control command (45_control.md). -/

namespace Sys2Proof.Machine

/-- NOP (45_control.md R270). -/
def execNop (s : State) : Result := finish 0x00#8 s

end Sys2Proof.Machine
end

