-- ==== Sys2Proof/Machine/CrcUnit.lean ====
section
/-! DEFINITION. The CRC unit (41_crc.md): CRC-2, CRC-3, CRC-6, CRC-7 and CRC-8 over a region of MEM. -/

namespace Sys2Proof.Machine

/-- A row of the parameter table: width in bits, polynomial in reflected form, default init
(41_crc.md R161). -/
structure CrcRow where
  width : Nat
  poly  : Byte
  init  : Byte
  deriving DecidableEq, Repr

/-- The row of a KIND; none for the illegal codes 5..7 (41_crc.md R160, R161). CRC-6 takes the OPEN
parameters (log 2). -/
def crcRow? (s : State) (kind : Nat) : Option CrcRow :=
  match kind with
  | 0 => some { width := 2, poly := 0x3#8, init := 0x3#8 }
  | 1 => some { width := 3, poly := 0x6#8, init := 0x7#8 }
  | 2 => some { width := 6, poly := s.crc6Poly.setWidth 8, init := s.crc6Init.setWidth 8 }
  | 3 => some { width := 7, poly := 0x79#8, init := 0x7F#8 }
  | 4 => some { width := 8, poly := 0xE0#8, init := 0xFF#8 }
  | _ => none

/-- One of the eight steps of crc_byte (41_crc.md R162). -/
def crcShift (poly crc : Byte) : Byte := if crc.getLsbD 0 then (crc >>> 1) ^^^ poly else crc >>> 1

/-- The step repeated (41_crc.md R162). -/
def crcShifts (poly : Byte) : Nat → Byte → Byte
  | 0, crc => crc
  | k + 1, crc => crcShifts poly k (crcShift poly crc)

/-- crc_byte: one byte folded in, least significant bit first (41_crc.md R162). -/
def crcByte (poly crc b : Byte) : Byte := crcShifts poly 8 (crc ^^^ b)

/-- Data byte i is fed: every byte when M = 0, else the bytes whose bit in the include bitmap is 1
(41_crc.md R163). -/
def crcIncludes (s : State) (m : Bool) (i : Nat) : Bool := !m || streamBit s s.args.arg3.toNat i

/-- The CRC register after the first len bytes of the region at `a`, excluded bytes skipped
(41_crc.md R163, R164). -/
def crcRegion (s : State) (poly : Byte) (m : Bool) (a : Nat) (init : Byte) : Nat → Byte
  | 0 => init
  | i + 1 =>
    if crcIncludes s m i then crcByte poly (crcRegion s poly m a init i) (s.memRead (a + i))
    else crcRegion s poly m a init i

/-- The mask region is legal, if there is one (41_crc.md R164). -/
def crcMaskLegal (s : State) (m : Bool) : Bool :=
  !m || regionLegal s s.args.arg3.toNat ((s.args.arg1.toNat + 7) / 8)

/-- The init is the kind's default, or ARG2 has at most the kind's width (41_crc.md R164). -/
def crcInitLegal (s : State) (row : CrcRow) (d : Bool) : Bool := d || decide (s.args.arg2.toNat < 2 ^ row.width)

/-- The init of a run (41_crc.md R164). -/
def crcInit (s : State) (row : CrcRow) (d : Bool) : Byte := if d then row.init else s.args.arg2.setWidth 8

/-- The result of a CRC command whose operands are legal. -/
def crcResult (s : State) (row : CrcRow) (d m : Bool) : Word :=
  (crcRegion s row.poly m s.args.arg0.toNat (crcInit s row d) s.args.arg1.toNat).setWidth 32

/-- The completion code of a CRC command that computed crc: CRC_MISMATCH iff C = 1 and the result
differs from ARG4 (41_crc.md R164, R165). -/
def crcCode (s : State) (c : Bool) (crc : Word) : ErrCode :=
  if c && crc != s.args.arg4 then .crcMismatch else .ok

/-- CRC (41_crc.md R164). RES0 is written before the comparison, so it stays written when the command
completes with CRC_MISMATCH (R165). -/
def execCrc (kind : Nat) (d m c : Bool) (s : State) : Result :=
  match crcRow? s kind with
  | none => raise 0x10#8 .illegalOperand s
  | some row =>
    if !regionLegal s s.args.arg0.toNat s.args.arg1.toNat then raise 0x10#8 .badAddress s
    else if !crcMaskLegal s m then raise 0x10#8 .badAddress s
    else if !crcInitLegal s row d then raise 0x10#8 .illegalOperand s
    else .next (complete 0x10#8 (crcCode s c (crcResult s row d m)) (s.setRes0 (crcResult s row d m)))

end Sys2Proof.Machine
end

