-- ==== Sys2Proof/Machine/ScaledTs.lean ====
section
/-! DEFINITION. The TSC unit: scaled RTP-timestamp encoder and decoder instances (43_ts_scaled.md). An
INST at or past the instance count raises ILLEGAL_OPERAND before the command's own checks
(30_encoding.md R91). -/

namespace Sys2Proof.Machine

/-- The instance TSE_CFG configures, if every operand is legal: reset but for L and snw
(43_ts_scaled.md R231). -/
def tseConfig? (a : Args) : Option TseInst :=
  if a.arg0.toNat < 1 ∨ 255 < a.arg0.toNat then none
  else (Width.ofWord? a.arg1).map fun snw =>
    { l := a.arg0.setWidth 8, snw := snw, state := .initTs, haveOld := false, oldTs := 0#32, oldSn := 0#32
      tsStride := 0#32, tsOffset := 0#32, tsScaled := 0#32, strideCount := 0#8, deducible := false }

/-- TSE_CFG (43_ts_scaled.md R231). -/
def execTseCfg (i : Nat) (s : State) : Result :=
  match s.tse[i]? with
  | none => raise 0x30#8 .illegalOperand s
  | some _ =>
    match tseConfig? s.args with
    | none => raise 0x30#8 .illegalOperand s
    | some x => finish 0x30#8 (s.setTse i x)

/-- diff = u_32(ts - old_ts) (43_ts_scaled.md R232). -/
def TseInst.diff (x : TseInst) (ts : Word) : Nat := (ts - x.oldTs).toNat

/-- delta, the magnitude of the signed 32-bit difference (43_ts_scaled.md R233). -/
def TseInst.delta (x : TseInst) (ts : Word) : Nat :=
  if x.diff ts < 2 ^ 31 then x.diff ts else 2 ^ 32 - x.diff ts

/-- The delta is zero or past the SDVL capacity: the encoder goes to INIT_TS (43_ts_scaled.md R234). -/
def TseInst.rejects (x : TseInst) (ts : Word) : Bool :=
  decide (x.delta ts = 0) || decide (Config.sdvlMax < x.delta ts)

/-- A wrap-around: ts numerically below the previous one with a forward difference (43_ts_scaled.md R237). -/
def TseInst.wraps (x : TseInst) (ts : Word) : Bool :=
  decide (ts.toNat < x.oldTs.toNat) && decide (x.diff ts < 2 ^ 31)

/-- ts mod TS_STRIDE (43_ts_scaled.md R232). -/
def TseInst.offsetOf (x : TseInst) (ts : Word) : Nat := ts.toNat % x.tsStride.toNat

/-- (ts - ts mod TS_STRIDE) div TS_STRIDE (43_ts_scaled.md R232). -/
def TseInst.scaledOf (x : TseInst) (ts : Word) : Nat := (ts.toNat - x.offsetOf ts) / x.tsStride.toNat

/-- INIT_STRIDE entered, or entered again, with a new stride and the count 0 (43_ts_scaled.md R235 to R237). -/
def TseInst.newStride (x : TseInst) (stride : Nat) : TseInst :=
  { x with state := .initStride, tsStride := toWord stride, strideCount := 0#8 }

/-- INIT_STRIDE entered again with the stride kept and the count 0 (43_ts_scaled.md R237). -/
def TseInst.sameStride (x : TseInst) : TseInst := { x with state := .initStride, strideCount := 0#8 }

/-- A packet handled in INIT_STRIDE: offset and scaled value recomputed, one more transmission counted,
SEND_SCALED when the count reaches L (43_ts_scaled.md R236). -/
def TseInst.sendStride (x : TseInst) (ts : Word) : TseInst :=
  { x with
    tsOffset := toWord (x.offsetOf ts)
    tsScaled := toWord (x.scaledOf ts)
    strideCount := x.strideCount + 1#8
    state := if x.l.toNat ≤ (x.strideCount + 1#8).toNat then .sendScaled else .initStride }

/-- TS is deducible from SN: the signed 32-bit scaled difference equals the signed snw-bit SN
difference (43_ts_scaled.md R238). -/
def TseInst.deduces (x : TseInst) (ts : Word) (sn : Nat) : Bool :=
  decide (sextN 32 ((x.scaledOf ts : Int) - x.tsScaled.toNat) = sextN x.snw.bits ((sn : Int) - x.oldSn.toNat))

/-- A packet sent scaled: offset and scaled value recomputed (43_ts_scaled.md R238). -/
def TseInst.sendScaled (x : TseInst) (ts : Word) : TseInst :=
  { x with tsOffset := toWord (x.offsetOf ts), tsScaled := toWord (x.scaledOf ts) }

/-- The transition of one packet with sn already reduced, before the reference is moved to it
(43_ts_scaled.md R230, R232). -/
def TseInst.transition (x : TseInst) (ts : Word) (sn : Nat) : TseInst × TsFlags :=
  if !x.haveOld then ({ x with state := .initTs }, .unscaled)
  else if x.rejects ts then ({ x with state := .initTs }, .unscaled)
  else
    match x.state with
    | .initTs => ((x.newStride (x.delta ts)).sendStride ts, .withStride)
    | .initStride =>
      if x.delta ts ≠ x.tsStride.toNat then ((x.newStride (x.delta ts)).sendStride ts, .withStride)
      else (x.sendStride ts, .withStride)
    | .sendScaled =>
      if x.delta ts % x.tsStride.toNat ≠ 0 then ((x.newStride (x.delta ts)).sendStride ts, .withStride)
      else if x.wraps ts ∧ x.offsetOf ts ≠ x.tsOffset.toNat then (x.sameStride.sendStride ts, .withStride)
      else (x.sendScaled ts, .scaled (x.deduces ts sn))

/-- The instance after a packet whose transition gave x: the packet is the new reference
(43_ts_scaled.md R232, last lines). -/
def TseInst.remember (x : TseInst) (ts : Word) (sn : Nat) (f : TsFlags) : TseInst :=
  { x with oldTs := ts, oldSn := toWord sn, haveOld := true, deducible := f.ded }

/-- One packet through the encoder: the new instance and what the packet must carry (43_ts_scaled.md R232). -/
def TseInst.packet (x : TseInst) (ts sn : Word) : TseInst × TsFlags :=
  let r := x.transition ts (uN x.snw.bits sn.toNat)
  (r.1.remember ts (uN x.snw.bits sn.toNat) r.2, r.2)

/-- The packet would be divided by a stride of 0, which R232 derives cannot happen (log 10). -/
def TseInst.dividesByZero (x : TseInst) (ts : Word) : Bool :=
  x.haveOld && !x.rejects ts && decide (x.state = .sendScaled) && decide (x.tsStride = 0#32)

/-- TSE_ENC (43_ts_scaled.md R232 to R239). -/
def execTseEnc (i : Nat) (s : State) : Result :=
  match s.tse[i]? with
  | none => raise 0x31#8 .illegalOperand s
  | some x =>
    if x.dividesByZero s.args.arg0 then .fault .zeroStride
    else
      finish 0x31#8 (((s.setTse i (x.packet s.args.arg0 s.args.arg1).1).setRes0
        (x.packet s.args.arg0 s.args.arg1).1.tsScaled).setRes1
        (tseResult (x.packet s.args.arg0 s.args.arg1).1 (x.packet s.args.arg0 s.args.arg1).2))

/-- The field a selector of TSE_RD names, none for 10..15 (43_ts_scaled.md R240). -/
def TseInst.field? (x : TseInst) (sel : Nat) : Option Word :=
  match sel with
  | 0 => some (x.state.code.setWidth 32)
  | 1 => some x.tsStride
  | 2 => some x.tsOffset
  | 3 => some x.tsScaled
  | 4 => some x.oldTs
  | 5 => some x.oldSn
  | 6 => some (x.strideCount.setWidth 32)
  | 7 => some x.flagWord
  | 8 => some (x.l.setWidth 32)
  | 9 => some (toWord x.snw.bits)
  | _ => none

/-- TSE_RD SEL (43_ts_scaled.md R240). -/
def execTseRd (i sel : Nat) (s : State) : Result :=
  match s.tse[i]? with
  | none => raise 0x32#8 .illegalOperand s
  | some x =>
    match x.field? sel with
    | none => raise 0x32#8 .illegalOperand s
    | some v => finish 0x32#8 ((s.setRes0 v).setRes1 0#32)

/-- The instance TSD_CFG configures, if its operand is legal (43_ts_scaled.md R250). -/
def tsdConfig? (a : Args) : Option TsdInst :=
  (Width.ofWord? a.arg0).map fun snw =>
  { snw := snw, stride := 0#32, offset := 0#32, scaledRef := 0#32, tsRef := 0#32, snRef := 0#32
    refValid := false }

/-- TSD_CFG (43_ts_scaled.md R250). -/
def execTsdCfg (i : Nat) (s : State) : Result :=
  match s.tsd[i]? with
  | none => raise 0x38#8 .illegalOperand s
  | some _ =>
    match tsdConfig? s.args with
    | none => raise 0x38#8 .illegalOperand s
    | some x => finish 0x38#8 (s.setTsd i x)

/-- The reference TS split by the stride: offset ts mod stride, scaled (ts - offset) div stride
(43_ts_scaled.md R251, R254). -/
def TsdInst.split (x : TsdInst) : TsdInst :=
  { x with
    offset := toWord (x.tsRef.toNat % x.stride.toNat)
    scaledRef := toWord ((x.tsRef.toNat - x.tsRef.toNat % x.stride.toNat) / x.stride.toNat) }

/-- The decoder with a received stride; a committed reference is split anew (43_ts_scaled.md R251). -/
def TsdInst.setStride (x : TsdInst) (stride : Word) : TsdInst :=
  if x.refValid then { x with stride := stride }.split else { x with stride := stride }

/-- TSD_STRIDE (43_ts_scaled.md R251). -/
def execTsdStride (i : Nat) (s : State) : Result :=
  match s.tsd[i]? with
  | none => raise 0x39#8 .illegalOperand s
  | some x =>
    if s.args.arg0 = 0#32 ∨ Config.sdvlMax < s.args.arg0.toNat then raise 0x39#8 .illegalOperand s
    else finish 0x39#8 (s.setTsd i (x.setStride s.args.arg0))

/-- u_32(scaled * stride + offset) (43_ts_scaled.md R252, R253). -/
def TsdInst.timestamp (x : TsdInst) (scaled : Nat) : Nat :=
  uN 32 ((scaled : Int) * x.stride.toNat + x.offset.toNat)

/-- TSD_SCALED (43_ts_scaled.md R252). -/
def execTsdScaled (i : Nat) (s : State) : Result :=
  match s.tsd[i]? with
  | none => raise 0x3A#8 .illegalOperand s
  | some x =>
    if x.stride = 0#32 then raise 0x3A#8 .noReference s
    else finish 0x3A#8 (s.setRes0 (toWord (x.timestamp s.args.arg0.toNat)))

/-- scaled = u_32(scaled_ref + d), d the signed snw-bit SN difference (43_ts_scaled.md R253). -/
def TsdInst.deducedScaled (x : TsdInst) (sn : Word) : Nat :=
  uN 32 ((x.scaledRef.toNat : Int) + sextN x.snw.bits ((sn.toNat : Int) - x.snRef.toNat))

/-- TSD_DEDUCE (43_ts_scaled.md R253). -/
def execTsdDeduce (i : Nat) (s : State) : Result :=
  match s.tsd[i]? with
  | none => raise 0x3B#8 .illegalOperand s
  | some x =>
    if x.stride = 0#32 ∨ x.refValid = false then raise 0x3B#8 .noReference s
    else finish 0x3B#8 ((s.setRes0 (toWord (x.timestamp (x.deducedScaled s.args.arg0)))).setRes1
      (toWord (x.deducedScaled s.args.arg0)))

/-- The decoder with (ts, sn) its reference, split if a stride is known (43_ts_scaled.md R254). -/
def TsdInst.commit (x : TsdInst) (ts sn : Word) : TsdInst :=
  if x.stride = 0#32 then { x with tsRef := ts, snRef := toWord (uN x.snw.bits sn.toNat), refValid := true }
  else { x with tsRef := ts, snRef := toWord (uN x.snw.bits sn.toNat), refValid := true }.split

/-- TSD_COMMIT (43_ts_scaled.md R254). -/
def execTsdCommit (i : Nat) (s : State) : Result :=
  match s.tsd[i]? with
  | none => raise 0x3C#8 .illegalOperand s
  | some x => finish 0x3C#8 (s.setTsd i (x.commit s.args.arg0 s.args.arg1))

/-- The field a selector of TSD_RD names, none for 7..15 (43_ts_scaled.md R256). -/
def TsdInst.field? (x : TsdInst) (sel : Nat) : Option Word :=
  match sel with
  | 0 => some x.stride
  | 1 => some x.offset
  | 2 => some x.scaledRef
  | 3 => some x.tsRef
  | 4 => some x.snRef
  | 5 => some x.flagWord
  | 6 => some (toWord x.snw.bits)
  | _ => none

/-- TSD_RD SEL (43_ts_scaled.md R256). -/
def execTsdRd (i sel : Nat) (s : State) : Result :=
  match s.tsd[i]? with
  | none => raise 0x3D#8 .illegalOperand s
  | some x =>
    match x.field? sel with
    | none => raise 0x3D#8 .illegalOperand s
    | some v => finish 0x3D#8 ((s.setRes0 v).setRes1 0#32)

end Sys2Proof.Machine
end

