-- ==== Sys2Proof/Machine/Wlsb.lean ====
section
/-! DEFINITION. The WLSB unit: W-LSB encoder and decoder instances (42_wlsb.md). An INST at or past the
instance count raises ILLEGAL_OPERAND before the command's own checks (30_encoding.md R91). -/

namespace Sys2Proof.Machine

/-- p(k) of an instance (42_wlsb.md R191). -/
def shiftP (pmode : PMode) (pconst : Word) (k : Nat) : Int :=
  match pmode with
  | .constant => sextN 32 pconst.toNat
  | .rtpTs => if k < 2 then 0 else ((2 ^ (k - 2) : Nat) : Int) - 1

/-- covers(r, v, k): v lies in the interpretation interval of r (42_wlsb.md R190). -/
def covers (n : Nat) (pmode : PMode) (pconst : Word) (r v k : Nat) : Bool :=
  decide (uN n ((v : Int) - uN n ((r : Int) - shiftP pmode pconst k)) < 2 ^ k)

/-- Every entry of the window covers v with k bits (42_wlsb.md R193). -/
def WeInst.coversAll (x : WeInst) (v k : Nat) : Bool :=
  x.win.all (fun e => covers x.n.bits x.pmode x.pconst e.value.toNat v k)

/-- kmin(win, v): n for an empty window, else the least k in 0..n that covers v for every entry
(42_wlsb.md R193). -/
def WeInst.kmin (x : WeInst) (v : Nat) : Nat :=
  if x.win.isEmpty then x.n.bits
  else ((List.range (x.n.bits + 1)).find? (fun k => x.coversAll v k)).getD x.n.bits

/-- The instance WE_CFG configures, if every operand is legal (42_wlsb.md R196). -/
def weConfig? (a : Args) : Option WeInst :=
  (Width.ofWord? a.arg0).bind fun n =>
  (PMode.ofWord? a.arg1).bind fun pm =>
  (WindowWidth.ofWord? a.arg3).bind fun w =>
  (Width.ofWord? a.arg4).map fun snw =>
  { n := n, pmode := pm, pconst := a.arg2, w := w, snw := snw, win := [] }

/-- WE_CFG (42_wlsb.md R196). -/
def execWeCfg (i : Nat) (s : State) : Result :=
  match s.we[i]? with
  | none => raise 0x20#8 .illegalOperand s
  | some _ =>
    match weConfig? s.args with
    | none => raise 0x20#8 .illegalOperand s
    | some x => finish 0x20#8 (s.setWe i x)

/-- The window without the entries more than half the SN space behind the new sn (42_wlsb.md R195). -/
def WeInst.purged (x : WeInst) (sn : Nat) : List WeEntry :=
  x.win.filter (fun e => decide (uN x.snw.bits ((sn : Int) - e.sn.toNat) ≤ 2 ^ (x.snw.bits - 1)))

/-- A window less its oldest entry if it holds W entries (42_wlsb.md R195). -/
def WeInst.evicted (x : WeInst) (win : List WeEntry) : List WeEntry :=
  if win.length = x.w.toNat then win.drop 1 else win

/-- The instance with (v, sn) added: purge, evict, append (42_wlsb.md R195). -/
def WeInst.add (x : WeInst) (v sn : Word) : WeInst :=
  { x with win := x.evicted (x.purged (uN x.snw.bits sn.toNat)) ++
      [{ value := toWord (uN x.n.bits v.toNat), sn := toWord (uN x.snw.bits sn.toNat) }] }

/-- WE_ADD (42_wlsb.md R195). -/
def execWeAdd (i : Nat) (s : State) : Result :=
  match s.we[i]? with
  | none => raise 0x21#8 .illegalOperand s
  | some x => finish 0x21#8 (s.setWe i (x.add s.args.arg0 s.args.arg1))

/-- WE_K (42_wlsb.md R194). -/
def execWeK (i : Nat) (s : State) : Result :=
  match s.we[i]? with
  | none => raise 0x22#8 .illegalOperand s
  | some x =>
    finish 0x22#8 ((s.setRes0 (toWord (x.kmin (uN x.n.bits s.args.arg0.toNat)))).setRes1
      (toWord (uN x.n.bits s.args.arg0.toNat % 2 ^ x.kmin (uN x.n.bits s.args.arg0.toNat))))

/-- WE_INFO SEL (42_wlsb.md R198). -/
def execWeInfo (i sel : Nat) (s : State) : Result :=
  match s.we[i]? with
  | none => raise 0x23#8 .illegalOperand s
  | some x =>
    if sel = 0 then finish 0x23#8 ((s.setRes0 (toWord x.win.length)).setRes1 x.infoWord)
    else finish 0x23#8 ((s.setRes0 x.pconst).setRes1 0#32)

/-- WE_ENTRY (42_wlsb.md R199). -/
def execWeEntry (i : Nat) (s : State) : Result :=
  match s.we[i]? with
  | none => raise 0x24#8 .illegalOperand s
  | some x =>
    match x.win[s.args.arg0.toNat]? with
    | none => raise 0x24#8 .illegalOperand s
    | some e => finish 0x24#8 ((s.setRes0 e.value).setRes1 e.sn)

/-- The instance WD_CFG configures, if every operand is legal (42_wlsb.md R210). -/
def wdConfig? (a : Args) : Option WdInst :=
  (Width.ofWord? a.arg0).bind fun n =>
  (PMode.ofWord? a.arg1).map fun pm =>
  { n := n, pmode := pm, pconst := a.arg2, ref := 0#32, refValid := false }

/-- WD_CFG (42_wlsb.md R210). -/
def execWdCfg (i : Nat) (s : State) : Result :=
  match s.wd[i]? with
  | none => raise 0x28#8 .illegalOperand s
  | some _ =>
    match wdConfig? s.args with
    | none => raise 0x28#8 .illegalOperand s
    | some x => finish 0x28#8 (s.setWd i x)

/-- The decoder with reference u_n(v) (42_wlsb.md R211). -/
def WdInst.setRef (x : WdInst) (v : Word) : WdInst :=
  { x with ref := toWord (uN x.n.bits v.toNat), refValid := true }

/-- WD_SETREF (42_wlsb.md R211). -/
def execWdSetref (i : Nat) (s : State) : Result :=
  match s.wd[i]? with
  | none => raise 0x29#8 .illegalOperand s
  | some x => finish 0x29#8 (s.setWd i (x.setRef s.args.arg0))

/-- lo, the lower end of the decoder's interpretation interval for K bits (42_wlsb.md R212). -/
def WdInst.lower (x : WdInst) (k : Nat) : Nat :=
  uN x.n.bits ((x.ref.toNat : Int) - shiftP x.pmode x.pconst k)

/-- The value decoded from K bits m (42_wlsb.md R212). -/
def WdInst.decoded (x : WdInst) (k m : Nat) : Nat :=
  uN x.n.bits ((x.lower k : Int) + uN k ((m % 2 ^ k : Nat) - (x.lower k : Int)))

/-- WD_DEC K (42_wlsb.md R212). -/
def execWdDec (i k : Nat) (s : State) : Result :=
  match s.wd[i]? with
  | none => raise 0x2A#8 .illegalOperand s
  | some x =>
    if x.n.bits < k then raise 0x2A#8 .illegalOperand s
    else if !x.refValid then raise 0x2A#8 .noReference s
    else finish 0x2A#8 (s.setRes0 (toWord (x.decoded k s.args.arg0.toNat)))

/-- WD_RD SEL (42_wlsb.md R214). -/
def execWdRd (i sel : Nat) (s : State) : Result :=
  match s.wd[i]? with
  | none => raise 0x2B#8 .illegalOperand s
  | some x =>
    if sel = 0 then finish 0x2B#8 ((s.setRes0 x.ref).setRes1 x.infoWord)
    else finish 0x2B#8 ((s.setRes0 x.pconst).setRes1 0#32)

end Sys2Proof.Machine
end

