-- ==== Sys2Proof/Machine/Dispatch.lean ====
section
/-! DEFINITION. One arm for each command of the opcode map (30_encoding.md R94). -/

namespace Sys2Proof.Machine

/-- The meaning of a command (40 to 45 of spec/), including its completion. -/
def exec (i : Instr) (s : State) : Host.Outcome State Fault Refusal :=
  match i with
  | .nop => Sys2Proof.Machine.execNop s
  | .brInit => Sys2Proof.Machine.execBrInit s
  | .brRead n => Sys2Proof.Machine.execBrRead n s
  | .brPeek n => Sys2Proof.Machine.execBrPeek n s
  | .brAlign => Sys2Proof.Machine.execBrAlign s
  | .bwInit => Sys2Proof.Machine.execBwInit s
  | .bwWrite n => Sys2Proof.Machine.execBwWrite n s
  | .bwAlign => Sys2Proof.Machine.execBwAlign s
  | .sdvlEnc => Sys2Proof.Machine.execSdvlEnc s
  | .sdvlDec => Sys2Proof.Machine.execSdvlDec s
  | .crc kind d m c => Sys2Proof.Machine.execCrc kind d m c s
  | .weCfg inst => Sys2Proof.Machine.execWeCfg inst s
  | .weAdd inst => Sys2Proof.Machine.execWeAdd inst s
  | .weK inst => Sys2Proof.Machine.execWeK inst s
  | .weInfo inst sel => Sys2Proof.Machine.execWeInfo inst sel s
  | .weEntry inst => Sys2Proof.Machine.execWeEntry inst s
  | .wdCfg inst => Sys2Proof.Machine.execWdCfg inst s
  | .wdSetref inst => Sys2Proof.Machine.execWdSetref inst s
  | .wdDec inst k => Sys2Proof.Machine.execWdDec inst k s
  | .wdRd inst sel => Sys2Proof.Machine.execWdRd inst sel s
  | .tseCfg inst => Sys2Proof.Machine.execTseCfg inst s
  | .tseEnc inst => Sys2Proof.Machine.execTseEnc inst s
  | .tseRd inst sel => Sys2Proof.Machine.execTseRd inst sel s
  | .tsdCfg inst => Sys2Proof.Machine.execTsdCfg inst s
  | .tsdStride inst => Sys2Proof.Machine.execTsdStride inst s
  | .tsdScaled inst => Sys2Proof.Machine.execTsdScaled inst s
  | .tsdDeduce inst => Sys2Proof.Machine.execTsdDeduce inst s
  | .tsdCommit inst => Sys2Proof.Machine.execTsdCommit inst s
  | .tsdRd inst sel => Sys2Proof.Machine.execTsdRd inst sel s

end Sys2Proof.Machine
end

