-- ==== Sys2Proof/Machine/HostPort.lean ====
section
/-! DEFINITION. The host port: the register map (10_state.md R31), the window onto MEM
(20_memory.md R80), what an access does (70_reset_and_hazards.md R336), and the running of a command
word written to CMD (10_state.md R32). -/

namespace Sys2Proof.Machine

/-- The registers of the map (10_state.md R31). -/
inductive HostReg where
  | id | cmd | status | cmdCount
  | arg0 | arg1 | arg2 | arg3 | arg4 | arg5
  | res0 | res1
  | brBase | brLen | brPos | bwBase | bwCap | bwPos
  | cfgMem | cfgInst | cfgCrc6
  deriving DecidableEq, Repr

/-- What an offset of the register space names: a register, a reserved offset or a window offset past
MEM (both read 0 and ignore writes), or a byte of MEM (10_state.md R31). -/
inductive Target where
  | reg (r : HostReg)
  | none
  | mem (a : Nat)
  deriving DecidableEq, Repr

/-- The register at an aligned offset, if the map lists one (10_state.md R31). -/
def hostReg? (offset : Nat) : Option HostReg :=
  match offset with
  | 0x000 => some .id
  | 0x004 => some .cmd
  | 0x008 => some .status
  | 0x00C => some .cmdCount
  | 0x010 => some .arg0
  | 0x014 => some .arg1
  | 0x018 => some .arg2
  | 0x01C => some .arg3
  | 0x020 => some .arg4
  | 0x024 => some .arg5
  | 0x028 => some .res0
  | 0x02C => some .res1
  | 0x030 => some .brBase
  | 0x034 => some .brLen
  | 0x038 => some .brPos
  | 0x03C => some .bwBase
  | 0x040 => some .bwCap
  | 0x044 => some .bwPos
  | 0x048 => some .cfgMem
  | 0x04C => some .cfgInst
  | 0x050 => some .cfgCrc6
  | _ => none

/-- An aligned 32-bit access, the one form that reaches a register (20_memory.md R80). -/
def wordAccess (offset bytes : Nat) : Bool := bytes == 4 && offset % 4 == 0

/-- What an access reaches, or why it is refused (10_state.md R31, 20_memory.md R80; log 8). -/
def locate (s : State) (offset bytes : Nat) : Except Refusal Target :=
  if 0x20000 ≤ offset then .error .hostOffset
  else if 0x10000 + s.memSize ≤ offset then
    if bytes == 1 || wordAccess offset bytes then .ok .none else .error .hostWidth
  else if 0x10000 ≤ offset then
    if bytes == 1 then .ok (.mem (offset - 0x10000)) else .error .hostWidth
  else if wordAccess offset bytes then
    match hostReg? offset with
    | some r => .ok (.reg r)
    | none => .ok .none
  else .error .hostWidth

/-- What a register reads as (10_state.md R31, R33, R35); CMD is write-only and reads 0. -/
def readReg (s : State) (r : HostReg) : Word :=
  match r with
  | .id => Config.idValue
  | .cmd => 0#32
  | .status => s.status.word
  | .cmdCount => s.cmdCount
  | .arg0 => s.args.arg0
  | .arg1 => s.args.arg1
  | .arg2 => s.args.arg2
  | .arg3 => s.args.arg3
  | .arg4 => s.args.arg4
  | .arg5 => s.args.arg5
  | .res0 => s.res0
  | .res1 => s.res1
  | .brBase => s.reader.base
  | .brLen => s.reader.len
  | .brPos => s.reader.pos
  | .bwBase => s.writer.base
  | .bwCap => s.writer.len
  | .bwPos => s.writer.pos
  | .cfgMem => toWord s.memSize
  | .cfgInst => cfgInst s
  | .cfgCrc6 => cfgCrc6 s

/-- What a target reads as; a byte of MEM is widened with zeros. -/
def readTarget (s : State) (t : Target) : Word :=
  match t with
  | .reg r => readReg s r
  | .none => 0#32
  | .mem a => (s.memRead a).setWidth 32

/-- A command word written to CMD: the decoded command runs; a word that decodes to none completes with
ILLEGAL_COMMAND (30_encoding.md R91, R95; 60_exceptions.md R281). -/
def runCommand (w : Word) (s : State) : Result :=
  match decode w with
  | .ok i => exec i s
  | .error _ => raise (w.extractLsb' 24 8) .illegalCommand s

/-- A host write to a register; a write to a read-only register is ignored (10_state.md R31). -/
def writeReg (r : HostReg) (data : Word) (s : State) : Result :=
  match r with
  | .cmd => runCommand data s
  | .status => .next (s.clearSticky data)
  | .arg0 => .next (s.setArgs { s.args with arg0 := data })
  | .arg1 => .next (s.setArgs { s.args with arg1 := data })
  | .arg2 => .next (s.setArgs { s.args with arg2 := data })
  | .arg3 => .next (s.setArgs { s.args with arg3 := data })
  | .arg4 => .next (s.setArgs { s.args with arg4 := data })
  | .arg5 => .next (s.setArgs { s.args with arg5 := data })
  | .id => .next s
  | .cmdCount => .next s
  | .res0 => .next s
  | .res1 => .next s
  | .brBase => .next s
  | .brLen => .next s
  | .brPos => .next s
  | .bwBase => .next s
  | .bwCap => .next s
  | .bwPos => .next s
  | .cfgMem => .next s
  | .cfgInst => .next s
  | .cfgCrc6 => .next s

/-- A host write to a target; a MEM byte is the low byte of the data (log 15). -/
def writeTarget (t : Target) (data : Word) (s : State) : Result :=
  match t with
  | .reg r => writeReg r data s
  | .none => .next s
  | .mem a => .next (s.memWrite a (data.setWidth 8))

/-- The platform's reset between accesses (70_reset_and_hazards.md R310, R312): MEM is drawn anew
(R311), the parameters and the host's side stay (log 7). -/
def platformReset (s : State) : State := State.resetWith s.params (s.draw + 1) s.bus s.seen

/-- One access of the host or the platform (70_reset_and_hazards.md R336). -/
def access (a : Access) (s : State) : Result :=
  match a with
  | .read offset bytes =>
    match locate s offset bytes with
    | .error r => .refused r
    | .ok t => .next (s.record (readTarget s t))
  | .write offset bytes data =>
    match locate s offset bytes with
    | .error r => .refused r
    | .ok t => writeTarget t data s
  | .reset => .next (platformReset s)

end Sys2Proof.Machine
end

