-- ==== Sys2Proof/Machine/Step.lean ====
section
/-! DEFINITION. One step: the next access of the host, to completion (10_state.md R30, R32). -/

namespace Sys2Proof.Machine

/-- The next pending access is taken off the list and carried out. With none pending the block is idle
and holds its state (60_exceptions.md R295). -/
def step (s : State) : Host.Outcome State Fault Refusal :=
  match s.bus with
  | [] => .next s
  | a :: rest => access a (s.setBus rest)

/-- The host about to write a command word to CMD (10_state.md R32): the block fetches no command, each
is the data of one CMD write (20_memory.md R88; log 5). -/
def State.withFetchWord (s : State) (nbits w : Nat) : State :=
  s.setBus (.write 0x004 4 (BitVec.ofNat 32 (w % 2 ^ nbits)) :: s.bus)

end Sys2Proof.Machine
end

