-- ==== Sys2Proof/Safety.lean ====
section
/-! DEFINITION. The invariant of the block: what the rules say holds at all times. It holds at reset
and every step keeps it; in a state that meets it no step ends in a fault. -/

namespace Sys2Proof.Safety

open Sys2Proof Sys2Proof.Machine

/-- MEM lists only addresses 0 .. MEM_SIZE - 1, in canonical form (20_memory.md R70; log 4). -/
structure MemInv (s : State) : Prop where
  rising : Memory.wf s.mem
  inside : ∀ c ∈ s.mem, c.1 < s.memSize

/-- The region lies in MEM and the cursor in the region (10_state.md R40, R41). -/
structure StreamInv (memSize : Nat) (r : Stream) : Prop where
  region : r.base.toNat + r.len.toNat ≤ memSize
  cursor : r.pos.toNat ≤ 8 * r.len.toNat

/-- A window holds at most W entries, each of n and snw bits (10_state.md R50, R51). -/
structure WeInv (x : WeInst) : Prop where
  length : x.win.length ≤ x.w.toNat
  value  : ∀ e ∈ x.win, e.value.toNat < 2 ^ x.n.bits
  sn     : ∀ e ∈ x.win, e.sn.toNat < 2 ^ x.snw.bits

/-- A decoder's reference has n bits (10_state.md R52). -/
structure WdInv (x : WdInst) : Prop where
  ref : x.ref.toNat < 2 ^ x.n.bits

/-- What 43_ts_scaled.md derives of a TS encoder: 1 ≤ L (R231), the SN has snw bits (10_state.md R55),
the count stays at most L (R232), the stride is one SDVL can carry and is at least 1 outside INIT_TS
(R232), an encoder that has seen no TS is in INIT_TS (R230), INIT_STRIDE has sent the stride fewer than
L times and SEND_SCALED at least L times (R236, R241), and outside INIT_TS offset and scaled value split
the last TS (R236, R238). -/
structure TseInv (x : TseInst) : Prop where
  repetitions : 1 ≤ x.l.toNat
  sn          : x.oldSn.toNat < 2 ^ x.snw.bits
  count       : x.strideCount.toNat ≤ x.l.toNat
  capacity    : x.tsStride.toNat ≤ Config.sdvlMax
  stride      : x.state ≠ .initTs → 1 ≤ x.tsStride.toNat
  first       : x.haveOld = false → x.state = .initTs
  pending     : x.state = .initStride → x.strideCount.toNat < x.l.toNat
  sent        : x.state = .sendScaled → x.l.toNat ≤ x.strideCount.toNat
  offset      : x.state ≠ .initTs → x.tsOffset.toNat = x.oldTs.toNat % x.tsStride.toNat
  scaled      : x.state ≠ .initTs → x.tsScaled.toNat = x.oldTs.toNat / x.tsStride.toNat

/-- What 43_ts_scaled.md gives of a TS decoder: the stride is one SDVL can carry (R251), the SN has snw
bits (10_state.md R56), offset and scaled_ref are 0 until a stride and a reference are both known (R250,
R251, R254), and split the reference TS from then on (R251, R254). -/
structure TsdInv (x : TsdInst) : Prop where
  capacity : x.stride.toNat ≤ Config.sdvlMax
  sn       : x.snRef.toNat < 2 ^ x.snw.bits
  unknown  : x.stride = 0#32 ∨ x.refValid = false → x.offset = 0#32 ∧ x.scaledRef = 0#32
  offset   : x.stride ≠ 0#32 → x.refValid = true → x.offset.toNat = x.tsRef.toNat % x.stride.toNat
  scaled   : x.stride ≠ 0#32 → x.refValid = true → x.scaledRef.toNat = x.tsRef.toNat / x.stride.toNat

/-- The invariant of the block: the parameters in their ranges (00_scope.md R7), every unit as above,
and the reserved code WLSB_AMBIGUOUS never in STATUS (42_wlsb.md R215). -/
structure Inv (s : State) : Prop where
  params : s.params.wf
  mem    : MemInv s
  reader : StreamInv s.memSize s.reader
  writer : StreamInv s.memSize s.writer
  we     : ∀ x ∈ s.we, WeInv x
  wd     : ∀ x ∈ s.wd, WdInv x
  tse    : ∀ x ∈ s.tse, TseInv x
  tsd    : ∀ x ∈ s.tsd, TsdInv x
  code   : s.status.code ≠ .wlsbAmbiguous

/-- The value v is the n-bit field that starts at bit position `start` of MEM, counting 8 bits an
address from bit 7 down: position q is bit 7 - (q mod 8) of byte q div 8, and the most significant bit
comes first (20_memory.md R72; a stream over a region at b starts at 8 b). -/
structure FieldIs (s : State) (start n v : Nat) : Prop where
  width : v < 2 ^ n
  bits  : ∀ j, j < n →
    v.testBit (n - 1 - j) = (s.memRead ((start + j) / 8)).getLsbD (7 - (start + j) % 8)

/-- The memory m is that of s with the low n bits of v as the field at bit position `start`, every other
bit of every byte kept (20_memory.md R72; 40_bitio_sdvl.md R120, R131). -/
structure FieldWritten (s : State) (m : Memory) (start n v : Nat) : Prop where
  bits : ∀ a i, i < 8 → (Memory.read s.draw m a).getLsbD i =
    if start ≤ 8 * a + (7 - i) ∧ 8 * a + (7 - i) < start + n then
      v.testBit (start + n - 1 - (8 * a + (7 - i)))
    else (s.memRead a).getLsbD i
  outside : ∀ a, 8 * a + 8 ≤ start ∨ start + n ≤ 8 * a → Memory.read s.draw m a = s.memRead a

/-- The bit position of a stream's cursor (20_memory.md R72). -/
def cursorBit (r : Stream) : Nat := 8 * r.base.toNat + r.pos.toNat

/-- The shortest SDVL form of v: its length in bytes and its code word (40_bitio_sdvl.md R139, R140). -/
def SdvlForm (v len w : Nat) : Prop :=
  (v < 2 ^ 7 ∧ len = 1 ∧ w = v) ∨
  (2 ^ 7 ≤ v ∧ v < 2 ^ 14 ∧ len = 2 ∧ w = 0b10 * 2 ^ 14 + v) ∨
  (2 ^ 14 ≤ v ∧ v < 2 ^ 21 ∧ len = 3 ∧ w = 0b110 * 2 ^ 21 + v) ∨
  (2 ^ 21 ≤ v ∧ v < 2 ^ 29 ∧ len = 4 ∧ w = 0b111 * 2 ^ 29 + v)

/-- The length and number of value bits that a first byte announces (40_bitio_sdvl.md R139, R141). -/
def SdvlPrefix (b0 len valueBits : Nat) : Prop :=
  (b0 < 0b10000000 ∧ len = 1 ∧ valueBits = 7) ∨
  (0b10000000 ≤ b0 ∧ b0 < 0b11000000 ∧ len = 2 ∧ valueBits = 14) ∨
  (0b11000000 ≤ b0 ∧ b0 < 0b11100000 ∧ len = 3 ∧ valueBits = 21) ∨
  (0b11100000 ≤ b0 ∧ b0 < 256 ∧ len = 4 ∧ valueBits = 29)

/-- The parameter table of the CRC kinds: width, polynomial, default init (41_crc.md R161). -/
def CrcTable (s : State) (kind w : Nat) (poly init : Byte) : Prop :=
  (kind = 0 ∧ w = 2 ∧ poly = 0x3#8 ∧ init = 0x3#8) ∨
  (kind = 1 ∧ w = 3 ∧ poly = 0x6#8 ∧ init = 0x7#8) ∨
  (kind = 2 ∧ w = 6 ∧ poly.toNat = s.crc6Poly.toNat ∧ init.toNat = s.crc6Init.toNat) ∨
  (kind = 3 ∧ w = 7 ∧ poly = 0x79#8 ∧ init = 0x7F#8) ∨
  (kind = 4 ∧ w = 8 ∧ poly = 0xE0#8 ∧ init = 0xFF#8)

/-- The data bytes a CRC command feeds, in order: all len bytes at a, or with the mask those whose bit
in the bitmap at `ma` is 1, bit 7 of the first mask byte governing byte 0 (41_crc.md R163). -/
def crcFed (s : State) (m : Bool) (a len ma : Nat) : List Byte :=
  ((List.range len).filter (fun i => !m || (s.memRead (ma + i / 8)).getLsbD (7 - i % 8))).map
    (fun i => s.memRead (a + i))

/-- One data bit into the CRC register, the register shifted right: the bit-serial reading of
41_crc.md R162. -/
def crcBit (poly crc : Byte) (b : Bool) : Byte :=
  if (crc.getLsbD 0 != b) then (crc >>> 1) ^^^ poly else crc >>> 1

/-- v lies in the interpretation interval of the reference r with k bits and shift p, in ℤ/2ⁿℤ
(42_wlsb.md R190). -/
def InInterval (n : Nat) (r v p : Int) (k : Nat) : Prop :=
  (v - (r - p)) % ((2 ^ n : Nat) : Int) < ((2 ^ k : Nat) : Int)

/-- The magnitude of the signed 32-bit difference of two timestamps (43_ts_scaled.md R233). -/
def tsDistance (ts old : Word) : Nat := min (ts - old).toNat (old - ts).toNat

/-- A TS encoder after a packet handled in INIT_STRIDE with the given stride, of which `count` packets
have carried it before (43_ts_scaled.md R236). -/
def strideSent (x : TseInst) (ts : Word) (sn stride count : Nat) : TseInst :=
  { l := x.l, snw := x.snw
    state := if x.l.toNat ≤ count + 1 then .sendScaled else .initStride
    haveOld := true, oldTs := ts, oldSn := BitVec.ofNat 32 (sn % 2 ^ x.snw.bits)
    tsStride := BitVec.ofNat 32 stride, tsOffset := BitVec.ofNat 32 (ts.toNat % stride)
    tsScaled := BitVec.ofNat 32 (ts.toNat / stride), strideCount := BitVec.ofNat 8 (count + 1)
    deducible := false }

/-- What a command may write: the entries of the "writes" column of the opcode map (30_encoding.md R94).
br_* is a region and its cursor br_pos, WE[i] a configuration and WE[i].win, WD[i] a configuration and
WD[i].ref with its valid bit (42_wlsb.md R211). -/
inductive Resource where
  | res0 | res1 | brRegion | brPos | bwRegion | bwPos | mem
  | weConfig | weWin | wdConfig | wdRef | tse | tsd
  deriving DecidableEq, Repr

/-- The configuration of an encoder: all but its window (10_state.md R50). -/
def weConfigOf (x : WeInst) : Width × PMode × Word × WindowWidth × Width :=
  (x.n, x.pmode, x.pconst, x.w, x.snw)

/-- The configuration of a decoder: all but its reference (10_state.md R52). -/
def wdConfigOf (x : WdInst) : Width × PMode × Word := (x.n, x.pmode, x.pconst)

/-- The "writes" column of the opcode map (30_encoding.md R94). -/
def writesColumn : Instr → List Resource
  | .nop => []
  | .brInit => [.brRegion, .brPos]
  | .brRead _ => [.res0, .brPos]
  | .brPeek _ => [.res0]
  | .brAlign => [.brPos]
  | .bwInit => [.bwRegion, .bwPos]
  | .bwWrite _ => [.mem, .bwPos]
  | .bwAlign => [.mem, .bwPos]
  | .sdvlEnc => [.mem, .bwPos, .res0]
  | .sdvlDec => [.res0, .res1, .brPos]
  | .crc _ _ _ _ => [.res0]
  | .weCfg _ => [.weConfig, .weWin]
  | .weAdd _ => [.weWin]
  | .weK _ => [.res0, .res1]
  | .weInfo _ _ => [.res0, .res1]
  | .weEntry _ => [.res0, .res1]
  | .wdCfg _ => [.wdConfig, .wdRef]
  | .wdSetref _ => [.wdRef]
  | .wdDec _ _ => [.res0]
  | .wdRd _ _ => [.res0, .res1]
  | .tseCfg _ => [.tse]
  | .tseEnc _ => [.tse, .res0, .res1]
  | .tseRd _ _ => [.res0, .res1]
  | .tsdCfg _ => [.tsd]
  | .tsdStride _ => [.tsd]
  | .tsdScaled _ => [.res0]
  | .tsdDeduce _ => [.res0, .res1]
  | .tsdCommit _ => [.tsd]
  | .tsdRd _ _ => [.res0, .res1]

/-- The rows of opcode_table.json: the bits a word has (match) where the mask is 1. -/
def opcodeTable : List (Word × Word) :=
  [(0x00000000#32, 0xFFFFFFFF#32), (0x01000000#32, 0xFFFFFFFF#32), (0x02000000#32, 0xFFFFFFC0#32),
   (0x03000000#32, 0xFFFFFFC0#32), (0x04000000#32, 0xFFFFFFFF#32), (0x05000000#32, 0xFFFFFFFF#32),
   (0x06000000#32, 0xFFFFFFC0#32), (0x07000000#32, 0xFFFFFFFF#32), (0x08000000#32, 0xFFFFFFFF#32),
   (0x09000000#32, 0xFFFFFFFF#32), (0x10000000#32, 0xFFFFFF88#32)] ++
  [(0x20000000#32, 0xFF00FFFF#32), (0x21000000#32, 0xFF00FFFF#32), (0x22000000#32, 0xFF00FFFF#32),
   (0x23000000#32, 0xFF00FFFE#32), (0x24000000#32, 0xFF00FFFF#32), (0x28000000#32, 0xFF00FFFF#32),
   (0x29000000#32, 0xFF00FFFF#32), (0x2A000000#32, 0xFF00FFC0#32), (0x2B000000#32, 0xFF00FFFE#32)] ++
  [(0x30000000#32, 0xFF00FFFF#32), (0x31000000#32, 0xFF00FFFF#32), (0x32000000#32, 0xFF00FFF0#32),
   (0x38000000#32, 0xFF00FFFF#32), (0x39000000#32, 0xFF00FFFF#32), (0x3A000000#32, 0xFF00FFFF#32),
   (0x3B000000#32, 0xFF00FFFF#32), (0x3C000000#32, 0xFF00FFFF#32), (0x3D000000#32, 0xFF00FFF0#32)]

/-- A step that stops: in a fault or in a refusal. -/
def stops (r : Result) : Prop := ∀ t, r ≠ .next t

end Sys2Proof.Safety
end

