-- ==== Sys2Proof/Certificates/Slice0/Obligations.lean ====
section
/-! DEFINITION. The statements about the W-LSB codec block that are put to proof. Each is about every
state and every operand that meets its premises; none is about a program. In all of them `complete opc
code s` is s with the completion of 60_exceptions.md R281, which `CommandWordCompletesWithOneCode`
states. -/

open Sys2Proof Sys2Proof.Machine Sys2Proof.Safety

/-! ### Encoding and the step -/

/-- 30_encoding.md R90, R92, R94: no operand of a command is lost in its word. -/
def Obligations.DecodeOfEncodeIsTheCommand : Prop :=
  ∀ i : Instr, i.wf = true → decode (encode i) = .ok i

/-- 30_encoding.md R90, R92, R94: a word that decodes is the one word of its command. -/
def Obligations.EncodeOfDecodeIsTheWord : Prop :=
  ∀ (w : Word) (i : Instr), decode w = .ok i → i.wf = true ∧ encode i = w

/-- 30_encoding.md R91, R94 and opcode_table.json: a word decodes iff it has the fixed bits of a row of
the table, and then its command's OPC is that row's. -/
def Obligations.DecodesExactlyTheRowsOfTheTable : Prop :=
  ∀ w : Word,
    ((∃ i, decode w = .ok i) ↔ ∃ row ∈ opcodeTable, w &&& row.2 = row.1) ∧
    ∀ i, decode w = .ok i → ∃ row ∈ opcodeTable, w &&& row.2 = row.1 ∧ i.opc.toNat = row.1.toNat / 2 ^ 24

/-- 30_encoding.md R95: the three kinds of illegal word complete with ILLEGAL_COMMAND and change nothing
but STATUS and CMD_COUNT, and a legal OPC with a sub-field out of its range (R92) completes with
ILLEGAL_OPERAND. -/
def Obligations.IllegalEncodingsOnlySetTheErrorCode : Prop :=
  (∀ (w : Word) (s : State) (opc inst field : Nat),
    opc = w.toNat / 2 ^ 24 → inst = w.toNat / 2 ^ 16 % 2 ^ 8 → field = w.toNat % 2 ^ 16 →
    ((0x0A ≤ opc ∧ opc ≤ 0x0F) ∨ (0x11 ≤ opc ∧ opc ≤ 0x1F) ∨ (0x25 ≤ opc ∧ opc ≤ 0x27) ∨
      (0x2C ≤ opc ∧ opc ≤ 0x2F) ∨ (0x33 ≤ opc ∧ opc ≤ 0x37) ∨ 0x3E ≤ opc ∨
      (opc ∈ [0x02, 0x03, 0x06, 0x2A] ∧ 2 ^ 6 ≤ field) ∨
      (opc = 0x10 ∧ (field.testBit 3 = true ∨ 2 ^ 7 ≤ field)) ∨
      (opc ∈ [0x23, 0x2B] ∧ 2 ≤ field) ∨
      (opc ∈ [0x32, 0x3D] ∧ 2 ^ 4 ≤ field) ∨
      (opc ∉ [0x02, 0x03, 0x06, 0x2A, 0x10, 0x23, 0x2B, 0x32, 0x3D] ∧ field ≠ 0) ∨
      (opc ≤ 0x10 ∧ inst ≠ 0)) →
    runCommand w s = .next { s with
      status := { code := .illegalCommand, sticky := true, lastOpc := BitVec.ofNat 8 opc }
      cmdCount := s.cmdCount + 1#32 }) ∧
  (∀ (s : State) (n : Nat), 32 < n →
    exec (.brRead n) s = .next (complete 0x02#8 .illegalOperand s) ∧
    exec (.brPeek n) s = .next (complete 0x03#8 .illegalOperand s) ∧
    exec (.bwWrite n) s = .next (complete 0x06#8 .illegalOperand s)) ∧
  (∀ (s : State) (kind : Nat) (d m c : Bool), 4 < kind →
    exec (.crc kind d m c) s = .next (complete 0x10#8 .illegalOperand s)) ∧
  (∀ (s : State) (i k : Nat), (∀ x, s.wd[i]? = some x → x.n.bits < k) →
    exec (.wdDec i k) s = .next (complete 0x2A#8 .illegalOperand s)) ∧
  (∀ (s : State) (i sel : Nat), 9 < sel →
    exec (.tseRd i sel) s = .next (complete 0x32#8 .illegalOperand s)) ∧
  (∀ (s : State) (i sel : Nat), 6 < sel →
    exec (.tsdRd i sel) s = .next (complete 0x3D#8 .illegalOperand s))

/-- 30_encoding.md R91 (check 4): an instance command whose INST is at or past the unit's instance count
completes with ILLEGAL_OPERAND, whatever its other operands. -/
def Obligations.InstancePastTheCountIsAnIllegalOperand : Prop :=
  ∀ (s : State) (i k : Nat),
    (s.we.length ≤ i → ∀ c ∈ [Instr.weCfg i, .weAdd i, .weK i, .weInfo i k, .weEntry i],
      exec c s = .next (complete c.opc .illegalOperand s)) ∧
    (s.wd.length ≤ i → ∀ c ∈ [Instr.wdCfg i, .wdSetref i, .wdDec i k, .wdRd i k],
      exec c s = .next (complete c.opc .illegalOperand s)) ∧
    (s.tse.length ≤ i → ∀ c ∈ [Instr.tseCfg i, .tseEnc i, .tseRd i k],
      exec c s = .next (complete c.opc .illegalOperand s)) ∧
    (s.tsd.length ≤ i →
      ∀ c ∈ [Instr.tsdCfg i, .tsdStride i, .tsdScaled i, .tsdDeduce i, .tsdCommit i, .tsdRd i k],
      exec c s = .next (complete c.opc .illegalOperand s))

/-- 30_encoding.md R98: the spec's own example words, and one word of each family, decode to the command
they stand for. -/
def Obligations.WrittenOutWordsDecode : Prop :=
  decode 0x00000000#32 = .ok .nop ∧ decode 0x02000004#32 = .ok (.brRead 4) ∧
  decode 0x06000009#32 = .ok (.bwWrite 9) ∧ decode 0x09000000#32 = .ok .sdvlDec ∧
  decode 0x10000014#32 = .ok (.crc 4 true false false) ∧ decode 0x10000031#32 = .ok (.crc 1 true true false) ∧
  decode 0x21030000#32 = .ok (.weAdd 3) ∧ decode 0x2A010004#32 = .ok (.wdDec 1 4) ∧
  decode 0x32000003#32 = .ok (.tseRd 0 3) ∧ decode 0x3D020005#32 = .ok (.tsdRd 2 5)

/-- 10_state.md R32: when the host's next access writes a word to CMD, decoding or not, the step is the
running of that word at the state with that access taken off the list, and a word that decodes runs as
its command's meaning. withFetchWord makes just that access the next one (log 5). -/
def Obligations.StepRunsTheCommandWrittenToCmd : Prop :=
  ∀ (s : State) (w : Word) (rest : List Access),
    (s.bus = .write 0x004 4 w :: rest → step s = runCommand w { s with bus := rest }) ∧
    step (s.withFetchWord 32 w.toNat) = runCommand w s ∧
    ∀ i : Instr, decode w = .ok i →
      (s.bus = .write 0x004 4 w :: rest → step s = exec i { s with bus := rest }) ∧
      step (s.withFetchWord 32 w.toNat) = exec i s

/-! ### Completion and what a command may change -/

/-- 60_exceptions.md R281, 30_encoding.md R96: in a state that meets the invariant every word written to
CMD completes with exactly one code; the code and OPC go to STATUS, STICKY is set by any other code than
OK, and CMD_COUNT counts the command. The first clause says what `complete` is in every statement. -/
def Obligations.CommandWordCompletesWithOneCode : Prop :=
  (∀ (opc : Byte) (code : ErrCode) (s : State), complete opc code s = { s with
    status := { code := code, sticky := s.status.sticky || decide (code ≠ .ok), lastOpc := opc }
    cmdCount := s.cmdCount + 1#32 }) ∧
  ∀ (s : State) (w : Word), Inv s → ∃ t, runCommand w s = .next t ∧
    t.status.lastOpc.toNat = w.toNat / 2 ^ 24 ∧
    t.status.sticky = (s.status.sticky || decide (t.status.code ≠ .ok)) ∧
    t.cmdCount = s.cmdCount + 1#32

/-- 60_exceptions.md R283, 41_crc.md R165: a command word that completes with an error changes STATUS and
CMD_COUNT alone, but that CRC with CRC_MISMATCH has written RES0. -/
def Obligations.ErrorsChangeOnlyStatusAndCount : Prop :=
  ∀ (s t : State) (w : Word), runCommand w s = .next t → t.status.code ≠ .ok →
    t = { s with status := t.status, cmdCount := t.cmdCount } ∨
    (t.status.code = .crcMismatch ∧ (∃ kind d m, decode w = .ok (.crc kind d m true)) ∧
      t = { s with status := t.status, cmdCount := t.cmdCount, res0 := t.res0 })

/-- 30_encoding.md R94 ("writes" column), 10_state.md R32, R36: a command changes, beside STATUS and
CMD_COUNT, only what the opcode map says it writes, a stream's region apart from its cursor, a window
apart from its encoder's configuration, a reference apart from its decoder's configuration; never an ARG
register, a parameter or the host's side. -/
def Obligations.CommandsChangeOnlyWhatTheMapLists : Prop :=
  ∀ (i : Instr) (s t : State), exec i s = .next t →
    (t.args = s.args ∧ t.memSize = s.memSize ∧ t.crc6Poly = s.crc6Poly ∧ t.crc6Init = s.crc6Init ∧
      t.draw = s.draw ∧ t.bus = s.bus ∧ t.seen = s.seen) ∧
    (t.we.length = s.we.length ∧ t.wd.length = s.wd.length ∧ t.tse.length = s.tse.length ∧
      t.tsd.length = s.tsd.length) ∧
    (.res0 ∉ writesColumn i → t.res0 = s.res0) ∧ (.res1 ∉ writesColumn i → t.res1 = s.res1) ∧
    (.brRegion ∉ writesColumn i → t.reader.base = s.reader.base ∧ t.reader.len = s.reader.len) ∧
    (.brPos ∉ writesColumn i → t.reader.pos = s.reader.pos) ∧
    (.bwRegion ∉ writesColumn i → t.writer.base = s.writer.base ∧ t.writer.len = s.writer.len) ∧
    (.bwPos ∉ writesColumn i → t.writer.pos = s.writer.pos) ∧
    (.mem ∉ writesColumn i → ∀ a, t.memRead a = s.memRead a) ∧
    (.weConfig ∉ writesColumn i → t.we.map weConfigOf = s.we.map weConfigOf) ∧
    (.weWin ∉ writesColumn i → t.we.map (·.win) = s.we.map (·.win)) ∧
    (.wdConfig ∉ writesColumn i → t.wd.map wdConfigOf = s.wd.map wdConfigOf) ∧
    (.wdRef ∉ writesColumn i →
      t.wd.map (fun x => (x.ref, x.refValid)) = s.wd.map (fun x => (x.ref, x.refValid))) ∧
    (.tse ∉ writesColumn i → t.tse = s.tse) ∧ (.tsd ∉ writesColumn i → t.tsd = s.tsd)

/-- 30_encoding.md R90, R94: a command changes at most the instance its INST names. -/
def Obligations.CommandsChangeOnlyTheirInstance : Prop :=
  ∀ (i : Instr) (s t : State) (j : Nat), exec i s = .next t → j ≠ i.instField →
    t.we[j]? = s.we[j]? ∧ t.wd[j]? = s.wd[j]? ∧ t.tse[j]? = s.tse[j]? ∧ t.tsd[j]? = s.tsd[j]?

/-- 45_control.md R270: NOP only completes; CODE becomes OK and STICKY is kept. With INST or FIELD not 0
the word completes with ILLEGAL_COMMAND. -/
def Obligations.NopSetsCodeOkAndKeepsSticky : Prop :=
  encode .nop = 0x00000000#32 ∧
  (∀ s : State, exec .nop s = .next { s with
    status := { code := .ok, sticky := s.status.sticky, lastOpc := 0x00#8 }
    cmdCount := s.cmdCount + 1#32 }) ∧
  ∀ (s : State) (w : Word), w.toNat < 2 ^ 24 → w ≠ 0x00000000#32 → runCommand w s = .next { s with
    status := { code := .illegalCommand, sticky := true, lastOpc := 0x00#8 }
    cmdCount := s.cmdCount + 1#32 }

/-! ### BIO -/

/-- 40_bitio_sdvl.md R121, R130; 20_memory.md R71: a legal region becomes the stream with cursor 0, a
region past MEM_SIZE completes with BAD_ADDRESS. -/
def Obligations.InitCommandsSetTheRegionOrReportBadAddress : Prop :=
  (encode .brInit = 0x01000000#32 ∧ encode .bwInit = 0x05000000#32) ∧
  ∀ s : State,
    (s.args.arg0.toNat + s.args.arg1.toNat ≤ s.memSize →
      exec .brInit s = .next (complete 0x01#8 .ok { s with
        reader := { base := s.args.arg0, len := s.args.arg1, pos := 0#32 } }) ∧
      exec .bwInit s = .next (complete 0x05#8 .ok { s with
        writer := { base := s.args.arg0, len := s.args.arg1, pos := 0#32 } })) ∧
    (s.memSize < s.args.arg0.toNat + s.args.arg1.toNat →
      exec .brInit s = .next (complete 0x01#8 .badAddress s) ∧
      exec .bwInit s = .next (complete 0x05#8 .badAddress s))

/-- 40_bitio_sdvl.md R122: BR_READ. -/
def Obligations.BrReadReturnsTheFieldAndAdvances : Prop :=
  (∀ n, n < 64 → encode (.brRead n) = BitVec.ofNat 32 (0x02000000 + n)) ∧
  ∀ (s : State) (n : Nat), s.memSize ≤ 65536 → StreamInv s.memSize s.reader →
    (32 < n → exec (.brRead n) s = .next (complete 0x02#8 .illegalOperand s)) ∧
    (n ≤ 32 → 8 * s.reader.len.toNat < s.reader.pos.toNat + n →
      exec (.brRead n) s = .next (complete 0x02#8 .malformed s)) ∧
    (n ≤ 32 → s.reader.pos.toNat + n ≤ 8 * s.reader.len.toNat →
      ∃ v, FieldIs s (cursorBit s.reader) n v ∧
        exec (.brRead n) s = .next (complete 0x02#8 .ok { s with
          res0 := BitVec.ofNat 32 v
          reader := { s.reader with pos := s.reader.pos + BitVec.ofNat 32 n } }))

/-- 40_bitio_sdvl.md R124: BR_PEEK, which leaves the cursor. That a second peek returns the same is the
spec's own inference ("two peeks with no read between them return the same value [derived]"). -/
def Obligations.BrPeekReturnsTheFieldAndKeepsTheCursor : Prop :=
  (∀ n, n < 64 → encode (.brPeek n) = BitVec.ofNat 32 (0x03000000 + n)) ∧
  (∀ (s : State) (n : Nat), s.memSize ≤ 65536 → StreamInv s.memSize s.reader →
    (32 < n → exec (.brPeek n) s = .next (complete 0x03#8 .illegalOperand s)) ∧
    (n ≤ 32 → 8 * s.reader.len.toNat < s.reader.pos.toNat + n →
      exec (.brPeek n) s = .next (complete 0x03#8 .malformed s)) ∧
    (n ≤ 32 → s.reader.pos.toNat + n ≤ 8 * s.reader.len.toNat →
      ∃ v, FieldIs s (cursorBit s.reader) n v ∧
        exec (.brPeek n) s = .next (complete 0x03#8 .ok { s with res0 := BitVec.ofNat 32 v }))) ∧
  ∀ (s t u : State) (n : Nat), exec (.brPeek n) s = .next t → exec (.brPeek n) t = .next u →
    u.res0 = t.res0 ∧ u.status.code = t.status.code

/-- 40_bitio_sdvl.md R125: BR_ALIGN moves the cursor to the next multiple of 8, an aligned one nowhere.
"The result never exceeds 8·br_len" is the spec's own inference from 10_state.md R40. -/
def Obligations.BrAlignMovesToTheNextByte : Prop :=
  encode .brAlign = 0x04000000#32 ∧
  ∀ s : State, s.memSize ≤ 65536 → StreamInv s.memSize s.reader → ∃ p : Word,
    exec .brAlign s = .next (complete 0x04#8 .ok { s with reader := { s.reader with pos := p } }) ∧
    p.toNat % 8 = 0 ∧ s.reader.pos.toNat ≤ p.toNat ∧ p.toNat < s.reader.pos.toNat + 8 ∧
    p.toNat ≤ 8 * s.reader.len.toNat

/-- 40_bitio_sdvl.md R131: BW_WRITE writes exactly the field's bits, the most significant first. -/
def Obligations.BwWriteWritesExactlyTheField : Prop :=
  (∀ n, n < 64 → encode (.bwWrite n) = BitVec.ofNat 32 (0x06000000 + n)) ∧
  ∀ (s : State) (n : Nat), s.memSize ≤ 65536 → StreamInv s.memSize s.writer →
    (32 < n → exec (.bwWrite n) s = .next (complete 0x06#8 .illegalOperand s)) ∧
    (n ≤ 32 → 8 * s.writer.len.toNat < s.writer.pos.toNat + n →
      exec (.bwWrite n) s = .next (complete 0x06#8 .outputTooSmall s)) ∧
    (n ≤ 32 → s.writer.pos.toNat + n ≤ 8 * s.writer.len.toNat →
      ∃ m, FieldWritten s m (cursorBit s.writer) n (s.args.arg0.toNat % 2 ^ n) ∧
        exec (.bwWrite n) s = .next (complete 0x06#8 .ok { s with
          mem := m, writer := { s.writer with pos := s.writer.pos + BitVec.ofNat 32 n } }))

/-- 40_bitio_sdvl.md R133: BW_ALIGN writes zero bits up to the next multiple of 8. "The padded position
never exceeds 8·bw_cap" is the spec's own inference from 10_state.md R41. -/
def Obligations.BwAlignPadsWithZeroBits : Prop :=
  encode .bwAlign = 0x07000000#32 ∧
  ∀ s : State, s.memSize ≤ 65536 → StreamInv s.memSize s.writer → ∃ r m,
    r < 8 ∧ (s.writer.pos.toNat + r) % 8 = 0 ∧ s.writer.pos.toNat + r ≤ 8 * s.writer.len.toNat ∧
    FieldWritten s m (cursorBit s.writer) r 0 ∧
    exec .bwAlign s = .next (complete 0x07#8 .ok { s with
      mem := m, writer := { s.writer with pos := s.writer.pos + BitVec.ofNat 32 r } })

/-- 40_bitio_sdvl.md R140: SDVL_ENC writes the shortest form, or reports MALFORMED_SDVL before
OUTPUT_TOO_SMALL. -/
def Obligations.SdvlEncWritesTheShortestForm : Prop :=
  encode .sdvlEnc = 0x08000000#32 ∧
  ∀ s : State, s.memSize ≤ 65536 → StreamInv s.memSize s.writer →
    (2 ^ 29 - 1 < s.args.arg0.toNat → exec .sdvlEnc s = .next (complete 0x08#8 .malformedSdvl s)) ∧
    (s.args.arg0.toNat ≤ 2 ^ 29 - 1 → ∃ len w, SdvlForm s.args.arg0.toNat len w ∧
      (8 * s.writer.len.toNat < s.writer.pos.toNat + 8 * len →
        exec .sdvlEnc s = .next (complete 0x08#8 .outputTooSmall s)) ∧
      (s.writer.pos.toNat + 8 * len ≤ 8 * s.writer.len.toNat →
        ∃ m, FieldWritten s m (cursorBit s.writer) (8 * len) w ∧
          exec .sdvlEnc s = .next (complete 0x08#8 .ok { s with
            mem := m, res0 := BitVec.ofNat 32 len
            writer := { s.writer with pos := s.writer.pos + BitVec.ofNat 32 (8 * len) } })))

/-- 40_bitio_sdvl.md R141: SDVL_DEC takes the length from the first byte's prefix and accepts every form,
minimal or not; a code that the region cuts off is MALFORMED_SDVL. That a value is at most 2^29 - 1 is the
spec's own inference from R139 ("so decoding cannot overflow"). -/
def Obligations.SdvlDecReadsThePrefixedValue : Prop :=
  encode .sdvlDec = 0x09000000#32 ∧
  ∀ s : State, s.memSize ≤ 65536 → StreamInv s.memSize s.reader →
    (8 * s.reader.len.toNat < s.reader.pos.toNat + 8 →
      exec .sdvlDec s = .next (complete 0x09#8 .malformedSdvl s)) ∧
    (s.reader.pos.toNat + 8 ≤ 8 * s.reader.len.toNat →
      ∃ b0 len bits, FieldIs s (cursorBit s.reader) 8 b0 ∧ SdvlPrefix b0 len bits ∧
      (8 * s.reader.len.toNat < s.reader.pos.toNat + 8 * len →
        exec .sdvlDec s = .next (complete 0x09#8 .malformedSdvl s)) ∧
      (s.reader.pos.toNat + 8 * len ≤ 8 * s.reader.len.toNat →
        ∃ w, FieldIs s (cursorBit s.reader) (8 * len) w ∧ w % 2 ^ bits ≤ 2 ^ 29 - 1 ∧
          exec .sdvlDec s = .next (complete 0x09#8 .ok { s with
            res0 := BitVec.ofNat 32 (w % 2 ^ bits), res1 := BitVec.ofNat 32 len
            reader := { s.reader with pos := s.reader.pos + BitVec.ofNat 32 (8 * len) } })))

/-- What BW_WRITE N wrote at a position, BR_READ N reads back at that position: the spec's own inference
(40_bitio_sdvl.md R132, "derived: from rule R120, rule R122 and rule R131"). -/
def Obligations.BwWriteIsReadBackByBrRead : Prop :=
  ∀ (s t : State) (n : Nat), s.memSize ≤ 65536 → StreamInv s.memSize s.writer → n ≤ 32 →
    s.writer.pos.toNat + n ≤ 8 * s.writer.len.toNat →
    exec (.bwWrite n) s = .next t →
    ∃ u, exec (.brRead n) { t with reader := s.writer } = .next u ∧ u.status.code = .ok ∧
      u.res0.toNat = s.args.arg0.toNat % 2 ^ n

/-- SDVL_ENC of v then SDVL_DEC at the same position returns v, with RES1 the RES0 of the encode: the
spec's own inference (40_bitio_sdvl.md R142, "derived: from rule R140 and rule R141"). -/
def Obligations.SdvlRoundTripReturnsTheValue : Prop :=
  ∀ (s t : State), s.memSize ≤ 65536 → StreamInv s.memSize s.writer → s.args.arg0.toNat ≤ 2 ^ 29 - 1 →
    exec .sdvlEnc s = .next t → t.status.code = .ok →
    ∃ u, exec .sdvlDec { t with reader := s.writer } = .next u ∧ u.status.code = .ok ∧
      u.res0 = s.args.arg0 ∧ u.res1 = t.res0

/-! ### CRC -/

/-- 41_crc.md R164 with R161 and R163: the errors of CRC in their order, and otherwise RES0 is the CRC of
the fed bytes, with CRC_MISMATCH iff the C flag is set and it differs from ARG4. -/
def Obligations.CrcFoldsTheFedBytesOrReportsTheFirstError : Prop :=
  (∀ kind d m c, kind < 8 → encode (.crc kind d m c) =
    BitVec.ofNat 32 (0x10000000 + kind + 16 * d.toNat + 32 * m.toNat + 64 * c.toNat)) ∧
  ∀ (s : State) (kind : Nat) (d m c : Bool),
    (4 < kind → exec (.crc kind d m c) s = .next (complete 0x10#8 .illegalOperand s)) ∧
    ∀ (w : Nat) (poly init : Byte), CrcTable s kind w poly init →
      (s.memSize < s.args.arg0.toNat + s.args.arg1.toNat →
        exec (.crc kind d m c) s = .next (complete 0x10#8 .badAddress s)) ∧
      (s.args.arg0.toNat + s.args.arg1.toNat ≤ s.memSize →
        (m = true → s.memSize < s.args.arg3.toNat + (s.args.arg1.toNat + 7) / 8 →
          exec (.crc kind d m c) s = .next (complete 0x10#8 .badAddress s)) ∧
        ((m = true → s.args.arg3.toNat + (s.args.arg1.toNat + 7) / 8 ≤ s.memSize) →
          (d = false → 2 ^ w ≤ s.args.arg2.toNat →
            exec (.crc kind d m c) s = .next (complete 0x10#8 .illegalOperand s)) ∧
          ((d = false → s.args.arg2.toNat < 2 ^ w) →
            ∃ crc : Byte, crc = (crcFed s m s.args.arg0.toNat s.args.arg1.toNat s.args.arg3.toNat).foldl
                (crcByte poly) (if d then init else BitVec.ofNat 8 s.args.arg2.toNat) ∧
              exec (.crc kind d m c) s = .next (complete 0x10#8
                (if c = true ∧ crc.toNat ≠ s.args.arg4.toNat then .crcMismatch else .ok)
                { s with res0 := BitVec.ofNat 32 crc.toNat }))))

/-- 41_crc.md R162: a byte is folded in least significant bit first. Eight shifts of the register XORed
with the byte equal eight bit-serial shifts, and the register stays below 2^w where POLY is. -/
def Obligations.CrcByteFoldsTheLeastSignificantBitFirst : Prop :=
  ∀ poly crc b : Byte,
    crcByte poly crc b = (List.range 8).foldl (fun r j => crcBit poly r (b.getLsbD j)) crc ∧
    ∀ w, w ≤ 8 → poly.toNat < 2 ^ w → crc.toNat < 2 ^ w → (crcByte poly crc b).toNat < 2 ^ w

/-- 41_crc.md R162, R164: a CRC of kind w never leaves a value of more than w bits in RES0. -/
def Obligations.CrcResultHasTheWidthOfItsKind : Prop :=
  ∀ (s t : State) (kind w : Nat) (d m c : Bool) (poly init : Byte), CrcTable s kind w poly init →
    exec (.crc kind d m c) s = .next t → t.status.code = .ok ∨ t.status.code = .crcMismatch →
    t.res0.toNat < 2 ^ w

/-- The CRC of A ‖ B is the CRC of B from the CRC of A: the spec's own inference (41_crc.md R166,
"derived: from rule R162 and rule R164"). A lies at a, B at b, and x holds A then B. -/
def Obligations.CrcChainsOverConcatenation : Prop :=
  ∀ (s : State) (kind w : Nat) (poly init : Byte) (a la b lb x v : Word),
    CrcTable s kind w poly init → v.toNat < 2 ^ w →
    a.toNat + la.toNat ≤ s.memSize → b.toNat + lb.toNat ≤ s.memSize →
    x.toNat + (la.toNat + lb.toNat) ≤ s.memSize → la.toNat + lb.toNat < 2 ^ 32 →
    (∀ i, i < la.toNat → s.memRead (x.toNat + i) = s.memRead (a.toNat + i)) →
    (∀ i, i < lb.toNat → s.memRead (x.toNat + la.toNat + i) = s.memRead (b.toNat + i)) →
    ∃ t1 t2 t3,
      exec (.crc kind false false false)
        { s with args := { s.args with arg0 := a, arg1 := la, arg2 := v } } = .next t1 ∧
      exec (.crc kind false false false)
        { s with args := { s.args with arg0 := b, arg1 := lb, arg2 := t1.res0 } } = .next t2 ∧
      exec (.crc kind false false false)
        { s with args := { s.args with arg0 := x, arg1 := la + lb, arg2 := v } } = .next t3 ∧
      t1.status.code = .ok ∧ t2.status.code = .ok ∧ t3.status.code = .ok ∧ t3.res0 = t2.res0

/-! ### W-LSB -/

/-- 42_wlsb.md R191: the shift function of an instance; pmode 0 is the constant, 1 the RTP-TS rule. -/
def Obligations.ShiftFollowsTheConfiguredMode : Prop :=
  (PMode.constant.bit = false ∧ PMode.rtpTs.bit = true) ∧
  ∀ (pconst : Word) (k : Nat),
    shiftP .constant pconst k = pconst.toInt ∧
    (2 ≤ k → shiftP .rtpTs pconst k = 2 ^ (k - 2) - 1) ∧
    (k < 2 → shiftP .rtpTs pconst k = 0)

/-- The intervals are nested, and with k = n the interval is all of ℤ/2ⁿℤ: the spec's own inference
(42_wlsb.md R192, "derived: from rule R190 and rule R191"). -/
def Obligations.IntervalsAreNested : Prop :=
  ∀ (n : Width) (pmode : PMode) (pconst : Word) (r v : Int) (k : Nat),
    (k < n.bits → InInterval n.bits r v (shiftP pmode pconst k) k →
      InInterval n.bits r v (shiftP pmode pconst (k + 1)) (k + 1)) ∧
    InInterval n.bits r v (shiftP pmode pconst n.bits) n.bits

/-- 42_wlsb.md R196, R210: WE_CFG and WD_CFG accept exactly their value sets, empty the window and
invalidate the reference. -/
def Obligations.WlsbConfigurationAcceptsExactlyItsSets : Prop :=
  (∀ i, i < 256 → encode (.weCfg i) = BitVec.ofNat 32 (0x20000000 + 65536 * i) ∧
    encode (.wdCfg i) = BitVec.ofNat 32 (0x28000000 + 65536 * i)) ∧
  (∀ (s : State) (i : Nat), i < s.we.length →
    ((s.args.arg0.toNat ∈ [12, 16, 32] ∧ s.args.arg1.toNat ∈ [0, 1] ∧
        s.args.arg3.toNat ∈ [1, 2, 4, 8, 16, 32, 64, 128, 256] ∧ s.args.arg4.toNat ∈ [12, 16, 32]) →
      ∃ x : WeInst, exec (.weCfg i) s = .next (complete 0x20#8 .ok { s with we := s.we.set i x }) ∧
        x.n.bits = s.args.arg0.toNat ∧ x.pmode.bit.toNat = s.args.arg1.toNat ∧ x.pconst = s.args.arg2 ∧
        x.w.toNat = s.args.arg3.toNat ∧ x.snw.bits = s.args.arg4.toNat ∧ x.win = []) ∧
    (¬(s.args.arg0.toNat ∈ [12, 16, 32] ∧ s.args.arg1.toNat ∈ [0, 1] ∧
        s.args.arg3.toNat ∈ [1, 2, 4, 8, 16, 32, 64, 128, 256] ∧ s.args.arg4.toNat ∈ [12, 16, 32]) →
      exec (.weCfg i) s = .next (complete 0x20#8 .illegalOperand s))) ∧
  (∀ (s : State) (i : Nat), i < s.wd.length →
    ((s.args.arg0.toNat ∈ [12, 16, 32] ∧ s.args.arg1.toNat ∈ [0, 1]) →
      ∃ x : WdInst, exec (.wdCfg i) s = .next (complete 0x28#8 .ok { s with wd := s.wd.set i x }) ∧
        x.n.bits = s.args.arg0.toNat ∧ x.pmode.bit.toNat = s.args.arg1.toNat ∧ x.pconst = s.args.arg2 ∧
        x.ref = 0#32 ∧ x.refValid = false) ∧
    (¬(s.args.arg0.toNat ∈ [12, 16, 32] ∧ s.args.arg1.toNat ∈ [0, 1]) →
      exec (.wdCfg i) s = .next (complete 0x28#8 .illegalOperand s)))

/-- 42_wlsb.md R195: WE_ADD purges entries more than half the SN space behind, evicts the oldest of a
full window and appends the new entry; the window never holds more than W entries. -/
def Obligations.WeAddPurgesEvictsAndAppends : Prop :=
  (∀ i, i < 256 → encode (.weAdd i) = BitVec.ofNat 32 (0x21000000 + 65536 * i)) ∧
  ∀ (s : State) (i : Nat) (x : WeInst), s.we[i]? = some x →
    ∃ kept win,
      kept = x.win.filter (fun e =>
        decide (((s.args.arg1.toNat : Int) - e.sn.toNat) % ((2 ^ x.snw.bits : Nat) : Int)
          ≤ ((2 ^ (x.snw.bits - 1) : Nat) : Int))) ∧
      win = (if kept.length = x.w.toNat then kept.tail else kept) ++
        [{ value := BitVec.ofNat 32 (s.args.arg0.toNat % 2 ^ x.n.bits)
           sn := BitVec.ofNat 32 (s.args.arg1.toNat % 2 ^ x.snw.bits) }] ∧
      exec (.weAdd i) s = .next (complete 0x21#8 .ok { s with we := s.we.set i { x with win := win } }) ∧
      (x.win.length ≤ x.w.toNat → win.length ≤ x.w.toNat)

/-- 42_wlsb.md R193, R194: WE_K returns the least k whose interval covers v for every entry, n for an
empty window, and the low k bits of v. -/
def Obligations.WeKReturnsTheLeastCoveringCount : Prop :=
  (∀ i, i < 256 → encode (.weK i) = BitVec.ofNat 32 (0x22000000 + 65536 * i)) ∧
  ∀ (s : State) (i : Nat) (x : WeInst), s.we[i]? = some x → ∃ k v,
    v = s.args.arg0.toNat % 2 ^ x.n.bits ∧ k ≤ x.n.bits ∧
    exec (.weK i) s = .next (complete 0x22#8 .ok { s with
      res0 := BitVec.ofNat 32 k, res1 := BitVec.ofNat 32 (v % 2 ^ k) }) ∧
    (x.win = [] → k = x.n.bits) ∧
    (∀ e ∈ x.win, InInterval x.n.bits e.value.toNat v (shiftP x.pmode x.pconst k) k) ∧
    (x.win ≠ [] → ∀ j, j < k →
      ∃ e ∈ x.win, ¬ InInterval x.n.bits e.value.toNat v (shiftP x.pmode x.pconst j) j)

/-- 42_wlsb.md R198, R199: WE_INFO and WE_ENTRY read the encoder. -/
def Obligations.EncoderReadsReportItsFields : Prop :=
  (∀ i sel, i < 256 → sel < 2 → encode (.weInfo i sel) = BitVec.ofNat 32 (0x23000000 + 65536 * i + sel) ∧
    encode (.weEntry i) = BitVec.ofNat 32 (0x24000000 + 65536 * i)) ∧
  ∀ (s : State) (i : Nat) (x : WeInst), s.we[i]? = some x →
    exec (.weInfo i 0) s = .next (complete 0x23#8 .ok { s with
      res0 := BitVec.ofNat 32 x.win.length
      res1 := BitVec.ofNat 32 (2 ^ 24 * x.pmode.bit.toNat + 2 ^ 16 * x.snw.bits + 2 ^ 8 * x.n.bits
        + (x.w.toNat - 1)) }) ∧
    exec (.weInfo i 1) s = .next (complete 0x23#8 .ok { s with res0 := x.pconst, res1 := 0#32 }) ∧
    (∀ e, x.win[s.args.arg0.toNat]? = some e →
      exec (.weEntry i) s = .next (complete 0x24#8 .ok { s with res0 := e.value, res1 := e.sn })) ∧
    (x.win.length ≤ s.args.arg0.toNat →
      exec (.weEntry i) s = .next (complete 0x24#8 .illegalOperand s))

/-- 42_wlsb.md R211, R214: WD_SETREF sets the reference mod 2^n, which no WD_DEC changes, and WD_RD reads
the decoder. -/
def Obligations.DecoderReferenceIsSetAndRead : Prop :=
  (∀ i sel, i < 256 → sel < 2 → encode (.wdSetref i) = BitVec.ofNat 32 (0x29000000 + 65536 * i) ∧
    encode (.wdRd i sel) = BitVec.ofNat 32 (0x2B000000 + 65536 * i + sel)) ∧
  ∀ (s : State) (i : Nat) (x : WdInst), s.wd[i]? = some x →
    exec (.wdSetref i) s = .next (complete 0x29#8 .ok { s with wd := s.wd.set i { x with
      ref := BitVec.ofNat 32 (s.args.arg0.toNat % 2 ^ x.n.bits), refValid := true } }) ∧
    exec (.wdRd i 0) s = .next (complete 0x2B#8 .ok { s with
      res0 := x.ref
      res1 := BitVec.ofNat 32 (2 ^ 31 * x.refValid.toNat + 2 ^ 24 * x.pmode.bit.toNat + 2 ^ 8 * x.n.bits) }) ∧
    exec (.wdRd i 1) s = .next (complete 0x2B#8 .ok { s with res0 := x.pconst, res1 := 0#32 }) ∧
    ∀ (k : Nat) (t : State), exec (.wdDec i k) s = .next t → t.wd = s.wd

/-- 42_wlsb.md R212: WD_DEC returns the one value of the interval that agrees with m in its low K bits. -/
def Obligations.WdDecReturnsTheOneValueOfTheInterval : Prop :=
  (∀ i k, i < 256 → k < 64 → encode (.wdDec i k) = BitVec.ofNat 32 (0x2A000000 + 65536 * i + k)) ∧
  ∀ (s : State) (i k : Nat) (x : WdInst), s.wd[i]? = some x →
    (x.n.bits < k → exec (.wdDec i k) s = .next (complete 0x2A#8 .illegalOperand s)) ∧
    (k ≤ x.n.bits → x.refValid = false → exec (.wdDec i k) s = .next (complete 0x2A#8 .noReference s)) ∧
    (k ≤ x.n.bits → x.refValid = true → ∃ v,
      exec (.wdDec i k) s = .next (complete 0x2A#8 .ok { s with res0 := BitVec.ofNat 32 v }) ∧
      (v < 2 ^ x.n.bits ∧ v % 2 ^ k = s.args.arg0.toNat % 2 ^ k ∧
        InInterval x.n.bits x.ref.toNat v (shiftP x.pmode x.pconst k) k) ∧
      ∀ v', v' < 2 ^ x.n.bits → v' % 2 ^ k = s.args.arg0.toNat % 2 ^ k →
        InInterval x.n.bits x.ref.toNat v' (shiftP x.pmode x.pconst k) k → v' = v)

/-- A decoder whose interval holds v decodes the low k bits of v to v: the spec's own inference
(42_wlsb.md R213, "derived: from rule R190 and rule R212"). -/
def Obligations.DecodingInvertsEncoding : Prop :=
  ∀ (s : State) (i k v : Nat) (x : WdInst), s.wd[i]? = some x → k ≤ x.n.bits → x.refValid = true →
    v < 2 ^ x.n.bits → InInterval x.n.bits x.ref.toNat v (shiftP x.pmode x.pconst k) k →
    s.args.arg0.toNat = v % 2 ^ k →
    exec (.wdDec i k) s = .next (complete 0x2A#8 .ok { s with res0 := BitVec.ofNat 32 v })

/-- The LSB bound: with the k and bits of WE_K, a decoder of the same configuration whose reference is any
entry of the window decodes v: the spec's own inference (42_wlsb.md R197, "derived: from rule R193 and rule
R213"). -/
def Obligations.AnyWindowReferenceDecodesTheValue : Prop :=
  ∀ (s t : State) (i : Nat) (x : WeInst), s.we[i]? = some x → exec (.weK i) s = .next t →
    ∀ e ∈ x.win, ∀ (u : State) (j : Nat) (y : WdInst), u.wd[j]? = some y →
      y.n = x.n → y.pmode = x.pmode → y.pconst = x.pconst → y.ref = e.value → y.refValid = true →
      u.args.arg0 = t.res1 →
      exec (.wdDec j t.res0.toNat) u = .next (complete 0x2A#8 .ok { u with
        res0 := BitVec.ofNat 32 (s.args.arg0.toNat % 2 ^ x.n.bits) })

/-! ### Scaled TS -/

/-- 43_ts_scaled.md R231, R250: TSE_CFG and TSD_CFG accept exactly their value sets and reset the rest of
the instance. -/
def Obligations.TsConfigurationResetsTheInstance : Prop :=
  (∀ i, i < 256 → encode (.tseCfg i) = BitVec.ofNat 32 (0x30000000 + 65536 * i) ∧
    encode (.tsdCfg i) = BitVec.ofNat 32 (0x38000000 + 65536 * i)) ∧
  (∀ (s : State) (i : Nat), i < s.tse.length →
    ((1 ≤ s.args.arg0.toNat ∧ s.args.arg0.toNat ≤ 255 ∧ s.args.arg1.toNat ∈ [12, 16, 32]) →
      ∃ snw : Width, snw.bits = s.args.arg1.toNat ∧
        exec (.tseCfg i) s = .next (complete 0x30#8 .ok { s with
          tse := s.tse.set i
            { l := BitVec.ofNat 8 s.args.arg0.toNat, snw := snw, state := .initTs, haveOld := false
              oldTs := 0#32, oldSn := 0#32, tsStride := 0#32, tsOffset := 0#32, tsScaled := 0#32, strideCount := 0#8
              deducible := false } })) ∧
    (¬(1 ≤ s.args.arg0.toNat ∧ s.args.arg0.toNat ≤ 255 ∧ s.args.arg1.toNat ∈ [12, 16, 32]) →
      exec (.tseCfg i) s = .next (complete 0x30#8 .illegalOperand s))) ∧
  (∀ (s : State) (i : Nat), i < s.tsd.length →
    (s.args.arg0.toNat ∈ [12, 16, 32] → ∃ snw : Width, snw.bits = s.args.arg0.toNat ∧
      exec (.tsdCfg i) s = .next (complete 0x38#8 .ok { s with
        tsd := s.tsd.set i
          { snw := snw, stride := 0#32, offset := 0#32, scaledRef := 0#32, tsRef := 0#32, snRef := 0#32
            refValid := false } })) ∧
    (s.args.arg0.toNat ∉ [12, 16, 32] → exec (.tsdCfg i) s = .next (complete 0x38#8 .illegalOperand s)))

/-- CFG with the reset configuration restores an instance to reset: the spec's own inference
(70_reset_and_hazards.md R313, "derived: from rule R312, 42_wlsb.md rules R196, R210 ..."). -/
def Obligations.ConfigurationRestoresReset : Prop :=
  ∀ (s : State) (i : Nat),
    (i < s.we.length → s.args.arg0 = 16#32 → s.args.arg1 = 0#32 → s.args.arg2 = 0#32 → s.args.arg3 = 4#32 →
      s.args.arg4 = 16#32 →
      exec (.weCfg i) s = .next (complete 0x20#8 .ok { s with we := s.we.set i WeInst.reset })) ∧
    (i < s.wd.length → s.args.arg0 = 16#32 → s.args.arg1 = 0#32 → s.args.arg2 = 0#32 →
      exec (.wdCfg i) s = .next (complete 0x28#8 .ok { s with wd := s.wd.set i WdInst.reset })) ∧
    (i < s.tse.length → s.args.arg0 = 3#32 → s.args.arg1 = 16#32 →
      exec (.tseCfg i) s = .next (complete 0x30#8 .ok { s with tse := s.tse.set i TseInst.reset })) ∧
    (i < s.tsd.length → s.args.arg0 = 16#32 →
      exec (.tsdCfg i) s = .next (complete 0x38#8 .ok { s with tsd := s.tsd.set i TsdInst.reset }))

/-- 43_ts_scaled.md R234: with no prior TS, or a delta of 0 or past the SDVL capacity, from every state:
INIT_TS, the TS unscaled, stride, offset, scaled value and count kept. -/
def Obligations.TseEncGoesToInitTs : Prop :=
  ∀ (s : State) (i : Nat) (x : TseInst), s.tse[i]? = some x →
    (x.haveOld = false ∨ tsDistance s.args.arg0 x.oldTs = 0 ∨ 2 ^ 29 - 1 < tsDistance s.args.arg0 x.oldTs) →
    exec (.tseEnc i) s = .next (complete 0x31#8 .ok { s with
      tse := s.tse.set i { x with
        state := .initTs, haveOld := true, oldTs := s.args.arg0
        oldSn := BitVec.ofNat 32 (s.args.arg1.toNat % 2 ^ x.snw.bits), deducible := false }
      res0 := x.tsScaled
      res1 := BitVec.ofNat 32 (2 ^ 8 * x.strideCount.toNat + 4) })

/-- 43_ts_scaled.md R235, R236, R237: a packet handled in INIT_STRIDE. From INIT_TS, or with a delta that is
not the stride (in INIT_STRIDE) or no multiple of it (in SEND_SCALED), the stride is the delta and the
count starts again; on a wrap-around that changes the offset the stride is kept and the count starts
again. -/
def Obligations.TseEncSendsTheStride : Prop :=
  ∀ (s : State) (i : Nat) (x : TseInst) (delta stride count : Nat), s.tse[i]? = some x → TseInv x →
    x.haveOld = true → delta = tsDistance s.args.arg0 x.oldTs → 1 ≤ delta → delta ≤ 2 ^ 29 - 1 →
    ((x.state = .initTs ∧ stride = delta ∧ count = 0) ∨
      (x.state = .initStride ∧ delta ≠ x.tsStride.toNat ∧ stride = delta ∧ count = 0) ∨
      (x.state = .initStride ∧ delta = x.tsStride.toNat ∧ stride = delta ∧ count = x.strideCount.toNat) ∨
      (x.state = .sendScaled ∧ delta % x.tsStride.toNat ≠ 0 ∧ stride = delta ∧ count = 0) ∨
      (x.state = .sendScaled ∧ delta % x.tsStride.toNat = 0 ∧ s.args.arg0.toNat < x.oldTs.toNat ∧
        (s.args.arg0 - x.oldTs).toNat < 2 ^ 31 ∧
        s.args.arg0.toNat % x.tsStride.toNat ≠ x.tsOffset.toNat ∧
        stride = x.tsStride.toNat ∧ count = 0)) →
    exec (.tseEnc i) s = .next (complete 0x31#8 .ok { s with
      tse := s.tse.set i (strideSent x s.args.arg0 s.args.arg1.toNat stride count)
      res0 := BitVec.ofNat 32 (s.args.arg0.toNat / stride)
      res1 := BitVec.ofNat 32 (2 ^ 8 * (count + 1) + 12 + (if x.l.toNat ≤ count + 1 then 2 else 1)) })

/-- 43_ts_scaled.md R238 (with R237): in SEND_SCALED, a multiple of the stride without a wrap-around that
changes the offset keeps SEND_SCALED and the stride; DED iff the signed 32-bit scaled difference equals
the signed snw-bit SN difference, else ALL. -/
def Obligations.TseEncSendsScaled : Prop :=
  ∀ (s : State) (i : Nat) (x : TseInst) (ded : Bool), s.tse[i]? = some x → TseInv x →
    x.haveOld = true → x.state = .sendScaled →
    1 ≤ tsDistance s.args.arg0 x.oldTs → tsDistance s.args.arg0 x.oldTs ≤ 2 ^ 29 - 1 →
    tsDistance s.args.arg0 x.oldTs % x.tsStride.toNat = 0 →
    ¬(s.args.arg0.toNat < x.oldTs.toNat ∧ (s.args.arg0 - x.oldTs).toNat < 2 ^ 31 ∧
      s.args.arg0.toNat % x.tsStride.toNat ≠ x.tsOffset.toNat) →
    (ded = true ↔
      (BitVec.ofNat 32 (s.args.arg0.toNat / x.tsStride.toNat) - x.tsScaled).toInt =
      (BitVec.ofNat x.snw.bits s.args.arg1.toNat - BitVec.ofNat x.snw.bits x.oldSn.toNat).toInt) →
    exec (.tseEnc i) s = .next (complete 0x31#8 .ok { s with
      tse := s.tse.set i { x with
        haveOld := true, oldTs := s.args.arg0
        oldSn := BitVec.ofNat 32 (s.args.arg1.toNat % 2 ^ x.snw.bits)
        tsOffset := BitVec.ofNat 32 (s.args.arg0.toNat % x.tsStride.toNat)
        tsScaled := BitVec.ofNat 32 (s.args.arg0.toNat / x.tsStride.toNat), deducible := ded }
      res0 := BitVec.ofNat 32 (s.args.arg0.toNat / x.tsStride.toNat)
      res1 := BitVec.ofNat 32 (2 ^ 8 * x.strideCount.toNat + (if ded then 16 else 32) + 2) })

/-- 43_ts_scaled.md R232, R239: TSE_ENC accepts every (ts, sn); exactly one of UNS, DED and ALL is set in
RES1, STF only with UNS, and RES0 is the instance's TS_SCALED. "Exactly one of these holds for every
packet" is the spec's own inference from R232. -/
def Obligations.TseEncReportsExactlyOneForm : Prop :=
  (∀ i, i < 256 → encode (.tseEnc i) = BitVec.ofNat 32 (0x31000000 + 65536 * i)) ∧
  ∀ (s : State) (i : Nat) (x : TseInst), s.tse[i]? = some x → TseInv x →
    ∃ t y, exec (.tseEnc i) s = .next t ∧ t.status.code = .ok ∧ t.tse[i]? = some y ∧ t.res0 = y.tsScaled ∧
      t.res1.toNat < 2 ^ 16 ∧ t.res1.toNat / 2 ^ 8 = y.strideCount.toNat ∧
      t.res1.toNat % 4 = y.state.code.toNat ∧ t.res1.getLsbD 6 = false ∧ t.res1.getLsbD 7 = false ∧
      y.deducible = t.res1.getLsbD 4 ∧
      (t.res1.getLsbD 2).toNat + (t.res1.getLsbD 4).toNat + (t.res1.getLsbD 5).toNat = 1 ∧
      (t.res1.getLsbD 3 = true → t.res1.getLsbD 2 = true)

/-- Invariant 4 (43_ts_scaled.md R241, the spec's own inference, "derived: from rule R232 and rule R236"),
one packet at a time: a packet with STF either starts the count of
its stride at 1 or adds 1 to the count of the stride it keeps, a packet without STF changes neither count
nor stride, SEND_SCALED is held only with the count at L, and is entered only on a packet with STF. -/
def Obligations.SendScaledIsEnteredOnTheLthStride : Prop :=
  ∀ (s t : State) (i : Nat) (x y : TseInst), s.tse[i]? = some x → TseInv x →
    exec (.tseEnc i) s = .next t → t.tse[i]? = some y →
    y.l = x.l ∧
    (t.res1.getLsbD 3 = true → y.strideCount.toNat = 1 ∨
      y.strideCount.toNat = x.strideCount.toNat + 1 ∧ y.tsStride = x.tsStride) ∧
    (t.res1.getLsbD 3 = false → y.strideCount = x.strideCount ∧ y.tsStride = x.tsStride) ∧
    (y.state = .sendScaled → y.strideCount.toNat = y.l.toNat) ∧
    (y.state = .sendScaled → x.state ≠ .sendScaled → t.res1.getLsbD 3 = true)

/-- 43_ts_scaled.md R240, R256: TSE_RD and TSD_RD return the field their selector names; the states are
numbered INIT_TS 0, INIT_STRIDE 1, SEND_SCALED 2 (10_state.md R55). -/
def Obligations.TsReadsReportEveryField : Prop :=
  (∀ p ∈ [(TseState.initTs, 0), (TseState.initStride, 1), (TseState.sendScaled, 2)], p.1.code.toNat = p.2) ∧
  (∀ i sel, i < 256 → sel < 16 → encode (.tseRd i sel) = BitVec.ofNat 32 (0x32000000 + 65536 * i + sel) ∧
    encode (.tsdRd i sel) = BitVec.ofNat 32 (0x3D000000 + 65536 * i + sel)) ∧
  (∀ (s : State) (i : Nat) (x : TseInst), s.tse[i]? = some x →
    ∀ p ∈ [(0, x.state.code.toNat), (1, x.tsStride.toNat), (2, x.tsOffset.toNat), (3, x.tsScaled.toNat),
        (4, x.oldTs.toNat), (5, x.oldSn.toNat), (6, x.strideCount.toNat),
        (7, 2 * x.deducible.toNat + x.haveOld.toNat), (8, x.l.toNat), (9, x.snw.bits)],
      exec (.tseRd i p.1) s = .next (complete 0x32#8 .ok { s with res0 := BitVec.ofNat 32 p.2, res1 := 0#32 })) ∧
  (∀ (s : State) (i : Nat) (x : TsdInst), s.tsd[i]? = some x →
    ∀ p ∈ [(0, x.stride.toNat), (1, x.offset.toNat), (2, x.scaledRef.toNat), (3, x.tsRef.toNat),
        (4, x.snRef.toNat), (5, 2 * (if x.stride = 0#32 then 0 else 1) + x.refValid.toNat), (6, x.snw.bits)],
      exec (.tsdRd i p.1) s = .next (complete 0x3D#8 .ok { s with res0 := BitVec.ofNat 32 p.2, res1 := 0#32 })) ∧
  ∀ (s : State) (i sel : Nat),
    (9 < sel → exec (.tseRd i sel) s = .next (complete 0x32#8 .illegalOperand s)) ∧
    (6 < sel → exec (.tsdRd i sel) s = .next (complete 0x3D#8 .illegalOperand s))

/-- 43_ts_scaled.md R251: TSD_STRIDE records a stride of 1 .. 2^29 - 1 and splits a committed reference. -/
def Obligations.TsdStrideSplitsTheReference : Prop :=
  (∀ i, i < 256 → encode (.tsdStride i) = BitVec.ofNat 32 (0x39000000 + 65536 * i)) ∧
  ∀ (s : State) (i : Nat) (x : TsdInst), s.tsd[i]? = some x →
    (s.args.arg0.toNat = 0 ∨ 2 ^ 29 - 1 < s.args.arg0.toNat →
      exec (.tsdStride i) s = .next (complete 0x39#8 .illegalOperand s)) ∧
    (1 ≤ s.args.arg0.toNat → s.args.arg0.toNat ≤ 2 ^ 29 - 1 →
      (x.refValid = false → exec (.tsdStride i) s = .next (complete 0x39#8 .ok { s with
        tsd := s.tsd.set i { x with stride := s.args.arg0 } })) ∧
      (x.refValid = true → exec (.tsdStride i) s = .next (complete 0x39#8 .ok { s with
        tsd := s.tsd.set i { x with
          stride := s.args.arg0
          offset := BitVec.ofNat 32 (x.tsRef.toNat % s.args.arg0.toNat)
          scaledRef := BitVec.ofNat 32 (x.tsRef.toNat / s.args.arg0.toNat) } })))

/-- 43_ts_scaled.md R252, R253: TSD_SCALED and TSD_DEDUCE rebuild the TS as offset + scaled × stride mod
2^32, or report NO_REFERENCE; neither changes the instance. -/
def Obligations.TsdRebuildsTheTimestamp : Prop :=
  (∀ i, i < 256 → encode (.tsdScaled i) = BitVec.ofNat 32 (0x3A000000 + 65536 * i) ∧
    encode (.tsdDeduce i) = BitVec.ofNat 32 (0x3B000000 + 65536 * i)) ∧
  ∀ (s : State) (i : Nat) (x : TsdInst), s.tsd[i]? = some x →
    (x.stride = 0#32 → exec (.tsdScaled i) s = .next (complete 0x3A#8 .noReference s)) ∧
    (x.stride ≠ 0#32 → exec (.tsdScaled i) s = .next (complete 0x3A#8 .ok { s with
      res0 := s.args.arg0 * x.stride + x.offset })) ∧
    (x.stride = 0#32 ∨ x.refValid = false → exec (.tsdDeduce i) s = .next (complete 0x3B#8 .noReference s)) ∧
    (x.stride ≠ 0#32 → x.refValid = true → ∃ scaled : Word,
      scaled = x.scaledRef + BitVec.ofInt 32
        (BitVec.ofNat x.snw.bits s.args.arg0.toNat - BitVec.ofNat x.snw.bits x.snRef.toNat).toInt ∧
      exec (.tsdDeduce i) s = .next (complete 0x3B#8 .ok { s with
        res0 := scaled * x.stride + x.offset, res1 := scaled }))

/-- 43_ts_scaled.md R254: TSD_COMMIT makes (ts, sn) the reference and splits it if a stride is known. -/
def Obligations.TsdCommitSetsTheReference : Prop :=
  (∀ i, i < 256 → encode (.tsdCommit i) = BitVec.ofNat 32 (0x3C000000 + 65536 * i)) ∧
  ∀ (s : State) (i : Nat) (x : TsdInst), s.tsd[i]? = some x →
    (x.stride = 0#32 → exec (.tsdCommit i) s = .next (complete 0x3C#8 .ok { s with
      tsd := s.tsd.set i { x with
        tsRef := s.args.arg0, snRef := BitVec.ofNat 32 (s.args.arg1.toNat % 2 ^ x.snw.bits)
        refValid := true } })) ∧
    (x.stride ≠ 0#32 → exec (.tsdCommit i) s = .next (complete 0x3C#8 .ok { s with
      tsd := s.tsd.set i { x with
        tsRef := s.args.arg0, snRef := BitVec.ofNat 32 (s.args.arg1.toNat % 2 ^ x.snw.bits)
        refValid := true
        offset := BitVec.ofNat 32 (s.args.arg0.toNat % x.stride.toNat)
        scaledRef := BitVec.ofNat 32 (s.args.arg0.toNat / x.stride.toNat) } }))

/-- When an encoder in SEND_SCALED reports DED for (ts, sn), a decoder with the same stride, the encoder's
previous (ts, sn) as its reference and the same offset deduces ts from sn: the spec's own inference
(43_ts_scaled.md R255, "derived: from rule R238 and rule R253"). That "the same offset" is the offset of
the new ts, ts mod stride, is the model's reading (log 18): it leaves out a packet that moves backward
across 0 and so changes the offset while the encoder stays in SEND_SCALED. That both instances have the
same SN width, y.snw = x.snw, R255 does not say: the premise is the model's own (DEDUCED, log 19). -/
def Obligations.DeduceReturnsTheEncodersTimestamp : Prop :=
  ∀ (s t u : State) (i j : Nat) (x : TseInst) (y : TsdInst), s.tse[i]? = some x → TseInv x →
    x.state = .sendScaled → exec (.tseEnc i) s = .next t → t.res1.getLsbD 4 = true →
    u.tsd[j]? = some y → TsdInv y → y.stride = x.tsStride → y.refValid = true → y.tsRef = x.oldTs →
    y.snRef = x.oldSn → y.snw = x.snw → y.offset.toNat = s.args.arg0.toNat % x.tsStride.toNat →
    u.args.arg0 = s.args.arg1 →
    exec (.tsdDeduce j) u = .next (complete 0x3B#8 .ok { u with res0 := s.args.arg0, res1 := t.res0 })

/-! ### The host port -/

/-- 10_state.md R31, R33, R35, with the numbers of the codes in 60_exceptions.md R280: what an aligned 32-bit read of each offset below the window returns, 0 for
every reserved offset; the read is recorded in `seen` (log 6) and changes nothing else but the access list (log 5). -/
def Obligations.RegisterReadsFollowTheMap : Prop :=
  (∀ p ∈ [(ErrCode.ok, 0x00), (ErrCode.illegalCommand, 0x01), (ErrCode.illegalOperand, 0x02),
      (ErrCode.badAddress, 0x03), (ErrCode.malformed, 0x04), (ErrCode.malformedSdvl, 0x05),
      (ErrCode.outputTooSmall, 0x06), (ErrCode.wlsbAmbiguous, 0x07), (ErrCode.noReference, 0x08),
      (ErrCode.crcMismatch, 0x09)], p.1.value.toNat = p.2) ∧
  ∀ (s : State) (rest : List Access), s.params.wf →
    (∀ p ∈ [(0x000, 0x574C5342#32), (0x004, 0#32),
        (0x008, BitVec.ofNat 32 (s.status.code.value.toNat + 2 ^ 8 * s.status.sticky.toNat
          + 2 ^ 16 * s.status.lastOpc.toNat)),
        (0x00C, s.cmdCount), (0x010, s.args.arg0), (0x014, s.args.arg1), (0x018, s.args.arg2),
        (0x01C, s.args.arg3), (0x020, s.args.arg4), (0x024, s.args.arg5), (0x028, s.res0), (0x02C, s.res1),
        (0x030, s.reader.base), (0x034, s.reader.len), (0x038, s.reader.pos), (0x03C, s.writer.base),
        (0x040, s.writer.len), (0x044, s.writer.pos), (0x048, BitVec.ofNat 32 s.memSize),
        (0x04C, BitVec.ofNat 32 (2 ^ 24 * (s.tsd.length - 1) + 2 ^ 16 * (s.tse.length - 1)
          + 2 ^ 8 * (s.wd.length - 1) + (s.we.length - 1))),
        (0x050, BitVec.ofNat 32 (2 ^ 8 * s.crc6Init.toNat + s.crc6Poly.toNat))],
      step { s with bus := .read p.1 4 :: rest } = .next { s with bus := rest, seen := p.2 :: s.seen }) ∧
    ∀ offset, 0x054 ≤ offset → offset ≤ 0xFFFC → offset % 4 = 0 →
      step { s with bus := .read offset 4 :: rest } = .next { s with bus := rest, seen := 0#32 :: s.seen }

/-- 20_memory.md R81: no host read changes the block: only the access is taken off the list (log 5) and
the value recorded (log 6). -/
def Obligations.HostReadsHaveNoSideEffect : Prop :=
  ∀ (s t : State) (offset bytes : Nat) (rest : List Access), s.bus = .read offset bytes :: rest →
    step s = .next t → ∃ v, t = { s with bus := rest, seen := v :: s.seen }

/-- 10_state.md R31, R33, R36; 20_memory.md R81: what an aligned 32-bit write of each offset but CMD does.
An ARG register takes the data, STATUS bit 8 clears STICKY and nothing else, and every read-only or
reserved offset ignores the write. An access is one step (log 5). -/
def Obligations.RegisterWritesFollowTheMap : Prop :=
  ∀ (s : State) (d : Word) (rest : List Access),
    step { s with bus := .write 0x008 4 d :: rest } = .next { s with
      bus := rest, status := { s.status with sticky := s.status.sticky && !d.getLsbD 8 } } ∧
    step { s with bus := .write 0x010 4 d :: rest } = .next { s with
      bus := rest, args := { s.args with arg0 := d } } ∧
    step { s with bus := .write 0x014 4 d :: rest } = .next { s with
      bus := rest, args := { s.args with arg1 := d } } ∧
    step { s with bus := .write 0x018 4 d :: rest } = .next { s with
      bus := rest, args := { s.args with arg2 := d } } ∧
    step { s with bus := .write 0x01C 4 d :: rest } = .next { s with
      bus := rest, args := { s.args with arg3 := d } } ∧
    step { s with bus := .write 0x020 4 d :: rest } = .next { s with
      bus := rest, args := { s.args with arg4 := d } } ∧
    step { s with bus := .write 0x024 4 d :: rest } = .next { s with
      bus := rest, args := { s.args with arg5 := d } } ∧
    ∀ offset, offset % 4 = 0 → offset < 0x10000 →
      offset ∉ [0x004, 0x008, 0x010, 0x014, 0x018, 0x01C, 0x020, 0x024] →
      step { s with bus := .write offset 4 d :: rest } = .next { s with bus := rest }

/-- 20_memory.md R70, R80, R82: the window. A byte write stores the byte at its address and no other, a
byte read returns it, and past MEM_SIZE reads give 0 and writes are ignored. An access is one step (log
5), a read is recorded (log 6), a byte write carries its byte in the low 8 bits (log 15). -/
def Obligations.WindowReachesMemByteByByte : Prop :=
  ∀ (s : State) (a : Nat) (d : Word) (rest : List Access), s.memSize ≤ 65536 →
    (a < s.memSize →
      step { s with bus := .read (0x10000 + a) 1 :: rest } = .next { s with
        bus := rest, seen := BitVec.ofNat 32 (s.memRead a).toNat :: s.seen } ∧
      ∃ m, step { s with bus := .write (0x10000 + a) 1 d :: rest } = .next { s with bus := rest, mem := m } ∧
        Memory.read s.draw m a = BitVec.ofNat 8 d.toNat ∧
        ∀ b, b ≠ a → Memory.read s.draw m b = s.memRead b) ∧
    (s.memSize ≤ a → a < 0x10000 →
      step { s with bus := .read (0x10000 + a) 1 :: rest } = .next { s with
        bus := rest, seen := 0#32 :: s.seen } ∧
      step { s with bus := .write (0x10000 + a) 1 d :: rest } = .next { s with bus := rest })

/-- 20_memory.md R80, 10_state.md R31, 93_implementation_defined.md: a host access to a register or to MEM
of another width or alignment is refused, and so is one at or above 0x20000. An access is one step (log
5); the refusal of a wide access to MEM is the model's reading (log 8). -/
def Obligations.AccessesOutsideTheSpecAreRefused : Prop :=
  ∀ (s : State) (offset bytes : Nat) (d : Word) (rest : List Access) (r : Refusal), s.memSize ≤ 65536 →
    ((0x20000 ≤ offset ∧ r = .hostOffset) ∨
      (offset < 0x10000 ∧ (bytes ≠ 4 ∨ offset % 4 ≠ 0) ∧ r = .hostWidth) ∨
      (0x10000 ≤ offset ∧ offset < 0x10000 + s.memSize ∧ bytes ≠ 1 ∧ r = .hostWidth)) →
    step { s with bus := .read offset bytes :: rest } = .refused r ∧
    step { s with bus := .write offset bytes d :: rest } = .refused r

/-- 60_exceptions.md R295: with no access pending the block holds its state (the step without an access is
the model's own, log 5). -/
def Obligations.IdleBlockHoldsItsState : Prop :=
  ∀ s : State, s.bus = [] → step s = .next s

/-! ### Reset and the invariant -/

/-- 70_reset_and_hazards.md R312: the reset value of every state element, for every block whose parameters
are in their ranges; a platform reset gives the same state with MEM drawn anew (R311) and the parameters
and the host's side kept (log 7). -/
def Obligations.ResetValuesAreThoseOfTheTable : Prop :=
  (∀ (p : Params) (draw : Nat) (bus : List Access) (seen : List Word) (s : State),
    s = State.resetWith p draw bus seen →
    (s.status.word = 0#32 ∧ s.cmdCount = 0#32) ∧
    (s.args.arg0 = 0#32 ∧ s.args.arg1 = 0#32 ∧ s.args.arg2 = 0#32 ∧ s.args.arg3 = 0#32 ∧ s.args.arg4 = 0#32 ∧
      s.args.arg5 = 0#32 ∧ s.res0 = 0#32 ∧ s.res1 = 0#32) ∧
    (s.reader.base = 0#32 ∧ s.reader.len = 0#32 ∧ s.reader.pos = 0#32) ∧
    (s.writer.base = 0#32 ∧ s.writer.len = 0#32 ∧ s.writer.pos = 0#32) ∧
    (s.we.length = p.numWe ∧ ∀ x ∈ s.we, x.n.bits = 16 ∧ x.pmode = .constant ∧ x.pconst = 0#32 ∧
      x.w.toNat = 4 ∧ x.snw.bits = 16 ∧ x.win = []) ∧
    (s.wd.length = p.numWd ∧ ∀ x ∈ s.wd, x.n.bits = 16 ∧ x.pmode = .constant ∧ x.pconst = 0#32 ∧
      x.ref = 0#32 ∧ x.refValid = false) ∧
    (s.tse.length = p.numTse ∧ ∀ x ∈ s.tse, x.l = 3#8 ∧ x.snw.bits = 16 ∧ x.state = .initTs ∧
      x.haveOld = false ∧ x.oldTs = 0#32 ∧ x.oldSn = 0#32 ∧ x.tsStride = 0#32 ∧ x.tsOffset = 0#32 ∧ x.tsScaled = 0#32 ∧
      x.strideCount = 0#8 ∧ x.deducible = false) ∧
    (s.tsd.length = p.numTsd ∧ ∀ x ∈ s.tsd, x.snw.bits = 16 ∧ x.stride = 0#32 ∧ x.offset = 0#32 ∧
      x.scaledRef = 0#32 ∧ x.tsRef = 0#32 ∧ x.snRef = 0#32 ∧ x.refValid = false) ∧
    s.params = p ∧ (∀ a, s.memRead a = Config.powerOnByte draw a) ∧
    (s.draw = draw ∧ s.bus = bus ∧ s.seen = seen)) ∧
  ∀ (s : State) (rest : List Access), s.bus = .reset :: rest →
    step s = .next (State.resetWith s.params (s.draw + 1) rest s.seen)

/-- The invariant holds at reset, whatever the parameters in their ranges (00_scope.md R7). -/
def Obligations.ResetMeetsTheInvariant : Prop :=
  (∀ (p : Params) (draw : Nat) (bus : List Access) (seen : List Word), p.wf →
    Inv (State.resetWith p draw bus seen)) ∧
  Inv State.reset

/-- Every step keeps the invariant: regions and cursors (10_state.md R40, R41), windows (R50, R51),
references, the TS encoder's counts and strides (43_ts_scaled.md R232, R241), the canonical form of MEM,
and the reserved code never in STATUS (42_wlsb.md R215). -/
def Obligations.StepKeepsTheInvariant : Prop :=
  ∀ s t : State, Inv s → step s = .next t → Inv t

/-- 45_control.md R274, 70_reset_and_hazards.md R336: in a state that meets the invariant a step stops
only on a host access that the spec refuses (the window's widths as log 8 reads them); no command and no legal
access stops the block. -/
def Obligations.OnlyRefusedAccessesStopTheBlock : Prop :=
  ∀ s : State, Inv s → stops (step s) →
    ∃ offset bytes rest, ((∃ d, s.bus = .write offset bytes d :: rest) ∨ s.bus = .read offset bytes :: rest) ∧
      (0x20000 ≤ offset ∨ (bytes ≠ 4 ∨ offset % 4 ≠ 0) ∧ bytes ≠ 1 ∨
        (bytes = 1 ∧ offset < 0x10000) ∨
        (bytes = 4 ∧ 0x10000 ≤ offset ∧ offset < 0x10000 + s.memSize))
end

