-- ==== Sys2Proof/Laws/State.lean ====
section
/-! SUPPORT. What each update of State does to each field, so that no proof unfolds a record update. -/

namespace Sys2Proof.Machine

/-! ### setMem -/

@[simp] theorem State.setMem_memSize (s : State) (m : Memory) : (s.setMem m).memSize = s.memSize := rfl
@[simp] theorem State.setMem_crc6Poly (s : State) (m : Memory) : (s.setMem m).crc6Poly = s.crc6Poly := rfl
@[simp] theorem State.setMem_crc6Init (s : State) (m : Memory) : (s.setMem m).crc6Init = s.crc6Init := rfl
@[simp] theorem State.setMem_status (s : State) (m : Memory) : (s.setMem m).status = s.status := rfl
@[simp] theorem State.setMem_cmdCount (s : State) (m : Memory) : (s.setMem m).cmdCount = s.cmdCount := rfl
@[simp] theorem State.setMem_args (s : State) (m : Memory) : (s.setMem m).args = s.args := rfl
@[simp] theorem State.setMem_res0 (s : State) (m : Memory) : (s.setMem m).res0 = s.res0 := rfl
@[simp] theorem State.setMem_res1 (s : State) (m : Memory) : (s.setMem m).res1 = s.res1 := rfl
@[simp] theorem State.setMem_reader (s : State) (m : Memory) : (s.setMem m).reader = s.reader := rfl
@[simp] theorem State.setMem_writer (s : State) (m : Memory) : (s.setMem m).writer = s.writer := rfl
@[simp] theorem State.setMem_we (s : State) (m : Memory) : (s.setMem m).we = s.we := rfl
@[simp] theorem State.setMem_wd (s : State) (m : Memory) : (s.setMem m).wd = s.wd := rfl
@[simp] theorem State.setMem_tse (s : State) (m : Memory) : (s.setMem m).tse = s.tse := rfl
@[simp] theorem State.setMem_tsd (s : State) (m : Memory) : (s.setMem m).tsd = s.tsd := rfl
@[simp] theorem State.setMem_mem (s : State) (m : Memory) : (s.setMem m).mem = m := rfl
@[simp] theorem State.setMem_draw (s : State) (m : Memory) : (s.setMem m).draw = s.draw := rfl
@[simp] theorem State.setMem_bus (s : State) (m : Memory) : (s.setMem m).bus = s.bus := rfl
@[simp] theorem State.setMem_seen (s : State) (m : Memory) : (s.setMem m).seen = s.seen := rfl

/-! ### memWrite -/

@[simp] theorem State.memWrite_memSize (s : State) (a : Nat) (v : Byte) : (s.memWrite a v).memSize = s.memSize := rfl
@[simp] theorem State.memWrite_crc6Poly (s : State) (a : Nat) (v : Byte) : (s.memWrite a v).crc6Poly = s.crc6Poly := rfl
@[simp] theorem State.memWrite_crc6Init (s : State) (a : Nat) (v : Byte) : (s.memWrite a v).crc6Init = s.crc6Init := rfl
@[simp] theorem State.memWrite_status (s : State) (a : Nat) (v : Byte) : (s.memWrite a v).status = s.status := rfl
@[simp] theorem State.memWrite_cmdCount (s : State) (a : Nat) (v : Byte) : (s.memWrite a v).cmdCount = s.cmdCount := rfl
@[simp] theorem State.memWrite_args (s : State) (a : Nat) (v : Byte) : (s.memWrite a v).args = s.args := rfl
@[simp] theorem State.memWrite_res0 (s : State) (a : Nat) (v : Byte) : (s.memWrite a v).res0 = s.res0 := rfl
@[simp] theorem State.memWrite_res1 (s : State) (a : Nat) (v : Byte) : (s.memWrite a v).res1 = s.res1 := rfl
@[simp] theorem State.memWrite_reader (s : State) (a : Nat) (v : Byte) : (s.memWrite a v).reader = s.reader := rfl
@[simp] theorem State.memWrite_writer (s : State) (a : Nat) (v : Byte) : (s.memWrite a v).writer = s.writer := rfl
@[simp] theorem State.memWrite_we (s : State) (a : Nat) (v : Byte) : (s.memWrite a v).we = s.we := rfl
@[simp] theorem State.memWrite_wd (s : State) (a : Nat) (v : Byte) : (s.memWrite a v).wd = s.wd := rfl
@[simp] theorem State.memWrite_tse (s : State) (a : Nat) (v : Byte) : (s.memWrite a v).tse = s.tse := rfl
@[simp] theorem State.memWrite_tsd (s : State) (a : Nat) (v : Byte) : (s.memWrite a v).tsd = s.tsd := rfl
@[simp] theorem State.memWrite_mem (s : State) (a : Nat) (v : Byte) : (s.memWrite a v).mem = Memory.set s.mem a v := rfl
@[simp] theorem State.memWrite_draw (s : State) (a : Nat) (v : Byte) : (s.memWrite a v).draw = s.draw := rfl
@[simp] theorem State.memWrite_bus (s : State) (a : Nat) (v : Byte) : (s.memWrite a v).bus = s.bus := rfl
@[simp] theorem State.memWrite_seen (s : State) (a : Nat) (v : Byte) : (s.memWrite a v).seen = s.seen := rfl

/-! ### setRes0 -/

@[simp] theorem State.setRes0_memSize (s : State) (v : Word) : (s.setRes0 v).memSize = s.memSize := rfl
@[simp] theorem State.setRes0_crc6Poly (s : State) (v : Word) : (s.setRes0 v).crc6Poly = s.crc6Poly := rfl
@[simp] theorem State.setRes0_crc6Init (s : State) (v : Word) : (s.setRes0 v).crc6Init = s.crc6Init := rfl
@[simp] theorem State.setRes0_status (s : State) (v : Word) : (s.setRes0 v).status = s.status := rfl
@[simp] theorem State.setRes0_cmdCount (s : State) (v : Word) : (s.setRes0 v).cmdCount = s.cmdCount := rfl
@[simp] theorem State.setRes0_args (s : State) (v : Word) : (s.setRes0 v).args = s.args := rfl
@[simp] theorem State.setRes0_res0 (s : State) (v : Word) : (s.setRes0 v).res0 = v := rfl
@[simp] theorem State.setRes0_res1 (s : State) (v : Word) : (s.setRes0 v).res1 = s.res1 := rfl
@[simp] theorem State.setRes0_reader (s : State) (v : Word) : (s.setRes0 v).reader = s.reader := rfl
@[simp] theorem State.setRes0_writer (s : State) (v : Word) : (s.setRes0 v).writer = s.writer := rfl
@[simp] theorem State.setRes0_we (s : State) (v : Word) : (s.setRes0 v).we = s.we := rfl
@[simp] theorem State.setRes0_wd (s : State) (v : Word) : (s.setRes0 v).wd = s.wd := rfl
@[simp] theorem State.setRes0_tse (s : State) (v : Word) : (s.setRes0 v).tse = s.tse := rfl
@[simp] theorem State.setRes0_tsd (s : State) (v : Word) : (s.setRes0 v).tsd = s.tsd := rfl
@[simp] theorem State.setRes0_mem (s : State) (v : Word) : (s.setRes0 v).mem = s.mem := rfl
@[simp] theorem State.setRes0_draw (s : State) (v : Word) : (s.setRes0 v).draw = s.draw := rfl
@[simp] theorem State.setRes0_bus (s : State) (v : Word) : (s.setRes0 v).bus = s.bus := rfl
@[simp] theorem State.setRes0_seen (s : State) (v : Word) : (s.setRes0 v).seen = s.seen := rfl

/-! ### setRes1 -/

@[simp] theorem State.setRes1_memSize (s : State) (v : Word) : (s.setRes1 v).memSize = s.memSize := rfl
@[simp] theorem State.setRes1_crc6Poly (s : State) (v : Word) : (s.setRes1 v).crc6Poly = s.crc6Poly := rfl
@[simp] theorem State.setRes1_crc6Init (s : State) (v : Word) : (s.setRes1 v).crc6Init = s.crc6Init := rfl
@[simp] theorem State.setRes1_status (s : State) (v : Word) : (s.setRes1 v).status = s.status := rfl
@[simp] theorem State.setRes1_cmdCount (s : State) (v : Word) : (s.setRes1 v).cmdCount = s.cmdCount := rfl
@[simp] theorem State.setRes1_args (s : State) (v : Word) : (s.setRes1 v).args = s.args := rfl
@[simp] theorem State.setRes1_res0 (s : State) (v : Word) : (s.setRes1 v).res0 = s.res0 := rfl
@[simp] theorem State.setRes1_res1 (s : State) (v : Word) : (s.setRes1 v).res1 = v := rfl
@[simp] theorem State.setRes1_reader (s : State) (v : Word) : (s.setRes1 v).reader = s.reader := rfl
@[simp] theorem State.setRes1_writer (s : State) (v : Word) : (s.setRes1 v).writer = s.writer := rfl
@[simp] theorem State.setRes1_we (s : State) (v : Word) : (s.setRes1 v).we = s.we := rfl
@[simp] theorem State.setRes1_wd (s : State) (v : Word) : (s.setRes1 v).wd = s.wd := rfl
@[simp] theorem State.setRes1_tse (s : State) (v : Word) : (s.setRes1 v).tse = s.tse := rfl
@[simp] theorem State.setRes1_tsd (s : State) (v : Word) : (s.setRes1 v).tsd = s.tsd := rfl
@[simp] theorem State.setRes1_mem (s : State) (v : Word) : (s.setRes1 v).mem = s.mem := rfl
@[simp] theorem State.setRes1_draw (s : State) (v : Word) : (s.setRes1 v).draw = s.draw := rfl
@[simp] theorem State.setRes1_bus (s : State) (v : Word) : (s.setRes1 v).bus = s.bus := rfl
@[simp] theorem State.setRes1_seen (s : State) (v : Word) : (s.setRes1 v).seen = s.seen := rfl

/-! ### setReader -/

@[simp] theorem State.setReader_memSize (s : State) (r : Stream) : (s.setReader r).memSize = s.memSize := rfl
@[simp] theorem State.setReader_crc6Poly (s : State) (r : Stream) : (s.setReader r).crc6Poly = s.crc6Poly := rfl
@[simp] theorem State.setReader_crc6Init (s : State) (r : Stream) : (s.setReader r).crc6Init = s.crc6Init := rfl
@[simp] theorem State.setReader_status (s : State) (r : Stream) : (s.setReader r).status = s.status := rfl
@[simp] theorem State.setReader_cmdCount (s : State) (r : Stream) : (s.setReader r).cmdCount = s.cmdCount := rfl
@[simp] theorem State.setReader_args (s : State) (r : Stream) : (s.setReader r).args = s.args := rfl
@[simp] theorem State.setReader_res0 (s : State) (r : Stream) : (s.setReader r).res0 = s.res0 := rfl
@[simp] theorem State.setReader_res1 (s : State) (r : Stream) : (s.setReader r).res1 = s.res1 := rfl
@[simp] theorem State.setReader_reader (s : State) (r : Stream) : (s.setReader r).reader = r := rfl
@[simp] theorem State.setReader_writer (s : State) (r : Stream) : (s.setReader r).writer = s.writer := rfl
@[simp] theorem State.setReader_we (s : State) (r : Stream) : (s.setReader r).we = s.we := rfl
@[simp] theorem State.setReader_wd (s : State) (r : Stream) : (s.setReader r).wd = s.wd := rfl
@[simp] theorem State.setReader_tse (s : State) (r : Stream) : (s.setReader r).tse = s.tse := rfl
@[simp] theorem State.setReader_tsd (s : State) (r : Stream) : (s.setReader r).tsd = s.tsd := rfl
@[simp] theorem State.setReader_mem (s : State) (r : Stream) : (s.setReader r).mem = s.mem := rfl
@[simp] theorem State.setReader_draw (s : State) (r : Stream) : (s.setReader r).draw = s.draw := rfl
@[simp] theorem State.setReader_bus (s : State) (r : Stream) : (s.setReader r).bus = s.bus := rfl
@[simp] theorem State.setReader_seen (s : State) (r : Stream) : (s.setReader r).seen = s.seen := rfl

/-! ### setWriter -/

@[simp] theorem State.setWriter_memSize (s : State) (r : Stream) : (s.setWriter r).memSize = s.memSize := rfl
@[simp] theorem State.setWriter_crc6Poly (s : State) (r : Stream) : (s.setWriter r).crc6Poly = s.crc6Poly := rfl
@[simp] theorem State.setWriter_crc6Init (s : State) (r : Stream) : (s.setWriter r).crc6Init = s.crc6Init := rfl
@[simp] theorem State.setWriter_status (s : State) (r : Stream) : (s.setWriter r).status = s.status := rfl
@[simp] theorem State.setWriter_cmdCount (s : State) (r : Stream) : (s.setWriter r).cmdCount = s.cmdCount := rfl
@[simp] theorem State.setWriter_args (s : State) (r : Stream) : (s.setWriter r).args = s.args := rfl
@[simp] theorem State.setWriter_res0 (s : State) (r : Stream) : (s.setWriter r).res0 = s.res0 := rfl
@[simp] theorem State.setWriter_res1 (s : State) (r : Stream) : (s.setWriter r).res1 = s.res1 := rfl
@[simp] theorem State.setWriter_reader (s : State) (r : Stream) : (s.setWriter r).reader = s.reader := rfl
@[simp] theorem State.setWriter_writer (s : State) (r : Stream) : (s.setWriter r).writer = r := rfl
@[simp] theorem State.setWriter_we (s : State) (r : Stream) : (s.setWriter r).we = s.we := rfl
@[simp] theorem State.setWriter_wd (s : State) (r : Stream) : (s.setWriter r).wd = s.wd := rfl
@[simp] theorem State.setWriter_tse (s : State) (r : Stream) : (s.setWriter r).tse = s.tse := rfl
@[simp] theorem State.setWriter_tsd (s : State) (r : Stream) : (s.setWriter r).tsd = s.tsd := rfl
@[simp] theorem State.setWriter_mem (s : State) (r : Stream) : (s.setWriter r).mem = s.mem := rfl
@[simp] theorem State.setWriter_draw (s : State) (r : Stream) : (s.setWriter r).draw = s.draw := rfl
@[simp] theorem State.setWriter_bus (s : State) (r : Stream) : (s.setWriter r).bus = s.bus := rfl
@[simp] theorem State.setWriter_seen (s : State) (r : Stream) : (s.setWriter r).seen = s.seen := rfl

/-! ### setWe -/

@[simp] theorem State.setWe_memSize (s : State) (i : Nat) (x : WeInst) : (s.setWe i x).memSize = s.memSize := rfl
@[simp] theorem State.setWe_crc6Poly (s : State) (i : Nat) (x : WeInst) : (s.setWe i x).crc6Poly = s.crc6Poly := rfl
@[simp] theorem State.setWe_crc6Init (s : State) (i : Nat) (x : WeInst) : (s.setWe i x).crc6Init = s.crc6Init := rfl
@[simp] theorem State.setWe_status (s : State) (i : Nat) (x : WeInst) : (s.setWe i x).status = s.status := rfl
@[simp] theorem State.setWe_cmdCount (s : State) (i : Nat) (x : WeInst) : (s.setWe i x).cmdCount = s.cmdCount := rfl
@[simp] theorem State.setWe_args (s : State) (i : Nat) (x : WeInst) : (s.setWe i x).args = s.args := rfl
@[simp] theorem State.setWe_res0 (s : State) (i : Nat) (x : WeInst) : (s.setWe i x).res0 = s.res0 := rfl
@[simp] theorem State.setWe_res1 (s : State) (i : Nat) (x : WeInst) : (s.setWe i x).res1 = s.res1 := rfl
@[simp] theorem State.setWe_reader (s : State) (i : Nat) (x : WeInst) : (s.setWe i x).reader = s.reader := rfl
@[simp] theorem State.setWe_writer (s : State) (i : Nat) (x : WeInst) : (s.setWe i x).writer = s.writer := rfl
@[simp] theorem State.setWe_we (s : State) (i : Nat) (x : WeInst) : (s.setWe i x).we = s.we.set i x := rfl
@[simp] theorem State.setWe_wd (s : State) (i : Nat) (x : WeInst) : (s.setWe i x).wd = s.wd := rfl
@[simp] theorem State.setWe_tse (s : State) (i : Nat) (x : WeInst) : (s.setWe i x).tse = s.tse := rfl
@[simp] theorem State.setWe_tsd (s : State) (i : Nat) (x : WeInst) : (s.setWe i x).tsd = s.tsd := rfl
@[simp] theorem State.setWe_mem (s : State) (i : Nat) (x : WeInst) : (s.setWe i x).mem = s.mem := rfl
@[simp] theorem State.setWe_draw (s : State) (i : Nat) (x : WeInst) : (s.setWe i x).draw = s.draw := rfl
@[simp] theorem State.setWe_bus (s : State) (i : Nat) (x : WeInst) : (s.setWe i x).bus = s.bus := rfl
@[simp] theorem State.setWe_seen (s : State) (i : Nat) (x : WeInst) : (s.setWe i x).seen = s.seen := rfl

/-! ### setWd -/

@[simp] theorem State.setWd_memSize (s : State) (i : Nat) (x : WdInst) : (s.setWd i x).memSize = s.memSize := rfl
@[simp] theorem State.setWd_crc6Poly (s : State) (i : Nat) (x : WdInst) : (s.setWd i x).crc6Poly = s.crc6Poly := rfl
@[simp] theorem State.setWd_crc6Init (s : State) (i : Nat) (x : WdInst) : (s.setWd i x).crc6Init = s.crc6Init := rfl
@[simp] theorem State.setWd_status (s : State) (i : Nat) (x : WdInst) : (s.setWd i x).status = s.status := rfl
@[simp] theorem State.setWd_cmdCount (s : State) (i : Nat) (x : WdInst) : (s.setWd i x).cmdCount = s.cmdCount := rfl
@[simp] theorem State.setWd_args (s : State) (i : Nat) (x : WdInst) : (s.setWd i x).args = s.args := rfl
@[simp] theorem State.setWd_res0 (s : State) (i : Nat) (x : WdInst) : (s.setWd i x).res0 = s.res0 := rfl
@[simp] theorem State.setWd_res1 (s : State) (i : Nat) (x : WdInst) : (s.setWd i x).res1 = s.res1 := rfl
@[simp] theorem State.setWd_reader (s : State) (i : Nat) (x : WdInst) : (s.setWd i x).reader = s.reader := rfl
@[simp] theorem State.setWd_writer (s : State) (i : Nat) (x : WdInst) : (s.setWd i x).writer = s.writer := rfl
@[simp] theorem State.setWd_we (s : State) (i : Nat) (x : WdInst) : (s.setWd i x).we = s.we := rfl
@[simp] theorem State.setWd_wd (s : State) (i : Nat) (x : WdInst) : (s.setWd i x).wd = s.wd.set i x := rfl
@[simp] theorem State.setWd_tse (s : State) (i : Nat) (x : WdInst) : (s.setWd i x).tse = s.tse := rfl
@[simp] theorem State.setWd_tsd (s : State) (i : Nat) (x : WdInst) : (s.setWd i x).tsd = s.tsd := rfl
@[simp] theorem State.setWd_mem (s : State) (i : Nat) (x : WdInst) : (s.setWd i x).mem = s.mem := rfl
@[simp] theorem State.setWd_draw (s : State) (i : Nat) (x : WdInst) : (s.setWd i x).draw = s.draw := rfl
@[simp] theorem State.setWd_bus (s : State) (i : Nat) (x : WdInst) : (s.setWd i x).bus = s.bus := rfl
@[simp] theorem State.setWd_seen (s : State) (i : Nat) (x : WdInst) : (s.setWd i x).seen = s.seen := rfl

/-! ### setTse -/

@[simp] theorem State.setTse_memSize (s : State) (i : Nat) (x : TseInst) : (s.setTse i x).memSize = s.memSize := rfl
@[simp] theorem State.setTse_crc6Poly (s : State) (i : Nat) (x : TseInst) : (s.setTse i x).crc6Poly = s.crc6Poly := rfl
@[simp] theorem State.setTse_crc6Init (s : State) (i : Nat) (x : TseInst) : (s.setTse i x).crc6Init = s.crc6Init := rfl
@[simp] theorem State.setTse_status (s : State) (i : Nat) (x : TseInst) : (s.setTse i x).status = s.status := rfl
@[simp] theorem State.setTse_cmdCount (s : State) (i : Nat) (x : TseInst) : (s.setTse i x).cmdCount = s.cmdCount := rfl
@[simp] theorem State.setTse_args (s : State) (i : Nat) (x : TseInst) : (s.setTse i x).args = s.args := rfl
@[simp] theorem State.setTse_res0 (s : State) (i : Nat) (x : TseInst) : (s.setTse i x).res0 = s.res0 := rfl
@[simp] theorem State.setTse_res1 (s : State) (i : Nat) (x : TseInst) : (s.setTse i x).res1 = s.res1 := rfl
@[simp] theorem State.setTse_reader (s : State) (i : Nat) (x : TseInst) : (s.setTse i x).reader = s.reader := rfl
@[simp] theorem State.setTse_writer (s : State) (i : Nat) (x : TseInst) : (s.setTse i x).writer = s.writer := rfl
@[simp] theorem State.setTse_we (s : State) (i : Nat) (x : TseInst) : (s.setTse i x).we = s.we := rfl
@[simp] theorem State.setTse_wd (s : State) (i : Nat) (x : TseInst) : (s.setTse i x).wd = s.wd := rfl
@[simp] theorem State.setTse_tse (s : State) (i : Nat) (x : TseInst) : (s.setTse i x).tse = s.tse.set i x := rfl
@[simp] theorem State.setTse_tsd (s : State) (i : Nat) (x : TseInst) : (s.setTse i x).tsd = s.tsd := rfl
@[simp] theorem State.setTse_mem (s : State) (i : Nat) (x : TseInst) : (s.setTse i x).mem = s.mem := rfl
@[simp] theorem State.setTse_draw (s : State) (i : Nat) (x : TseInst) : (s.setTse i x).draw = s.draw := rfl
@[simp] theorem State.setTse_bus (s : State) (i : Nat) (x : TseInst) : (s.setTse i x).bus = s.bus := rfl
@[simp] theorem State.setTse_seen (s : State) (i : Nat) (x : TseInst) : (s.setTse i x).seen = s.seen := rfl

/-! ### setTsd -/

@[simp] theorem State.setTsd_memSize (s : State) (i : Nat) (x : TsdInst) : (s.setTsd i x).memSize = s.memSize := rfl
@[simp] theorem State.setTsd_crc6Poly (s : State) (i : Nat) (x : TsdInst) : (s.setTsd i x).crc6Poly = s.crc6Poly := rfl
@[simp] theorem State.setTsd_crc6Init (s : State) (i : Nat) (x : TsdInst) : (s.setTsd i x).crc6Init = s.crc6Init := rfl
@[simp] theorem State.setTsd_status (s : State) (i : Nat) (x : TsdInst) : (s.setTsd i x).status = s.status := rfl
@[simp] theorem State.setTsd_cmdCount (s : State) (i : Nat) (x : TsdInst) : (s.setTsd i x).cmdCount = s.cmdCount := rfl
@[simp] theorem State.setTsd_args (s : State) (i : Nat) (x : TsdInst) : (s.setTsd i x).args = s.args := rfl
@[simp] theorem State.setTsd_res0 (s : State) (i : Nat) (x : TsdInst) : (s.setTsd i x).res0 = s.res0 := rfl
@[simp] theorem State.setTsd_res1 (s : State) (i : Nat) (x : TsdInst) : (s.setTsd i x).res1 = s.res1 := rfl
@[simp] theorem State.setTsd_reader (s : State) (i : Nat) (x : TsdInst) : (s.setTsd i x).reader = s.reader := rfl
@[simp] theorem State.setTsd_writer (s : State) (i : Nat) (x : TsdInst) : (s.setTsd i x).writer = s.writer := rfl
@[simp] theorem State.setTsd_we (s : State) (i : Nat) (x : TsdInst) : (s.setTsd i x).we = s.we := rfl
@[simp] theorem State.setTsd_wd (s : State) (i : Nat) (x : TsdInst) : (s.setTsd i x).wd = s.wd := rfl
@[simp] theorem State.setTsd_tse (s : State) (i : Nat) (x : TsdInst) : (s.setTsd i x).tse = s.tse := rfl
@[simp] theorem State.setTsd_tsd (s : State) (i : Nat) (x : TsdInst) : (s.setTsd i x).tsd = s.tsd.set i x := rfl
@[simp] theorem State.setTsd_mem (s : State) (i : Nat) (x : TsdInst) : (s.setTsd i x).mem = s.mem := rfl
@[simp] theorem State.setTsd_draw (s : State) (i : Nat) (x : TsdInst) : (s.setTsd i x).draw = s.draw := rfl
@[simp] theorem State.setTsd_bus (s : State) (i : Nat) (x : TsdInst) : (s.setTsd i x).bus = s.bus := rfl
@[simp] theorem State.setTsd_seen (s : State) (i : Nat) (x : TsdInst) : (s.setTsd i x).seen = s.seen := rfl

/-! ### setArgs -/

@[simp] theorem State.setArgs_memSize (s : State) (a : Args) : (s.setArgs a).memSize = s.memSize := rfl
@[simp] theorem State.setArgs_crc6Poly (s : State) (a : Args) : (s.setArgs a).crc6Poly = s.crc6Poly := rfl
@[simp] theorem State.setArgs_crc6Init (s : State) (a : Args) : (s.setArgs a).crc6Init = s.crc6Init := rfl
@[simp] theorem State.setArgs_status (s : State) (a : Args) : (s.setArgs a).status = s.status := rfl
@[simp] theorem State.setArgs_cmdCount (s : State) (a : Args) : (s.setArgs a).cmdCount = s.cmdCount := rfl
@[simp] theorem State.setArgs_args (s : State) (a : Args) : (s.setArgs a).args = a := rfl
@[simp] theorem State.setArgs_res0 (s : State) (a : Args) : (s.setArgs a).res0 = s.res0 := rfl
@[simp] theorem State.setArgs_res1 (s : State) (a : Args) : (s.setArgs a).res1 = s.res1 := rfl
@[simp] theorem State.setArgs_reader (s : State) (a : Args) : (s.setArgs a).reader = s.reader := rfl
@[simp] theorem State.setArgs_writer (s : State) (a : Args) : (s.setArgs a).writer = s.writer := rfl
@[simp] theorem State.setArgs_we (s : State) (a : Args) : (s.setArgs a).we = s.we := rfl
@[simp] theorem State.setArgs_wd (s : State) (a : Args) : (s.setArgs a).wd = s.wd := rfl
@[simp] theorem State.setArgs_tse (s : State) (a : Args) : (s.setArgs a).tse = s.tse := rfl
@[simp] theorem State.setArgs_tsd (s : State) (a : Args) : (s.setArgs a).tsd = s.tsd := rfl
@[simp] theorem State.setArgs_mem (s : State) (a : Args) : (s.setArgs a).mem = s.mem := rfl
@[simp] theorem State.setArgs_draw (s : State) (a : Args) : (s.setArgs a).draw = s.draw := rfl
@[simp] theorem State.setArgs_bus (s : State) (a : Args) : (s.setArgs a).bus = s.bus := rfl
@[simp] theorem State.setArgs_seen (s : State) (a : Args) : (s.setArgs a).seen = s.seen := rfl

/-! ### clearSticky -/

@[simp] theorem State.clearSticky_memSize (s : State) (d : Word) : (s.clearSticky d).memSize = s.memSize := rfl
@[simp] theorem State.clearSticky_crc6Poly (s : State) (d : Word) : (s.clearSticky d).crc6Poly = s.crc6Poly := rfl
@[simp] theorem State.clearSticky_crc6Init (s : State) (d : Word) : (s.clearSticky d).crc6Init = s.crc6Init := rfl
@[simp] theorem State.clearSticky_status (s : State) (d : Word) : (s.clearSticky d).status = { s.status with sticky := s.status.sticky && !d.getLsbD 8 } := rfl
@[simp] theorem State.clearSticky_cmdCount (s : State) (d : Word) : (s.clearSticky d).cmdCount = s.cmdCount := rfl
@[simp] theorem State.clearSticky_args (s : State) (d : Word) : (s.clearSticky d).args = s.args := rfl
@[simp] theorem State.clearSticky_res0 (s : State) (d : Word) : (s.clearSticky d).res0 = s.res0 := rfl
@[simp] theorem State.clearSticky_res1 (s : State) (d : Word) : (s.clearSticky d).res1 = s.res1 := rfl
@[simp] theorem State.clearSticky_reader (s : State) (d : Word) : (s.clearSticky d).reader = s.reader := rfl
@[simp] theorem State.clearSticky_writer (s : State) (d : Word) : (s.clearSticky d).writer = s.writer := rfl
@[simp] theorem State.clearSticky_we (s : State) (d : Word) : (s.clearSticky d).we = s.we := rfl
@[simp] theorem State.clearSticky_wd (s : State) (d : Word) : (s.clearSticky d).wd = s.wd := rfl
@[simp] theorem State.clearSticky_tse (s : State) (d : Word) : (s.clearSticky d).tse = s.tse := rfl
@[simp] theorem State.clearSticky_tsd (s : State) (d : Word) : (s.clearSticky d).tsd = s.tsd := rfl
@[simp] theorem State.clearSticky_mem (s : State) (d : Word) : (s.clearSticky d).mem = s.mem := rfl
@[simp] theorem State.clearSticky_draw (s : State) (d : Word) : (s.clearSticky d).draw = s.draw := rfl
@[simp] theorem State.clearSticky_bus (s : State) (d : Word) : (s.clearSticky d).bus = s.bus := rfl
@[simp] theorem State.clearSticky_seen (s : State) (d : Word) : (s.clearSticky d).seen = s.seen := rfl

/-! ### record -/

@[simp] theorem State.record_memSize (s : State) (v : Word) : (s.record v).memSize = s.memSize := rfl
@[simp] theorem State.record_crc6Poly (s : State) (v : Word) : (s.record v).crc6Poly = s.crc6Poly := rfl
@[simp] theorem State.record_crc6Init (s : State) (v : Word) : (s.record v).crc6Init = s.crc6Init := rfl
@[simp] theorem State.record_status (s : State) (v : Word) : (s.record v).status = s.status := rfl
@[simp] theorem State.record_cmdCount (s : State) (v : Word) : (s.record v).cmdCount = s.cmdCount := rfl
@[simp] theorem State.record_args (s : State) (v : Word) : (s.record v).args = s.args := rfl
@[simp] theorem State.record_res0 (s : State) (v : Word) : (s.record v).res0 = s.res0 := rfl
@[simp] theorem State.record_res1 (s : State) (v : Word) : (s.record v).res1 = s.res1 := rfl
@[simp] theorem State.record_reader (s : State) (v : Word) : (s.record v).reader = s.reader := rfl
@[simp] theorem State.record_writer (s : State) (v : Word) : (s.record v).writer = s.writer := rfl
@[simp] theorem State.record_we (s : State) (v : Word) : (s.record v).we = s.we := rfl
@[simp] theorem State.record_wd (s : State) (v : Word) : (s.record v).wd = s.wd := rfl
@[simp] theorem State.record_tse (s : State) (v : Word) : (s.record v).tse = s.tse := rfl
@[simp] theorem State.record_tsd (s : State) (v : Word) : (s.record v).tsd = s.tsd := rfl
@[simp] theorem State.record_mem (s : State) (v : Word) : (s.record v).mem = s.mem := rfl
@[simp] theorem State.record_draw (s : State) (v : Word) : (s.record v).draw = s.draw := rfl
@[simp] theorem State.record_bus (s : State) (v : Word) : (s.record v).bus = s.bus := rfl
@[simp] theorem State.record_seen (s : State) (v : Word) : (s.record v).seen = v :: s.seen := rfl

/-! ### setBus -/

@[simp] theorem State.setBus_memSize (s : State) (b : List Access) : (s.setBus b).memSize = s.memSize := rfl
@[simp] theorem State.setBus_crc6Poly (s : State) (b : List Access) : (s.setBus b).crc6Poly = s.crc6Poly := rfl
@[simp] theorem State.setBus_crc6Init (s : State) (b : List Access) : (s.setBus b).crc6Init = s.crc6Init := rfl
@[simp] theorem State.setBus_status (s : State) (b : List Access) : (s.setBus b).status = s.status := rfl
@[simp] theorem State.setBus_cmdCount (s : State) (b : List Access) : (s.setBus b).cmdCount = s.cmdCount := rfl
@[simp] theorem State.setBus_args (s : State) (b : List Access) : (s.setBus b).args = s.args := rfl
@[simp] theorem State.setBus_res0 (s : State) (b : List Access) : (s.setBus b).res0 = s.res0 := rfl
@[simp] theorem State.setBus_res1 (s : State) (b : List Access) : (s.setBus b).res1 = s.res1 := rfl
@[simp] theorem State.setBus_reader (s : State) (b : List Access) : (s.setBus b).reader = s.reader := rfl
@[simp] theorem State.setBus_writer (s : State) (b : List Access) : (s.setBus b).writer = s.writer := rfl
@[simp] theorem State.setBus_we (s : State) (b : List Access) : (s.setBus b).we = s.we := rfl
@[simp] theorem State.setBus_wd (s : State) (b : List Access) : (s.setBus b).wd = s.wd := rfl
@[simp] theorem State.setBus_tse (s : State) (b : List Access) : (s.setBus b).tse = s.tse := rfl
@[simp] theorem State.setBus_tsd (s : State) (b : List Access) : (s.setBus b).tsd = s.tsd := rfl
@[simp] theorem State.setBus_mem (s : State) (b : List Access) : (s.setBus b).mem = s.mem := rfl
@[simp] theorem State.setBus_draw (s : State) (b : List Access) : (s.setBus b).draw = s.draw := rfl
@[simp] theorem State.setBus_bus (s : State) (b : List Access) : (s.setBus b).bus = b := rfl
@[simp] theorem State.setBus_seen (s : State) (b : List Access) : (s.setBus b).seen = s.seen := rfl

/-! ### complete -/

@[simp] theorem complete_memSize (o : Byte) (c : ErrCode) (s : State) : (complete o c s).memSize = s.memSize := rfl
@[simp] theorem complete_crc6Poly (o : Byte) (c : ErrCode) (s : State) : (complete o c s).crc6Poly = s.crc6Poly := rfl
@[simp] theorem complete_crc6Init (o : Byte) (c : ErrCode) (s : State) : (complete o c s).crc6Init = s.crc6Init := rfl
@[simp] theorem complete_status (o : Byte) (c : ErrCode) (s : State) : (complete o c s).status = { code := c, sticky := s.status.sticky || c != .ok, lastOpc := o } := rfl
@[simp] theorem complete_cmdCount (o : Byte) (c : ErrCode) (s : State) : (complete o c s).cmdCount = s.cmdCount + 1#32 := rfl
@[simp] theorem complete_args (o : Byte) (c : ErrCode) (s : State) : (complete o c s).args = s.args := rfl
@[simp] theorem complete_res0 (o : Byte) (c : ErrCode) (s : State) : (complete o c s).res0 = s.res0 := rfl
@[simp] theorem complete_res1 (o : Byte) (c : ErrCode) (s : State) : (complete o c s).res1 = s.res1 := rfl
@[simp] theorem complete_reader (o : Byte) (c : ErrCode) (s : State) : (complete o c s).reader = s.reader := rfl
@[simp] theorem complete_writer (o : Byte) (c : ErrCode) (s : State) : (complete o c s).writer = s.writer := rfl
@[simp] theorem complete_we (o : Byte) (c : ErrCode) (s : State) : (complete o c s).we = s.we := rfl
@[simp] theorem complete_wd (o : Byte) (c : ErrCode) (s : State) : (complete o c s).wd = s.wd := rfl
@[simp] theorem complete_tse (o : Byte) (c : ErrCode) (s : State) : (complete o c s).tse = s.tse := rfl
@[simp] theorem complete_tsd (o : Byte) (c : ErrCode) (s : State) : (complete o c s).tsd = s.tsd := rfl
@[simp] theorem complete_mem (o : Byte) (c : ErrCode) (s : State) : (complete o c s).mem = s.mem := rfl
@[simp] theorem complete_draw (o : Byte) (c : ErrCode) (s : State) : (complete o c s).draw = s.draw := rfl
@[simp] theorem complete_bus (o : Byte) (c : ErrCode) (s : State) : (complete o c s).bus = s.bus := rfl
@[simp] theorem complete_seen (o : Byte) (c : ErrCode) (s : State) : (complete o c s).seen = s.seen := rfl

/-! ### The byte reads that an update leaves alone -/

@[simp] theorem State.setRes0_memRead (s : State) (v : Word) (p : Nat) : (s.setRes0 v).memRead p = s.memRead p := rfl
@[simp] theorem State.setRes1_memRead (s : State) (v : Word) (p : Nat) : (s.setRes1 v).memRead p = s.memRead p := rfl
@[simp] theorem State.setReader_memRead (s : State) (r : Stream) (p : Nat) : (s.setReader r).memRead p = s.memRead p := rfl
@[simp] theorem State.setWriter_memRead (s : State) (r : Stream) (p : Nat) : (s.setWriter r).memRead p = s.memRead p := rfl
@[simp] theorem State.setWe_memRead (s : State) (i : Nat) (x : WeInst) (p : Nat) : (s.setWe i x).memRead p = s.memRead p := rfl
@[simp] theorem State.setWd_memRead (s : State) (i : Nat) (x : WdInst) (p : Nat) : (s.setWd i x).memRead p = s.memRead p := rfl
@[simp] theorem State.setTse_memRead (s : State) (i : Nat) (x : TseInst) (p : Nat) : (s.setTse i x).memRead p = s.memRead p := rfl
@[simp] theorem State.setTsd_memRead (s : State) (i : Nat) (x : TsdInst) (p : Nat) : (s.setTsd i x).memRead p = s.memRead p := rfl
@[simp] theorem State.setArgs_memRead (s : State) (a : Args) (p : Nat) : (s.setArgs a).memRead p = s.memRead p := rfl
@[simp] theorem State.clearSticky_memRead (s : State) (d : Word) (p : Nat) : (s.clearSticky d).memRead p = s.memRead p := rfl
@[simp] theorem State.record_memRead (s : State) (v : Word) (p : Nat) : (s.record v).memRead p = s.memRead p := rfl
@[simp] theorem State.setBus_memRead (s : State) (b : List Access) (p : Nat) : (s.setBus b).memRead p = s.memRead p := rfl
@[simp] theorem complete_memRead (o : Byte) (c : ErrCode) (s : State) (p : Nat) :
    (complete o c s).memRead p = s.memRead p := rfl

theorem State.memRead_eq (s : State) (p : Nat) : s.memRead p = Memory.read s.draw s.mem p := rfl

theorem State.setMem_memRead (s : State) (m : Memory) (p : Nat) :
    (s.setMem m).memRead p = Memory.read s.draw m p := rfl

@[simp] theorem State.setMem_mem_self (s : State) : s.setMem s.mem = s := rfl

end Sys2Proof.Machine
end

