-- ==== Sys2Proof/Laws/Memory.lean ====
section
/-! SUPPORT. The laws of MEM: read after write, and that every memory operation keeps the canonical form
(notes/assumptions/4.md). -/

namespace Sys2Proof.Machine

@[simp] theorem Memory.get?_set_self (m : Memory) (a : Nat) (b : Byte) :
    Memory.get? (Memory.set m a b) a = some b := by
  induction m with
  | nil => simp [Memory.set, Memory.get?]
  | cons c m ih =>
    obtain ⟨k, v⟩ := c
    simp only [Memory.set]
    split
    · simp [Memory.get?]
    · split
      · simp [Memory.get?]
      · rename_i h1 h2
        simp [Memory.get?, Ne.symm h2, ih]

theorem Memory.get?_set_ne (m : Memory) {a p : Nat} (b : Byte) (h : p ≠ a) :
    Memory.get? (Memory.set m a b) p = Memory.get? m p := by
  induction m with
  | nil => simp [Memory.set, Memory.get?, Ne.symm h]
  | cons c m ih =>
    obtain ⟨k, v⟩ := c
    simp only [Memory.set]
    split
    · simp [Memory.get?, Ne.symm h]
    · split
      · rename_i h1 h2
        subst h2
        simp [Memory.get?, Ne.symm h]
      · simp [Memory.get?, ih]

theorem Memory.mem_set {m : Memory} {a : Nat} {b : Byte} {c : Host.Cell} (h : c ∈ Memory.set m a b) :
    c = (a, b) ∨ c ∈ m := by
  induction m with
  | nil => simpa [Memory.set] using h
  | cons d m ih =>
    obtain ⟨k, v⟩ := d
    simp only [Memory.set] at h
    split at h
    · simpa using h
    · split at h
      · simp only [List.mem_cons] at h ⊢
        tauto
      · simp only [List.mem_cons] at h ⊢
        rcases h with h | h
        · exact .inr (.inl h)
        · rcases ih h with h | h
          · exact .inl h
          · exact .inr (.inr h)

/-- A store keeps the addresses rising. -/
theorem Memory.set_wf {m : Memory} (a : Nat) (b : Byte) (h : Memory.wf m) : Memory.wf (Memory.set m a b) := by
  induction m with
  | nil => simp [Memory.set, Memory.wf]
  | cons c m ih =>
    obtain ⟨k, v⟩ := c
    simp only [Memory.wf, List.pairwise_cons] at h
    simp only [Memory.set]
    split
    · rename_i hlt
      refine List.pairwise_cons.2 ⟨?_, List.pairwise_cons.2 h⟩
      intro d hd
      rcases List.mem_cons.1 hd with rfl | hd
      · exact hlt
      · exact Nat.lt_trans hlt (h.1 d hd)
    · split
      · rename_i h1 h2
        subst h2
        exact List.pairwise_cons.2 h
      · rename_i h1 h2
        refine List.pairwise_cons.2 ⟨?_, ih h.2⟩
        intro d hd
        rcases Memory.mem_set hd with rfl | hd
        · show k < a
          omega
        · exact h.1 d hd

theorem Memory.get?_eq_none_of_lt {m : Memory} {a : Nat} (h : ∀ c ∈ m, a < c.1) : Memory.get? m a = none := by
  induction m with
  | nil => rfl
  | cons c m ih =>
    have hc : a < c.1 := h c (by simp)
    have hm : Memory.get? m a = none := ih (fun d hd => h d (by simp [hd]))
    simp [Memory.get?, Nat.ne_of_gt hc, hm]

/-- Two memories in canonical form that hold the same bytes are the same data. -/
theorem Memory.eq_of_get? {m m' : Memory} (h : Memory.wf m) (h' : Memory.wf m')
    (hg : ∀ a, Memory.get? m a = Memory.get? m' a) : m = m' := by
  induction m generalizing m' with
  | nil =>
    cases m' with
    | nil => rfl
    | cons c m' => simpa [Memory.get?] using hg c.1
  | cons c m ih =>
    cases m' with
    | nil => simpa [Memory.get?] using hg c.1
    | cons d m' =>
      obtain ⟨k, v⟩ := c
      obtain ⟨k', v'⟩ := d
      simp only [Memory.wf, List.pairwise_cons] at h h'
      have hk : k = k' := by
        rcases Nat.lt_trichotomy k k' with hlt | heq | hgt
        · have := hg k
          rw [Memory.get?_eq_none_of_lt (m := (k', v') :: m')] at this
          · simp [Memory.get?] at this
          · intro e he
            rcases List.mem_cons.1 he with rfl | he
            · exact hlt
            · exact Nat.lt_trans hlt (h'.1 e he)
        · exact heq
        · have := hg k'
          rw [Memory.get?_eq_none_of_lt (m := (k, v) :: m)] at this
          · simp [Memory.get?] at this
          · intro e he
            rcases List.mem_cons.1 he with rfl | he
            · exact hgt
            · exact Nat.lt_trans hgt (h.1 e he)
      subst hk
      have hv : v = v' := by simpa [Memory.get?] using hg k
      subst hv
      congr 1
      refine ih h.2 h'.2 (fun a => ?_)
      by_cases ha : k = a
      · subst ha
        rw [Memory.get?_eq_none_of_lt h.1, Memory.get?_eq_none_of_lt h'.1]
      · simpa [Memory.get?, ha] using hg a

@[simp] theorem Memory.read_set_self (draw : Nat) (m : Memory) (a : Nat) (b : Byte) :
    Memory.read draw (Memory.set m a b) a = b := by
  simp [Memory.read]

theorem Memory.read_set_ne (draw : Nat) (m : Memory) {a p : Nat} (b : Byte) (h : p ≠ a) :
    Memory.read draw (Memory.set m a b) p = Memory.read draw m p := by
  simp [Memory.read, Memory.get?_set_ne m b h]

@[simp] theorem Memory.read_nil (draw a : Nat) : Memory.read draw [] a = Config.powerOnByte draw a := rfl

@[simp] theorem State.memRead_memWrite_self (s : State) (a : Nat) (b : Byte) : (s.memWrite a b).memRead a = b :=
  Memory.read_set_self _ _ _ _

theorem State.memRead_memWrite_ne (s : State) {a p : Nat} (b : Byte) (h : p ≠ a) :
    (s.memWrite a b).memRead p = s.memRead p :=
  Memory.read_set_ne _ _ _ h

end Sys2Proof.Machine
end

