-- ==== Sys2Proof/Laws/Numbers.lean ====
section
/-! SUPPORT. The arithmetic of 00_scope.md R11: u_N, sext_N, and the widths and sets that configuration
operands take. -/

namespace Sys2Proof.Machine

theorem uN_cast (n : Nat) (x : Int) : ((uN n x : Nat) : Int) = x % ((2 ^ n : Nat) : Int) :=
  Int.toNat_of_nonneg (Int.emod_nonneg _ (by positivity))

theorem uN_lt (n : Nat) (x : Int) : uN n x < 2 ^ n := by
  have h : ((uN n x : Nat) : Int) < ((2 ^ n : Nat) : Int) := by
    rw [uN_cast]; exact Int.emod_lt_of_pos _ (by positivity)
  exact_mod_cast h

theorem uN_natCast (n v : Nat) : uN n (v : Int) = v % 2 ^ n := by
  have h : ((uN n (v : Int) : Nat) : Int) = ((v % 2 ^ n : Nat) : Int) := by rw [uN_cast]; push_cast; rfl
  exact_mod_cast h

theorem uN_of_lt {n v : Nat} (h : v < 2 ^ n) : uN n (v : Int) = v := by
  rw [uN_natCast, Nat.mod_eq_of_lt h]

/-- u_N depends on its argument only mod 2^N. -/
theorem uN_congr {n : Nat} {x y : Int} (h : x % ((2 ^ n : Nat) : Int) = y % ((2 ^ n : Nat) : Int)) :
    uN n x = uN n y := by
  simp only [uN, h]

theorem uN_zero (x : Int) : uN 0 x = 0 := by
  have := uN_lt 0 x
  omega

theorem toWord_toNat (v : Nat) : (toWord v).toNat = v % 2 ^ 32 := by simp [toWord]

theorem toWord_toNat_of_lt {v : Nat} (h : v < 2 ^ 32) : (toWord v).toNat = v := by
  rw [toWord_toNat, Nat.mod_eq_of_lt h]

theorem toWord_eq (v : Nat) : toWord v = BitVec.ofNat 32 v := rfl

theorem toWord_toNat_self (w : Word) : toWord w.toNat = w := by simp [toWord]

/-- sext_N is the signed reading of the N-bit vector. -/
theorem sextN_eq_toInt {n : Nat} (hn : 0 < n) (x : Int) : sextN n x = (BitVec.ofInt n x).toInt := by
  obtain ⟨m, rfl⟩ : ∃ m, n = m + 1 := ⟨n - 1, by omega⟩
  have hp : 2 ^ (m + 1) = 2 * 2 ^ m := by rw [Nat.pow_succ]; omega
  have hlt := uN_lt (m + 1) x
  have hto : (BitVec.ofInt (m + 1) x).toNat = uN (m + 1) x := by
    rw [BitVec.toNat_ofInt]; rfl
  rw [BitVec.toInt_eq_toNat_cond, hto]
  simp only [sextN, Nat.add_sub_cancel]
  by_cases h : uN (m + 1) x < 2 ^ m
  · rw [if_pos h, if_pos (by omega)]
  · rw [if_neg h, if_neg (by omega)]

/-- sext_N of a difference is the signed reading of the difference of N-bit vectors. -/
theorem sextN_sub {n : Nat} (hn : 0 < n) (a b : Nat) :
    sextN n ((a : Int) - b) = (BitVec.ofNat n a - BitVec.ofNat n b).toInt := by
  rw [sextN_eq_toInt hn, Int.sub_eq_add_neg, BitVec.ofInt_add, BitVec.ofInt_neg, BitVec.ofInt_natCast,
    BitVec.ofInt_natCast, BitVec.sub_eq_add_neg]

theorem Width.bits_pos (w : Width) : 0 < w.bits := by cases w <;> decide

theorem Width.bits_le (w : Width) : w.bits ≤ 32 := by cases w <;> decide

theorem Width.pow_bits_le (w : Width) : 2 ^ w.bits ≤ 2 ^ 32 := by cases w <;> decide

theorem Width.bits_mem (w : Width) : w.bits ∈ [12, 16, 32] := by cases w <;> decide

theorem Width.bits_injective {v w : Width} (h : v.bits = w.bits) : v = w := by
  cases v <;> cases w <;> first | rfl | exact absurd h (by decide)

/-- A width operand is legal iff it is 12, 16 or 32, and then names that width. -/
theorem Width.ofWord?_eq_some {v : Word} {w : Width} : Width.ofWord? v = some w ↔ w.bits = v.toNat := by
  simp only [Width.ofWord?]
  split
  · rename_i h; rw [h]; cases w <;> simp [Width.bits]
  · split
    · rename_i h; rw [h]; cases w <;> simp [Width.bits]
    · split
      · rename_i h; rw [h]; cases w <;> simp [Width.bits]
      · cases w <;> simp [Width.bits] <;> omega

theorem Width.ofWord?_eq_none {v : Word} : Width.ofWord? v = none ↔ v.toNat ∉ [12, 16, 32] := by
  simp only [Width.ofWord?, List.mem_cons, List.not_mem_nil, or_false]
  split <;> [skip; split <;> [skip; split]] <;> simp_all

/-- A pmode operand is legal iff it is 0 or 1, and then names that mode. -/
theorem PMode.ofWord?_eq_some {v : Word} {p : PMode} : PMode.ofWord? v = some p ↔ p.bit.toNat = v.toNat := by
  simp only [PMode.ofWord?]
  split
  · rename_i h; rw [h]; cases p <;> simp [PMode.bit]
  · split
    · rename_i h; rw [h]; cases p <;> simp [PMode.bit]
    · cases p <;> simp [PMode.bit] <;> omega

theorem PMode.ofWord?_eq_none {v : Word} : PMode.ofWord? v = none ↔ v.toNat ∉ [0, 1] := by
  simp only [PMode.ofWord?, List.mem_cons, List.not_mem_nil, or_false]
  split <;> [skip; split] <;> simp_all

/-- A window-width operand is legal iff it is a power of two in 1..256, and then names that width. -/
theorem WindowWidth.ofWord?_eq_some {v : Word} {w : WindowWidth} :
    WindowWidth.ofWord? v = some w ↔ w.toNat = v.toNat := by
  simp only [WindowWidth.ofWord?]
  repeat' split
  all_goals first
    | (rename_i h; rw [h]; cases w <;> simp [WindowWidth.toNat])
    | (cases w <;> simp [WindowWidth.toNat] <;> omega)

theorem WindowWidth.ofWord?_eq_none {v : Word} :
    WindowWidth.ofWord? v = none ↔ v.toNat ∉ [1, 2, 4, 8, 16, 32, 64, 128, 256] := by
  simp only [WindowWidth.ofWord?, List.mem_cons, List.not_mem_nil, or_false]
  repeat' split
  all_goals simp_all

theorem WindowWidth.pos (w : WindowWidth) : 1 ≤ w.toNat := by cases w <;> decide

theorem WindowWidth.le (w : WindowWidth) : w.toNat ≤ 256 := by cases w <;> decide

end Sys2Proof.Machine
end

