-- ==== Sys2Proof/Laws/Stream.lean ====
section
/-! SUPPORT. The laws of bit-stream fields (20_memory.md R72, 40_bitio_sdvl.md R120): what getBits reads
and what setBits writes, in the terms of Safety.lean. -/

namespace Sys2Proof.Machine

open Sys2Proof.Safety

theorem streamBit_eq (s : State) (base q : Nat) :
    streamBit s base q = (s.memRead ((8 * base + q) / 8)).getLsbD (7 - (8 * base + q) % 8) := by
  have h1 : (8 * base + q) / 8 = base + q / 8 := by omega
  have h2 : (8 * base + q) % 8 = q % 8 := by omega
  rw [streamBit, h1, h2]

theorem getBits_lt (s : State) (base q n : Nat) : getBits s base q n < 2 ^ n := by
  induction n with
  | zero => simp [getBits]
  | succ n ih =>
    have hb : (streamBit s base (q + n)).toNat ≤ 1 := Bool.toNat_le _
    simp only [getBits, Nat.pow_succ]
    omega

theorem testBit_two_mul_add_bool (x k : Nat) (b : Bool) :
    (2 * x + b.toNat).testBit k = if k = 0 then b else x.testBit (k - 1) := by
  cases k with
  | zero => cases b <;> simp [Nat.testBit_zero]
  | succ k =>
    have h : (2 * x + b.toNat) / 2 = x := by have := Bool.toNat_le b; omega
    rw [Nat.testBit_succ, h]
    simp

theorem getBits_testBit (s : State) (base q : Nat) {n j : Nat} (hj : j < n) :
    (getBits s base q n).testBit (n - 1 - j) = streamBit s base (q + j) := by
  induction n with
  | zero => omega
  | succ n ih =>
    rw [getBits, testBit_two_mul_add_bool]
    by_cases h : j = n
    · subst h; simp
    · have h1 : j < n := by omega
      rw [if_neg (by omega), ← ih h1]
      congr 1
      omega

/-- getBits reads the field at its position. -/
theorem fieldIs_getBits (s : State) (base q n : Nat) : FieldIs s (8 * base + q) n (getBits s base q n) where
  width := getBits_lt s base q n
  bits j hj := by rw [getBits_testBit s base q hj, streamBit_eq, Nat.add_assoc]

/-- A field has one value. -/
theorem FieldIs_unique {s : State} {start n v w : Nat} (hv : FieldIs s start n v) (hw : FieldIs s start n w) :
    v = w := by
  apply Nat.eq_of_testBit_eq
  intro k
  by_cases hk : k < n
  · have h1 := hv.bits (n - 1 - k) (by omega)
    have h2 := hw.bits (n - 1 - k) (by omega)
    have h3 : n - 1 - (n - 1 - k) = k := by omega
    rw [h3] at h1 h2
    rw [h1, h2]
  · have hp : 2 ^ n ≤ 2 ^ k := Nat.pow_le_pow_right (by omega) (by omega)
    rw [Nat.testBit_lt_two_pow (lt_of_lt_of_le hv.width hp), Nat.testBit_lt_two_pow (lt_of_lt_of_le hw.width hp)]

theorem putBit_getLsbD (b : Byte) {i k : Nat} (x : Bool) (hi : i < 8) (hk : k < 8) :
    (putBit b i x).getLsbD k = if k = i then x else b.getLsbD k := by
  unfold putBit
  by_cases h : k = i
  · subst h; cases x <;> simp [hk]
  · cases x
    · simp [hk, h]
    · simp [hk, h]

theorem setBit_eq_setMem (s : State) (base q : Nat) (x : Bool) :
    setBit s base q x = s.setMem (setBit s base q x).mem := rfl

/-- Writing a field changes the memory and nothing else. -/
theorem setBits_eq_setMem (s : State) (base q n v : Nat) :
    setBits s base q n v = s.setMem (setBits s base q n v).mem := by
  induction n generalizing v with
  | zero => rfl
  | succ n ih =>
    show setBit (setBits s base q n (v / 2)) base (q + n) (v.testBit 0) = _
    rw [setBits, ih, setBit_eq_setMem]
    rfl

/-- Writing a field writes exactly its bits. -/
theorem setBits_getLsbD (s : State) (base q n v a : Nat) {i : Nat} (hi : i < 8) :
    ((setBits s base q n v).memRead a).getLsbD i =
    if 8 * base + q ≤ 8 * a + (7 - i) ∧ 8 * a + (7 - i) < 8 * base + q + n then
      v.testBit (8 * base + q + n - 1 - (8 * a + (7 - i)))
    else (s.memRead a).getLsbD i := by
  induction n generalizing v with
  | zero => rw [setBits, if_neg (by omega)]
  | succ n ih =>
    rw [setBits, setBit]
    by_cases ha : a = base + (q + n) / 8
    · subst ha
      rw [State.memRead_memWrite_self, putBit_getLsbD _ _ (by omega) hi, ih]
      by_cases hk : i = 7 - (q + n) % 8
      · rw [if_pos hk, if_pos (by omega)]
        congr 1
        omega
      · rw [if_neg hk]
        by_cases hc : 8 * base + q ≤ 8 * (base + (q + n) / 8) + (7 - i) ∧
            8 * (base + (q + n) / 8) + (7 - i) < 8 * base + q + n
        · rw [if_pos hc, if_pos (by omega), ← Nat.testBit_succ]
          congr 1
          omega
        · rw [if_neg hc, if_neg (by omega)]
    · rw [State.memRead_memWrite_ne _ _ ha, ih]
      by_cases hc : 8 * base + q ≤ 8 * a + (7 - i) ∧ 8 * a + (7 - i) < 8 * base + q + n
      · rw [if_pos hc, if_pos (by omega), ← Nat.testBit_succ]
        congr 1
        omega
      · rw [if_neg hc, if_neg (by omega)]

theorem setBits_memRead_outside (s : State) {base q n a : Nat} (v : Nat)
    (h : 8 * a + 8 ≤ 8 * base + q ∨ 8 * base + q + n ≤ 8 * a) :
    (setBits s base q n v).memRead a = s.memRead a := by
  apply BitVec.eq_of_getLsbD_eq
  intro i hi
  rw [setBits_getLsbD s base q n v a hi, if_neg (by omega)]

theorem fieldWritten_setBits (s : State) (base q n v : Nat) :
    FieldWritten s (setBits s base q n v).mem (8 * base + q) n v where
  bits a i hi := by
    have h := setBits_getLsbD s base q n v a hi
    rw [setBits_eq_setMem, State.setMem_memRead] at h
    exact h
  outside a h := by
    have h := setBits_memRead_outside s v h
    rw [setBits_eq_setMem, State.setMem_memRead] at h
    exact h

/-- A written field is read back. -/
theorem fieldIs_of_fieldWritten {s t : State} {m : Memory} {start n v : Nat} (hw : FieldWritten s m start n v)
    (hv : v < 2 ^ n) (hm : t.mem = m) (hd : t.draw = s.draw) : FieldIs t start n v where
  width := hv
  bits j hj := by
    have h := hw.bits ((start + j) / 8) (7 - (start + j) % 8) (by omega)
    rw [if_pos (by omega)] at h
    rw [State.memRead_eq, hd, hm, h]
    congr 1
    omega

/-- Every address a written memory lists was listed before or is one the field lies in. -/
theorem setBits_mem_inside {s : State} {base q n v : Nat} {c : Host.Cell} (h : c ∈ (setBits s base q n v).mem) :
    c ∈ s.mem ∨ c.1 ≤ base + (q + n - 1) / 8 ∧ 0 < n := by
  induction n generalizing v with
  | zero => exact .inl h
  | succ n ih =>
    rw [setBits, setBit, State.memWrite_mem] at h
    rcases Memory.mem_set h with rfl | h
    · exact .inr ⟨by simp, by omega⟩
    · rcases ih h with h | ⟨h, h0⟩
      · exact .inl h
      · exact .inr ⟨by omega, by omega⟩

theorem setBits_wf {s : State} (base q n v : Nat) (h : Memory.wf s.mem) : Memory.wf (setBits s base q n v).mem := by
  induction n generalizing v with
  | zero => exact h
  | succ n ih =>
    rw [setBits, setBit, State.memWrite_mem]
    exact Memory.set_wf _ _ (ih _)

theorem Stream.holds_iff (r : Stream) (n : Nat) : r.holds n = true ↔ r.pos.toNat + n ≤ 8 * r.len.toNat := by
  simp [Stream.holds]

theorem Stream.inMem_iff (s : State) (r : Stream) (n : Nat) :
    Stream.inMem s r n = true ↔ n = 0 ∨ r.base.toNat + (r.pos.toNat + n - 1) / 8 < s.memSize := by
  simp [Stream.inMem]

/-- In a region of MEM, a field that fits the region is in MEM. -/
theorem Stream.inMem_of_holds {s : State} {r : Stream} {n : Nat} (hr : StreamInv s.memSize r)
    (h : r.pos.toNat + n ≤ 8 * r.len.toNat) : Stream.inMem s r n = true := by
  rw [Stream.inMem_iff]
  have := hr.region
  omega

@[simp] theorem Stream.advance_base (r : Stream) (n : Nat) : (r.advance n).base = r.base := rfl
@[simp] theorem Stream.advance_len (r : Stream) (n : Nat) : (r.advance n).len = r.len := rfl

theorem Stream.advance_pos {s : State} {r : Stream} {n : Nat} (hm : s.memSize ≤ 65536) (hr : StreamInv s.memSize r)
    (h : r.pos.toNat + n ≤ 8 * r.len.toNat) : (r.advance n).pos.toNat = r.pos.toNat + n := by
  have := hr.region
  exact toWord_toNat_of_lt (by omega)

theorem Stream.advance_eq (r : Stream) (n : Nat) : r.advance n = { r with pos := r.pos + BitVec.ofNat 32 n } := by
  have : toWord (r.pos.toNat + n) = r.pos + BitVec.ofNat 32 n := by
    apply BitVec.eq_of_toNat_eq
    simp [toWord]
  simp [Stream.advance, this]

/-- The cursor stays in the region. -/
theorem Stream.advance_inv {s : State} {r : Stream} {n : Nat} (hm : s.memSize ≤ 65536)
    (hr : StreamInv s.memSize r) (h : r.pos.toNat + n ≤ 8 * r.len.toNat) : StreamInv s.memSize (r.advance n) where
  region := hr.region
  cursor := by rw [Stream.advance_pos hm hr h]; exact h

theorem Stream.padding_lt (r : Stream) : r.padding < 8 := by simp only [Stream.padding]; omega

theorem Stream.padding_aligns (r : Stream) : (r.pos.toNat + r.padding) % 8 = 0 := by
  simp only [Stream.padding]; omega

theorem Stream.padding_fits {m : Nat} {r : Stream} (hr : StreamInv m r) :
    r.pos.toNat + r.padding ≤ 8 * r.len.toNat := by
  have := hr.cursor
  simp only [Stream.padding]
  omega

end Sys2Proof.Machine
end

