-- ==== Sys2Proof/Laws/Exec.lean ====
section
/-! SUPPORT. Everything each meaning can do, said once: an error that changes nothing else, a fault that
no state of the invariant reaches, or the command's effect. Later proofs cite these and unfold no meaning. -/

namespace Sys2Proof.Machine

open Sys2Proof.Safety

/-- The command ended with an error that changed nothing but STATUS and CMD_COUNT (60_exceptions.md R283). -/
def Raises (o : Byte) (s : State) (r : Result) : Prop :=
  ∃ e : ErrCode, r = .next (complete o e s) ∧ e ≠ .ok ∧ e ≠ .crcMismatch ∧ e ≠ .wlsbAmbiguous

theorem raises_illegalOperand (o : Byte) (s : State) : Raises o s (raise o .illegalOperand s) :=
  ⟨_, rfl, by decide⟩

theorem raises_badAddress (o : Byte) (s : State) : Raises o s (raise o .badAddress s) := ⟨_, rfl, by decide⟩

theorem raises_malformed (o : Byte) (s : State) : Raises o s (raise o .malformed s) := ⟨_, rfl, by decide⟩

theorem raises_malformedSdvl (o : Byte) (s : State) : Raises o s (raise o .malformedSdvl s) := ⟨_, rfl, by decide⟩

theorem raises_outputTooSmall (o : Byte) (s : State) : Raises o s (raise o .outputTooSmall s) := ⟨_, rfl, by decide⟩

theorem raises_noReference (o : Byte) (s : State) : Raises o s (raise o .noReference s) := ⟨_, rfl, by decide⟩

theorem raises_illegalCommand (o : Byte) (s : State) : Raises o s (raise o .illegalCommand s) := ⟨_, rfl, by decide⟩

theorem execBrInit_cases (s : State) :
    Raises 0x01#8 s (execBrInit s) ∨
    (s.args.arg0.toNat + s.args.arg1.toNat ≤ s.memSize ∧
      execBrInit s = .next (complete 0x01#8 .ok (s.setReader (Stream.fresh s.args.arg0 s.args.arg1)))) := by
  unfold execBrInit
  split
  · rename_i h; exact .inr ⟨by simpa [regionLegal] using h, rfl⟩
  · exact .inl (raises_badAddress _ _)

theorem execBrRead_cases (n : Nat) (s : State) :
    Raises 0x02#8 s (execBrRead n s) ∨
    (s.reader.pos.toNat + n ≤ 8 * s.reader.len.toNat ∧
      ((Stream.inMem s s.reader n = false ∧ execBrRead n s = .fault .noSuchAddress) ∨
        (n ≤ 32 ∧ execBrRead n s = .next (complete 0x02#8 .ok
          ((s.setRes0 (readerField s n)).setReader (s.reader.advance n)))))) := by
  unfold execBrRead
  split
  · exact .inl (raises_illegalOperand _ _)
  · rename_i hn
    split
    · exact .inl (raises_malformed _ _)
    · rename_i h
      have hh : s.reader.pos.toNat + n ≤ 8 * s.reader.len.toNat := by simpa [Stream.holds_iff] using h
      split
      · rename_i hm; exact .inr ⟨hh, .inl ⟨by simpa using hm, rfl⟩⟩
      · exact .inr ⟨hh, .inr ⟨by omega, rfl⟩⟩

theorem execBrPeek_cases (n : Nat) (s : State) :
    Raises 0x03#8 s (execBrPeek n s) ∨
    (s.reader.pos.toNat + n ≤ 8 * s.reader.len.toNat ∧
      ((Stream.inMem s s.reader n = false ∧ execBrPeek n s = .fault .noSuchAddress) ∨
        (n ≤ 32 ∧ execBrPeek n s = .next (complete 0x03#8 .ok (s.setRes0 (readerField s n)))))) := by
  unfold execBrPeek
  split
  · exact .inl (raises_illegalOperand _ _)
  · rename_i hn
    split
    · exact .inl (raises_malformed _ _)
    · rename_i h
      have hh : s.reader.pos.toNat + n ≤ 8 * s.reader.len.toNat := by simpa [Stream.holds_iff] using h
      split
      · rename_i hm; exact .inr ⟨hh, .inl ⟨by simpa using hm, rfl⟩⟩
      · exact .inr ⟨hh, .inr ⟨by omega, rfl⟩⟩

theorem execBrAlign_eq (s : State) :
    execBrAlign s = .next (complete 0x04#8 .ok
      (s.setReader { s.reader with pos := toWord (8 * ((s.reader.pos.toNat + 7) / 8)) })) := rfl

theorem execBwInit_cases (s : State) :
    Raises 0x05#8 s (execBwInit s) ∨
    (s.args.arg0.toNat + s.args.arg1.toNat ≤ s.memSize ∧
      execBwInit s = .next (complete 0x05#8 .ok (s.setWriter (Stream.fresh s.args.arg0 s.args.arg1)))) := by
  unfold execBwInit
  split
  · rename_i h; exact .inr ⟨by simpa [regionLegal] using h, rfl⟩
  · exact .inl (raises_badAddress _ _)

theorem execBwWrite_cases (n : Nat) (s : State) :
    Raises 0x06#8 s (execBwWrite n s) ∨
    (s.writer.pos.toNat + n ≤ 8 * s.writer.len.toNat ∧
      ((Stream.inMem s s.writer n = false ∧ execBwWrite n s = .fault .noSuchAddress) ∨
        (n ≤ 32 ∧ Stream.inMem s s.writer n = true ∧ execBwWrite n s =
          .next (complete 0x06#8 .ok (writeField s n (s.args.arg0.toNat % 2 ^ n)))))) := by
  unfold execBwWrite
  split
  · exact .inl (raises_illegalOperand _ _)
  · rename_i hn
    split
    · exact .inl (raises_outputTooSmall _ _)
    · rename_i h
      have hh : s.writer.pos.toNat + n ≤ 8 * s.writer.len.toNat := by simpa [Stream.holds_iff] using h
      split
      · rename_i hm; exact .inr ⟨hh, .inl ⟨by simpa using hm, rfl⟩⟩
      · rename_i hm; exact .inr ⟨hh, .inr ⟨by omega, by simpa using hm, rfl⟩⟩

theorem execBwAlign_cases (s : State) :
    (Stream.inMem s s.writer s.writer.padding = false ∧ execBwAlign s = .fault .noSuchAddress) ∨
    (Stream.inMem s s.writer s.writer.padding = true ∧
      execBwAlign s = .next (complete 0x07#8 .ok (writeField s s.writer.padding 0))) := by
  unfold execBwAlign
  split
  · rename_i hm; exact .inl ⟨by simpa using hm, rfl⟩
  · rename_i hm; exact .inr ⟨by simpa using hm, rfl⟩

theorem execSdvlEnc_cases (s : State) :
    Raises 0x08#8 s (execSdvlEnc s) ∨
    (s.args.arg0.toNat ≤ Config.sdvlMax ∧
      s.writer.pos.toNat + 8 * sdvlLength s.args.arg0.toNat ≤ 8 * s.writer.len.toNat ∧
      ((Stream.inMem s s.writer (8 * sdvlLength s.args.arg0.toNat) = false ∧
          execSdvlEnc s = .fault .noSuchAddress) ∨
        (Stream.inMem s s.writer (8 * sdvlLength s.args.arg0.toNat) = true ∧
          execSdvlEnc s = .next (complete 0x08#8 .ok
            ((writeField s (8 * sdvlLength s.args.arg0.toNat) (sdvlCode s.args.arg0.toNat)).setRes0
              (toWord (sdvlLength s.args.arg0.toNat))))))) := by
  unfold execSdvlEnc
  split
  · exact .inl (raises_malformedSdvl _ _)
  · rename_i hv
    split
    · exact .inl (raises_outputTooSmall _ _)
    · rename_i h
      have hh := (Stream.holds_iff s.writer (8 * sdvlLength s.args.arg0.toNat)).1 (by simpa using h)
      split
      · rename_i hm; exact .inr ⟨by omega, hh, .inl ⟨by simpa using hm, rfl⟩⟩
      · rename_i hm; exact .inr ⟨by omega, hh, .inr ⟨by simpa using hm, rfl⟩⟩

theorem execSdvlDec_cases (s : State) :
    Raises 0x09#8 s (execSdvlDec s) ∨
    (s.reader.pos.toNat + 8 ≤ 8 * s.reader.len.toNat ∧ Stream.inMem s s.reader 8 = false ∧
      execSdvlDec s = .fault .noSuchAddress) ∨
    (s.reader.pos.toNat + 8 * readerSdvlLength s ≤ 8 * s.reader.len.toNat ∧
      Stream.inMem s s.reader (8 * readerSdvlLength s) = false ∧ execSdvlDec s = .fault .noSuchAddress) ∨
    (s.reader.pos.toNat + 8 * readerSdvlLength s ≤ 8 * s.reader.len.toNat ∧
      execSdvlDec s = .next (complete 0x09#8 .ok
        (((s.setRes0 (toWord (getBits s s.reader.base.toNat s.reader.pos.toNat (8 * readerSdvlLength s)
            % 2 ^ sdvlValueBits (readerSdvlLength s)))).setRes1 (toWord (readerSdvlLength s))).setReader
          (s.reader.advance (8 * readerSdvlLength s))))) := by
  unfold execSdvlDec
  split
  · exact .inl (raises_malformedSdvl _ _)
  · rename_i h8
    have hh8 := (Stream.holds_iff s.reader 8).1 (by simpa using h8)
    split
    · rename_i hm; exact .inr (.inl ⟨hh8, by simpa using hm, rfl⟩)
    · split
      · exact .inl (raises_malformedSdvl _ _)
      · rename_i h
        have hh := (Stream.holds_iff s.reader (8 * readerSdvlLength s)).1 (by simpa using h)
        split
        · rename_i hm; exact .inr (.inr (.inl ⟨hh, by simpa using hm, rfl⟩))
        · exact .inr (.inr (.inr ⟨hh, rfl⟩))

theorem crcCode_cases (s : State) (c : Bool) (v : Word) :
    (crcCode s c v = .crcMismatch ∧ c = true ∧ v ≠ s.args.arg4) ∨
    (crcCode s c v = .ok ∧ (c = true → v = s.args.arg4)) := by
  unfold crcCode
  split
  · rename_i h; simp only [Bool.and_eq_true, bne_iff_ne] at h; exact .inl ⟨rfl, h⟩
  · rename_i h; simp only [Bool.and_eq_true, bne_iff_ne, not_and, not_not] at h; exact .inr ⟨rfl, h⟩

theorem execCrc_cases (kind : Nat) (d m c : Bool) (s : State) :
    Raises 0x10#8 s (execCrc kind d m c s) ∨
    ∃ row, crcRow? s kind = some row ∧ s.args.arg0.toNat + s.args.arg1.toNat ≤ s.memSize ∧
      crcMaskLegal s m = true ∧ crcInitLegal s row d = true ∧
      execCrc kind d m c s = .next (complete 0x10#8 (crcCode s c (crcResult s row d m))
        (s.setRes0 (crcResult s row d m))) := by
  unfold execCrc
  cases hr : crcRow? s kind with
  | none => exact .inl (raises_illegalOperand _ _)
  | some row =>
    simp only
    split
    · exact .inl (raises_badAddress _ _)
    · rename_i h1
      split
      · exact .inl (raises_badAddress _ _)
      · rename_i h2
        split
        · exact .inl (raises_illegalOperand _ _)
        · rename_i h3
          exact .inr ⟨row, rfl, by simpa [regionLegal] using h1, by simpa using h2, by simpa using h3, rfl⟩

theorem execWeCfg_cases (i : Nat) (s : State) :
    Raises 0x20#8 s (execWeCfg i s) ∨
    ∃ x, weConfig? s.args = some x ∧ execWeCfg i s = .next (complete 0x20#8 .ok (s.setWe i x)) := by
  unfold execWeCfg
  split
  · exact .inl (raises_illegalOperand _ _)
  · split
    · exact .inl (raises_illegalOperand _ _)
    · rename_i x hx; exact .inr ⟨x, hx, rfl⟩

theorem execWeAdd_cases (i : Nat) (s : State) :
    (s.we[i]? = none ∧ Raises 0x21#8 s (execWeAdd i s)) ∨
    ∃ x, s.we[i]? = some x ∧
      execWeAdd i s = .next (complete 0x21#8 .ok (s.setWe i (x.add s.args.arg0 s.args.arg1))) := by
  unfold execWeAdd
  cases h : s.we[i]? with
  | none => exact .inl ⟨rfl, raises_illegalOperand _ _⟩
  | some x => exact .inr ⟨x, rfl, rfl⟩

theorem execWeK_cases (i : Nat) (s : State) :
    (s.we[i]? = none ∧ Raises 0x22#8 s (execWeK i s)) ∨
    ∃ x, s.we[i]? = some x ∧
      execWeK i s = .next (complete 0x22#8 .ok
        ((s.setRes0 (toWord (x.kmin (uN x.n.bits s.args.arg0.toNat)))).setRes1
          (toWord (uN x.n.bits s.args.arg0.toNat % 2 ^ x.kmin (uN x.n.bits s.args.arg0.toNat))))) := by
  unfold execWeK
  cases h : s.we[i]? with
  | none => exact .inl ⟨rfl, raises_illegalOperand _ _⟩
  | some x => exact .inr ⟨x, rfl, rfl⟩

theorem execWeInfo_cases (i sel : Nat) (s : State) :
    (s.we[i]? = none ∧ Raises 0x23#8 s (execWeInfo i sel s)) ∨
    ∃ x, s.we[i]? = some x ∧ ∃ v w,
      execWeInfo i sel s = .next (complete 0x23#8 .ok ((s.setRes0 v).setRes1 w)) := by
  unfold execWeInfo
  cases h : s.we[i]? with
  | none => exact .inl ⟨rfl, raises_illegalOperand _ _⟩
  | some x =>
    simp only
    split
    · exact .inr ⟨x, rfl, _, _, rfl⟩
    · exact .inr ⟨x, rfl, _, _, rfl⟩

theorem execWeEntry_cases (i : Nat) (s : State) :
    Raises 0x24#8 s (execWeEntry i s) ∨
    ∃ x e, s.we[i]? = some x ∧ x.win[s.args.arg0.toNat]? = some e ∧
      execWeEntry i s = .next (complete 0x24#8 .ok ((s.setRes0 e.value).setRes1 e.sn)) := by
  unfold execWeEntry
  cases h : s.we[i]? with
  | none => exact .inl (raises_illegalOperand _ _)
  | some x =>
    simp only
    cases he : x.win[s.args.arg0.toNat]? with
    | none => exact .inl (raises_illegalOperand _ _)
    | some e => exact .inr ⟨x, e, rfl, he, rfl⟩

theorem execWdCfg_cases (i : Nat) (s : State) :
    Raises 0x28#8 s (execWdCfg i s) ∨
    ∃ x, wdConfig? s.args = some x ∧ execWdCfg i s = .next (complete 0x28#8 .ok (s.setWd i x)) := by
  unfold execWdCfg
  split
  · exact .inl (raises_illegalOperand _ _)
  · split
    · exact .inl (raises_illegalOperand _ _)
    · rename_i x hx; exact .inr ⟨x, hx, rfl⟩

theorem execWdSetref_cases (i : Nat) (s : State) :
    (s.wd[i]? = none ∧ Raises 0x29#8 s (execWdSetref i s)) ∨
    ∃ x, s.wd[i]? = some x ∧
      execWdSetref i s = .next (complete 0x29#8 .ok (s.setWd i (x.setRef s.args.arg0))) := by
  unfold execWdSetref
  cases h : s.wd[i]? with
  | none => exact .inl ⟨rfl, raises_illegalOperand _ _⟩
  | some x => exact .inr ⟨x, rfl, rfl⟩

theorem execWdDec_cases (i k : Nat) (s : State) :
    Raises 0x2A#8 s (execWdDec i k s) ∨
    ∃ x, s.wd[i]? = some x ∧ k ≤ x.n.bits ∧ x.refValid = true ∧
      execWdDec i k s = .next (complete 0x2A#8 .ok (s.setRes0 (toWord (x.decoded k s.args.arg0.toNat)))) := by
  unfold execWdDec
  cases h : s.wd[i]? with
  | none => exact .inl (raises_illegalOperand _ _)
  | some x =>
    simp only
    split
    · exact .inl (raises_illegalOperand _ _)
    · rename_i hk
      split
      · exact .inl (raises_noReference _ _)
      · rename_i hv; exact .inr ⟨x, rfl, by omega, by simpa using hv, rfl⟩

theorem execWdRd_cases (i sel : Nat) (s : State) :
    (s.wd[i]? = none ∧ Raises 0x2B#8 s (execWdRd i sel s)) ∨
    ∃ x, s.wd[i]? = some x ∧ ∃ v w,
      execWdRd i sel s = .next (complete 0x2B#8 .ok ((s.setRes0 v).setRes1 w)) := by
  unfold execWdRd
  cases h : s.wd[i]? with
  | none => exact .inl ⟨rfl, raises_illegalOperand _ _⟩
  | some x =>
    simp only
    split
    · exact .inr ⟨x, rfl, _, _, rfl⟩
    · exact .inr ⟨x, rfl, _, _, rfl⟩

theorem execTseCfg_cases (i : Nat) (s : State) :
    Raises 0x30#8 s (execTseCfg i s) ∨
    ∃ x, tseConfig? s.args = some x ∧ execTseCfg i s = .next (complete 0x30#8 .ok (s.setTse i x)) := by
  unfold execTseCfg
  split
  · exact .inl (raises_illegalOperand _ _)
  · split
    · exact .inl (raises_illegalOperand _ _)
    · rename_i x hx; exact .inr ⟨x, hx, rfl⟩

theorem execTseEnc_cases (i : Nat) (s : State) :
    (s.tse[i]? = none ∧ Raises 0x31#8 s (execTseEnc i s)) ∨
    ∃ x, s.tse[i]? = some x ∧
      ((x.dividesByZero s.args.arg0 = true ∧ execTseEnc i s = .fault .zeroStride) ∨
        (x.dividesByZero s.args.arg0 = false ∧ execTseEnc i s = .next (complete 0x31#8 .ok
          (((s.setTse i (x.packet s.args.arg0 s.args.arg1).1).setRes0
            (x.packet s.args.arg0 s.args.arg1).1.tsScaled).setRes1
            (tseResult (x.packet s.args.arg0 s.args.arg1).1 (x.packet s.args.arg0 s.args.arg1).2))))) := by
  unfold execTseEnc
  cases h : s.tse[i]? with
  | none => exact .inl ⟨rfl, raises_illegalOperand _ _⟩
  | some x =>
    simp only
    split
    · rename_i hz; exact .inr ⟨x, rfl, .inl ⟨hz, rfl⟩⟩
    · rename_i hz; exact .inr ⟨x, rfl, .inr ⟨by simpa using hz, rfl⟩⟩

theorem execTseRd_cases (i sel : Nat) (s : State) :
    Raises 0x32#8 s (execTseRd i sel s) ∨
    ∃ x v, s.tse[i]? = some x ∧ x.field? sel = some v ∧
      execTseRd i sel s = .next (complete 0x32#8 .ok ((s.setRes0 v).setRes1 0#32)) := by
  unfold execTseRd
  cases h : s.tse[i]? with
  | none => exact .inl (raises_illegalOperand _ _)
  | some x =>
    simp only
    cases hv : x.field? sel with
    | none => exact .inl (raises_illegalOperand _ _)
    | some v => exact .inr ⟨x, v, rfl, hv, rfl⟩

theorem execTsdCfg_cases (i : Nat) (s : State) :
    Raises 0x38#8 s (execTsdCfg i s) ∨
    ∃ x, tsdConfig? s.args = some x ∧ execTsdCfg i s = .next (complete 0x38#8 .ok (s.setTsd i x)) := by
  unfold execTsdCfg
  split
  · exact .inl (raises_illegalOperand _ _)
  · split
    · exact .inl (raises_illegalOperand _ _)
    · rename_i x hx; exact .inr ⟨x, hx, rfl⟩

theorem execTsdStride_cases (i : Nat) (s : State) :
    Raises 0x39#8 s (execTsdStride i s) ∨
    ∃ x, s.tsd[i]? = some x ∧ s.args.arg0 ≠ 0#32 ∧ s.args.arg0.toNat ≤ Config.sdvlMax ∧
      execTsdStride i s = .next (complete 0x39#8 .ok (s.setTsd i (x.setStride s.args.arg0))) := by
  unfold execTsdStride
  cases h : s.tsd[i]? with
  | none => exact .inl (raises_illegalOperand _ _)
  | some x =>
    simp only
    split
    · exact .inl (raises_illegalOperand _ _)
    · rename_i hs
      rw [not_or] at hs
      exact .inr ⟨x, rfl, hs.1, by omega, rfl⟩

theorem execTsdScaled_cases (i : Nat) (s : State) :
    Raises 0x3A#8 s (execTsdScaled i s) ∨
    ∃ x, s.tsd[i]? = some x ∧ x.stride ≠ 0#32 ∧
      execTsdScaled i s = .next (complete 0x3A#8 .ok (s.setRes0 (toWord (x.timestamp s.args.arg0.toNat)))) := by
  unfold execTsdScaled
  cases h : s.tsd[i]? with
  | none => exact .inl (raises_illegalOperand _ _)
  | some x =>
    simp only
    split
    · exact .inl (raises_noReference _ _)
    · rename_i hs; exact .inr ⟨x, rfl, hs, rfl⟩

theorem execTsdDeduce_cases (i : Nat) (s : State) :
    Raises 0x3B#8 s (execTsdDeduce i s) ∨
    ∃ x, s.tsd[i]? = some x ∧ x.stride ≠ 0#32 ∧ x.refValid = true ∧
      execTsdDeduce i s = .next (complete 0x3B#8 .ok
        ((s.setRes0 (toWord (x.timestamp (x.deducedScaled s.args.arg0)))).setRes1
          (toWord (x.deducedScaled s.args.arg0)))) := by
  unfold execTsdDeduce
  cases h : s.tsd[i]? with
  | none => exact .inl (raises_illegalOperand _ _)
  | some x =>
    simp only
    split
    · exact .inl (raises_noReference _ _)
    · rename_i hs
      rw [not_or] at hs
      exact .inr ⟨x, rfl, hs.1, by simpa using hs.2, rfl⟩

theorem execTsdCommit_cases (i : Nat) (s : State) :
    (s.tsd[i]? = none ∧ Raises 0x3C#8 s (execTsdCommit i s)) ∨
    ∃ x, s.tsd[i]? = some x ∧
      execTsdCommit i s = .next (complete 0x3C#8 .ok (s.setTsd i (x.commit s.args.arg0 s.args.arg1))) := by
  unfold execTsdCommit
  cases h : s.tsd[i]? with
  | none => exact .inl ⟨rfl, raises_illegalOperand _ _⟩
  | some x => exact .inr ⟨x, rfl, rfl⟩

theorem execTsdRd_cases (i sel : Nat) (s : State) :
    Raises 0x3D#8 s (execTsdRd i sel s) ∨
    ∃ x v, s.tsd[i]? = some x ∧ x.field? sel = some v ∧
      execTsdRd i sel s = .next (complete 0x3D#8 .ok ((s.setRes0 v).setRes1 0#32)) := by
  unfold execTsdRd
  cases h : s.tsd[i]? with
  | none => exact .inl (raises_illegalOperand _ _)
  | some x =>
    simp only
    cases hv : x.field? sel with
    | none => exact .inl (raises_illegalOperand _ _)
    | some v => exact .inr ⟨x, v, rfl, hv, rfl⟩

/-- How a command can end: a fault, an error that changed nothing, or its effect on the state u completed
with OK or, for CRC with the C flag, with CRC_MISMATCH (60_exceptions.md R281, R283). -/
def Ends (i : Instr) (s : State) (r : Result) : Prop :=
  (∃ f, r = .fault f) ∨ Raises i.opc s r ∨ ∃ c u, r = .next (complete i.opc c u) ∧
    u.status = s.status ∧ u.cmdCount = s.cmdCount ∧ c ≠ .wlsbAmbiguous ∧
    (c = .ok ∨ c = .crcMismatch ∧ (∃ kind d m, i = .crc kind d m true) ∧ u = s.setRes0 u.res0)

/-- Every command ends in one of these ways. -/
theorem exec_ends (i : Instr) (s : State) : Ends i s (exec i s) := by
  have fin : ∀ {r : Result} {u : State}, r = .next (complete i.opc .ok u) → u.status = s.status →
      u.cmdCount = s.cmdCount → Ends i s r := fun h h1 h2 => .inr (.inr ⟨_, _, h, h1, h2, by decide, .inl rfl⟩)
  cases i with
  | nop => exact fin rfl rfl rfl
  | brInit =>
    rcases execBrInit_cases s with h | ⟨_, h⟩
    exacts [.inr (.inl h), fin h rfl rfl]
  | brRead n =>
    rcases execBrRead_cases n s with h | ⟨_, ⟨_, h⟩ | ⟨_, h⟩⟩
    exacts [.inr (.inl h), .inl ⟨_, h⟩, fin h rfl rfl]
  | brPeek n =>
    rcases execBrPeek_cases n s with h | ⟨_, ⟨_, h⟩ | ⟨_, h⟩⟩
    exacts [.inr (.inl h), .inl ⟨_, h⟩, fin h rfl rfl]
  | brAlign => exact fin rfl rfl rfl
  | bwInit =>
    rcases execBwInit_cases s with h | ⟨_, h⟩
    exacts [.inr (.inl h), fin h rfl rfl]
  | bwWrite n =>
    rcases execBwWrite_cases n s with h | ⟨_, ⟨_, h⟩ | ⟨_, _, h⟩⟩
    · exact .inr (.inl h)
    · exact .inl ⟨_, h⟩
    · refine fin h ?_ ?_ <;> simp only [writeField] <;> rw [setBits_eq_setMem] <;> rfl
  | bwAlign =>
    rcases execBwAlign_cases s with ⟨_, h⟩ | ⟨_, h⟩
    · exact .inl ⟨_, h⟩
    · refine fin h ?_ ?_ <;> simp only [writeField] <;> rw [setBits_eq_setMem] <;> rfl
  | sdvlEnc =>
    rcases execSdvlEnc_cases s with h | ⟨_, _, ⟨_, h⟩ | ⟨_, h⟩⟩
    · exact .inr (.inl h)
    · exact .inl ⟨_, h⟩
    · refine fin h ?_ ?_ <;> simp only [writeField] <;> rw [setBits_eq_setMem] <;> rfl
  | sdvlDec =>
    rcases execSdvlDec_cases s with h | ⟨_, _, h⟩ | ⟨_, _, h⟩ | ⟨_, h⟩
    exacts [.inr (.inl h), .inl ⟨_, h⟩, .inl ⟨_, h⟩, fin h rfl rfl]
  | crc kind d m c =>
    rcases execCrc_cases kind d m c s with h | ⟨row, _, _, _, _, h⟩
    · exact .inr (.inl h)
    · refine .inr (.inr ⟨_, _, h, rfl, rfl, ?_⟩)
      rcases crcCode_cases s c (crcResult s row d m) with ⟨hc, rfl, _⟩ | ⟨hc, _⟩
      · rw [hc]; exact ⟨by decide, .inr ⟨rfl, ⟨_, _, _, rfl⟩, rfl⟩⟩
      · rw [hc]; exact ⟨by decide, .inl rfl⟩
  | weCfg i =>
    rcases execWeCfg_cases i s with h | ⟨_, _, h⟩
    exacts [.inr (.inl h), fin h rfl rfl]
  | weAdd i =>
    rcases execWeAdd_cases i s with ⟨_, h⟩ | ⟨_, _, h⟩
    exacts [.inr (.inl h), fin h rfl rfl]
  | weK i =>
    rcases execWeK_cases i s with ⟨_, h⟩ | ⟨_, _, h⟩
    exacts [.inr (.inl h), fin h rfl rfl]
  | weInfo i k =>
    rcases execWeInfo_cases i k s with ⟨_, h⟩ | ⟨_, _, _, _, h⟩
    exacts [.inr (.inl h), fin h rfl rfl]
  | weEntry i =>
    rcases execWeEntry_cases i s with h | ⟨_, _, _, _, h⟩
    exacts [.inr (.inl h), fin h rfl rfl]
  | wdCfg i =>
    rcases execWdCfg_cases i s with h | ⟨_, _, h⟩
    exacts [.inr (.inl h), fin h rfl rfl]
  | wdSetref i =>
    rcases execWdSetref_cases i s with ⟨_, h⟩ | ⟨_, _, h⟩
    exacts [.inr (.inl h), fin h rfl rfl]
  | wdDec i k =>
    rcases execWdDec_cases i k s with h | ⟨_, _, _, _, h⟩
    exacts [.inr (.inl h), fin h rfl rfl]
  | wdRd i k =>
    rcases execWdRd_cases i k s with ⟨_, h⟩ | ⟨_, _, _, _, h⟩
    exacts [.inr (.inl h), fin h rfl rfl]
  | tseCfg i =>
    rcases execTseCfg_cases i s with h | ⟨_, _, h⟩
    exacts [.inr (.inl h), fin h rfl rfl]
  | tseEnc i =>
    rcases execTseEnc_cases i s with ⟨_, h⟩ | ⟨_, _, ⟨_, h⟩ | ⟨_, h⟩⟩
    exacts [.inr (.inl h), .inl ⟨_, h⟩, fin h rfl rfl]
  | tseRd i k =>
    rcases execTseRd_cases i k s with h | ⟨_, _, _, _, h⟩
    exacts [.inr (.inl h), fin h rfl rfl]
  | tsdCfg i =>
    rcases execTsdCfg_cases i s with h | ⟨_, _, h⟩
    exacts [.inr (.inl h), fin h rfl rfl]
  | tsdStride i =>
    rcases execTsdStride_cases i s with h | ⟨_, _, _, _, h⟩
    exacts [.inr (.inl h), fin h rfl rfl]
  | tsdScaled i =>
    rcases execTsdScaled_cases i s with h | ⟨_, _, _, h⟩
    exacts [.inr (.inl h), fin h rfl rfl]
  | tsdDeduce i =>
    rcases execTsdDeduce_cases i s with h | ⟨_, _, _, _, h⟩
    exacts [.inr (.inl h), fin h rfl rfl]
  | tsdCommit i =>
    rcases execTsdCommit_cases i s with ⟨_, h⟩ | ⟨_, _, h⟩
    exacts [.inr (.inl h), fin h rfl rfl]
  | tsdRd i k =>
    rcases execTsdRd_cases i k s with h | ⟨_, _, _, _, h⟩
    exacts [.inr (.inl h), fin h rfl rfl]

end Sys2Proof.Machine
end

