-- ==== Sys2Proof/Laws/Units.lean ====
section
/-! SUPPORT. The invariants of the units (Safety.lean) under each operation on an instance, and the reading
of the TS encoder's transition (43_ts_scaled.md R232). -/

namespace Sys2Proof.Machine

open Sys2Proof.Safety

/-- An instance replaced by one with the same view f leaves the view of the whole list; the left side is
what simp makes of `(l.set i y).map f` with `f y = f x`. -/
theorem map_set_view {α β : Type} {f : α → β} {l : List α} {i : Nat} {x : α} (h : l[i]? = some x) :
    (l.map f).set i (f x) = l.map f := by
  obtain ⟨hi, rfl⟩ := List.getElem?_eq_some_iff.1 h
  rw [← List.getElem_map f (h := by simpa using hi), List.set_getElem_self]

@[simp] theorem weConfigOf_add (x : WeInst) (v sn : Word) : weConfigOf (x.add v sn) = weConfigOf x := rfl
@[simp] theorem wdConfigOf_setRef (x : WdInst) (v : Word) : wdConfigOf (x.setRef v) = wdConfigOf x := rfl

theorem weInv_config {a : Args} {x : WeInst} (h : weConfig? a = some x) : WeInv x := by
  simp only [weConfig?, Option.bind_eq_some_iff, Option.map_eq_some_iff] at h
  obtain ⟨n, _, pm, _, w, _, snw, _, rfl⟩ := h
  exact ⟨Nat.zero_le _, by simp, by simp⟩

theorem purged_length_le (x : WeInst) (sn : Nat) : (x.purged sn).length ≤ x.win.length :=
  List.length_filter_le _ _

theorem mem_evicted {x : WeInst} {win : List WeEntry} {e : WeEntry} (h : e ∈ x.evicted win) : e ∈ win := by
  unfold WeInst.evicted at h
  split at h
  · exact List.mem_of_mem_drop h
  · exact h

theorem evicted_length_lt {x : WeInst} {win : List WeEntry} (h : win.length ≤ x.w.toNat) :
    (x.evicted win).length < x.w.toNat := by
  have := WindowWidth.pos x.w
  unfold WeInst.evicted
  split
  · rw [List.length_drop]; omega
  · omega

theorem weInv_add {x : WeInst} (h : WeInv x) (v sn : Word) : WeInv (x.add v sn) where
  length := by
    have h1 := purged_length_le x (uN x.snw.bits sn.toNat)
    have h2 := evicted_length_lt (x := x) (Nat.le_trans h1 h.length)
    simp only [WeInst.add, List.length_append, List.length_singleton]
    omega
  value e he := by
    simp only [WeInst.add, List.mem_append, List.mem_singleton] at he
    rcases he with he | rfl
    · exact h.value e (List.mem_filter.1 (mem_evicted he)).1
    · have := uN_lt x.n.bits (v.toNat : Int)
      simp only [WeInst.add]
      rw [toWord_toNat_of_lt (Nat.lt_of_lt_of_le this x.n.pow_bits_le)]
      exact this
  sn e he := by
    simp only [WeInst.add, List.mem_append, List.mem_singleton] at he
    rcases he with he | rfl
    · exact h.sn e (List.mem_filter.1 (mem_evicted he)).1
    · have := uN_lt x.snw.bits (sn.toNat : Int)
      simp only [WeInst.add]
      rw [toWord_toNat_of_lt (Nat.lt_of_lt_of_le this x.snw.pow_bits_le)]
      exact this

theorem wdInv_config {a : Args} {x : WdInst} (h : wdConfig? a = some x) : WdInv x := by
  simp only [wdConfig?, Option.bind_eq_some_iff, Option.map_eq_some_iff] at h
  obtain ⟨n, _, pm, _, rfl⟩ := h
  exact ⟨by simp⟩

theorem wdInv_setRef (x : WdInst) (v : Word) : WdInv (x.setRef v) where
  ref := by
    have := uN_lt x.n.bits (v.toNat : Int)
    simp only [WdInst.setRef]
    rw [toWord_toNat_of_lt (Nat.lt_of_lt_of_le this x.n.pow_bits_le)]
    exact this

theorem tseInv_config {a : Args} {x : TseInst} (h : tseConfig? a = some x) : TseInv x := by
  unfold tseConfig? at h
  split at h
  · cases h
  · rename_i hl
    simp only [Option.map_eq_some_iff] at h
    obtain ⟨snw, _, rfl⟩ := h
    refine ⟨?_, ?_, ?_, ?_, ?_, ?_, ?_, ?_, ?_, ?_⟩ <;> simp
    omega

/-- The magnitude of the signed 32-bit difference (43_ts_scaled.md R233). -/
theorem delta_eq (x : TseInst) (ts : Word) : x.delta ts = tsDistance ts x.oldTs := by
  unfold TseInst.delta TseInst.diff tsDistance
  simp only [BitVec.toNat_sub]
  have := ts.isLt
  have := x.oldTs.isLt
  split <;> omega

theorem rejects_iff (x : TseInst) (ts : Word) :
    x.rejects ts = true ↔ x.delta ts = 0 ∨ Config.sdvlMax < x.delta ts := by
  simp [TseInst.rejects]

theorem wraps_iff (x : TseInst) (ts : Word) :
    x.wraps ts = true ↔ ts.toNat < x.oldTs.toNat ∧ (ts - x.oldTs).toNat < 2 ^ 31 := by
  rw [TseInst.wraps, Bool.and_eq_true, decide_eq_true_iff, decide_eq_true_iff, TseInst.diff]

theorem offsetOf_lt (x : TseInst) (ts : Word) : x.offsetOf ts < 2 ^ 32 :=
  Nat.lt_of_le_of_lt (Nat.mod_le _ _) ts.isLt

theorem scaledOf_eq (x : TseInst) (ts : Word) : x.scaledOf ts = ts.toNat / x.tsStride.toNat := by
  have h := Nat.div_add_mod ts.toNat x.tsStride.toNat
  rw [TseInst.scaledOf, TseInst.offsetOf]
  rcases Nat.eq_zero_or_pos x.tsStride.toNat with h0 | hp
  · simp [h0]
  · rw [show ts.toNat - ts.toNat % x.tsStride.toNat = ts.toNat / x.tsStride.toNat * x.tsStride.toNat by
      rw [Nat.mul_comm] at h; omega]
    exact Nat.mul_div_cancel _ hp

theorem scaledOf_lt (x : TseInst) (ts : Word) : x.scaledOf ts < 2 ^ 32 := by
  rw [scaledOf_eq]
  exact Nat.lt_of_le_of_lt (Nat.div_le_self _ _) ts.isLt

/-- A packet handled in INIT_STRIDE with a count below L (43_ts_scaled.md R236). -/
theorem tseInv_sendStride {x : TseInst} {ts sn : Word} {f : TsFlags} (hl : 1 ≤ x.l.toNat)
    (hc : x.strideCount.toNat < x.l.toNat) (hs : x.tsStride.toNat ≤ Config.sdvlMax) (h1 : 1 ≤ x.tsStride.toNat) :
    TseInv ((x.sendStride ts).remember ts (uN x.snw.bits sn.toNat) f) := by
  have hL := x.l.isLt
  have hcnt : (x.strideCount + 1#8).toNat = x.strideCount.toNat + 1 := by
    rw [BitVec.toNat_add]; simp; omega
  have hsn := uN_lt x.snw.bits (sn.toNat : Int)
  refine ⟨hl, ?_, ?_, hs, fun _ => h1, fun h => ?_, ?_, ?_, fun _ => ?_, fun _ => ?_⟩
  · simp only [TseInst.remember, TseInst.sendStride]
    rw [toWord_toNat_of_lt (Nat.lt_of_lt_of_le hsn x.snw.pow_bits_le)]
    exact hsn
  · simp only [TseInst.remember, TseInst.sendStride, hcnt]; omega
  · simp [TseInst.remember] at h
  · simp only [TseInst.remember, TseInst.sendStride, hcnt]
    split
    · intro h; cases h
    · intro _; omega
  · simp only [TseInst.remember, TseInst.sendStride, hcnt]
    split
    · intro _; omega
    · intro h; cases h
  · simp only [TseInst.remember, TseInst.sendStride]
    rw [toWord_toNat_of_lt (offsetOf_lt x ts)]; rfl
  · simp only [TseInst.remember, TseInst.sendStride]
    rw [toWord_toNat_of_lt (scaledOf_lt x ts)]; exact scaledOf_eq x ts

/-- A packet sends the encoder to INIT_TS (43_ts_scaled.md R234). -/
theorem tseInv_initTs {x : TseInst} (h : TseInv x) (ts sn : Word) (f : TsFlags) :
    TseInv (TseInst.remember { x with state := .initTs } ts (uN x.snw.bits sn.toNat) f) := by
  have hsn := uN_lt x.snw.bits (sn.toNat : Int)
  refine ⟨h.repetitions, ?_, h.count, h.capacity, fun h => absurd rfl h, fun _ => rfl, ?_, ?_,
    fun h => absurd rfl h, fun h => absurd rfl h⟩
  · simp only [TseInst.remember]
    rw [toWord_toNat_of_lt (Nat.lt_of_lt_of_le hsn x.snw.pow_bits_le)]
    exact hsn
  · intro h; cases h
  · intro h; cases h

/-- A packet sent scaled (43_ts_scaled.md R238). -/
theorem tseInv_sendScaled {x : TseInst} (h : TseInv x) (ts sn : Word) (f : TsFlags) :
    TseInv ((x.sendScaled ts).remember ts (uN x.snw.bits sn.toNat) f) := by
  have hsn := uN_lt x.snw.bits (sn.toNat : Int)
  refine ⟨h.repetitions, ?_, h.count, h.capacity, h.stride, fun h => ?_, h.pending, h.sent,
    fun _ => ?_, fun _ => ?_⟩
  · simp only [TseInst.remember, TseInst.sendScaled]
    rw [toWord_toNat_of_lt (Nat.lt_of_lt_of_le hsn x.snw.pow_bits_le)]
    exact hsn
  · simp [TseInst.remember] at h
  · simp only [TseInst.remember, TseInst.sendScaled]
    rw [toWord_toNat_of_lt (offsetOf_lt x ts)]; rfl
  · simp only [TseInst.remember, TseInst.sendScaled]
    rw [toWord_toNat_of_lt (scaledOf_lt x ts)]; exact scaledOf_eq x ts

theorem tseInv_newStride {x : TseInst} (h : TseInv x) {ts sn : Word} {f : TsFlags} (hr : x.rejects ts = false) :
    TseInv (((x.newStride (x.delta ts)).sendStride ts).remember ts (uN x.snw.bits sn.toNat) f) := by
  have hr : ¬(x.delta ts = 0 ∨ Config.sdvlMax < x.delta ts) := by rw [← rejects_iff, hr]; decide
  have hd : (toWord (x.delta ts)).toNat = x.delta ts :=
    toWord_toNat_of_lt (by have : Config.sdvlMax < 2 ^ 32 := by decide
                           omega)
  refine tseInv_sendStride (x := x.newStride (x.delta ts)) h.repetitions ?_ ?_ ?_
  · have := h.repetitions
    simp only [TseInst.newStride, BitVec.toNat_ofNat]; omega
  · simp only [TseInst.newStride, hd]; omega
  · simp only [TseInst.newStride, hd]; omega

theorem tseInv_packet {x : TseInst} (h : TseInv x) (ts sn : Word) : TseInv (x.packet ts sn).1 := by
  simp only [TseInst.packet, TseInst.transition]
  split
  · exact tseInv_initTs h ts sn _
  · split
    · exact tseInv_initTs h ts sn _
    · rename_i hr
      have hr : x.rejects ts = false := by simpa using hr
      split
      · exact tseInv_newStride h hr
      · rename_i hst
        split
        · exact tseInv_newStride h hr
        · exact tseInv_sendStride h.repetitions (h.pending hst) h.capacity (h.stride (by rw [hst]; decide))
      · rename_i hst
        split
        · exact tseInv_newStride h hr
        · split
          · exact tseInv_sendStride (x := x.sameStride) h.repetitions (by
              have := h.repetitions
              simp only [TseInst.sameStride, BitVec.toNat_ofNat]; omega) h.capacity
              (h.stride (by rw [hst]; decide))
          · exact tseInv_sendScaled h ts sn _

/-- The invariant rules out the division by zero (43_ts_scaled.md R232). -/
theorem not_dividesByZero {x : TseInst} (h : TseInv x) (ts : Word) : x.dividesByZero ts = false := by
  by_cases hs : x.state = .sendScaled
  · have h1 := h.stride (by rw [hs]; decide)
    have : x.tsStride ≠ 0#32 := by rintro h0; rw [h0] at h1; simp at h1
    simp [TseInst.dividesByZero, this]
  · simp [TseInst.dividesByZero, hs]

theorem not_rejects {x : TseInst} {ts : Word} (h1 : 1 ≤ tsDistance ts x.oldTs)
    (h2 : tsDistance ts x.oldTs ≤ Config.sdvlMax) : x.rejects ts = false := by
  rw [← Bool.not_eq_true, rejects_iff, delta_eq]
  omega

/-- DED compares the signed 32-bit scaled difference with the signed snw-bit SN difference
(43_ts_scaled.md R238). -/
theorem deduces_iff (x : TseInst) (ts sn : Word) :
    x.deduces ts (uN x.snw.bits sn.toNat) = true ↔
      (BitVec.ofNat 32 (ts.toNat / x.tsStride.toNat) - x.tsScaled).toInt =
      (BitVec.ofNat x.snw.bits sn.toNat - BitVec.ofNat x.snw.bits x.oldSn.toNat).toInt := by
  have h1 : BitVec.ofNat 32 x.tsScaled.toNat = x.tsScaled := by simp
  have h2 : BitVec.ofNat x.snw.bits (uN x.snw.bits (sn.toNat : Int)) = BitVec.ofNat x.snw.bits sn.toNat := by
    apply BitVec.eq_of_toNat_eq
    simp [uN_natCast]
  rw [TseInst.deduces, decide_eq_true_eq, scaledOf_eq, sextN_sub (by decide), sextN_sub (Width.bits_pos _), h1, h2]

/-- RES1 of TSE_ENC as a number (43_ts_scaled.md R239). -/
theorem tseResult_eq (x : TseInst) (f : TsFlags) :
    tseResult x f = BitVec.ofNat 32 (2 ^ 8 * x.strideCount.toNat + 32 * f.all.toNat + 16 * f.ded.toNat
      + 8 * f.stf.toNat + 4 * f.uns.toNat + x.state.code.toNat) := by
  apply BitVec.eq_of_toNat_eq
  have h1 := x.strideCount.isLt
  have h2 := x.state.code.isLt
  have hb : ∀ b : Bool, (BitVec.ofBool b).toNat < 2 ^ 1 := fun b => BitVec.isLt _
  simp only [tseResult, bit, BitVec.toNat_append]
  rw [← Nat.shiftLeft_add_eq_or_of_lt h2, ← Nat.shiftLeft_add_eq_or_of_lt (hb _),
    ← Nat.shiftLeft_add_eq_or_of_lt (hb _), ← Nat.shiftLeft_add_eq_or_of_lt (hb _),
    ← Nat.shiftLeft_add_eq_or_of_lt (hb _), ← Nat.shiftLeft_add_eq_or_of_lt (BitVec.isLt (0#2)),
    ← Nat.shiftLeft_add_eq_or_of_lt h1]
  have := Bool.toNat_le f.all
  have := Bool.toNat_le f.ded
  have := Bool.toNat_le f.stf
  have := Bool.toNat_le f.uns
  simp [Nat.shiftLeft_eq]
  omega

theorem tsdInv_config {a : Args} {x : TsdInst} (h : tsdConfig? a = some x) : TsdInv x := by
  simp only [tsdConfig?, Option.map_eq_some_iff] at h
  obtain ⟨snw, _, rfl⟩ := h
  refine ⟨?_, ?_, fun _ => ⟨rfl, rfl⟩, fun h => absurd rfl h, fun h => absurd rfl h⟩ <;> simp

theorem split_offset (x : TsdInst) : x.split.offset.toNat = x.tsRef.toNat % x.stride.toNat := by
  simp only [TsdInst.split]
  exact toWord_toNat_of_lt (Nat.lt_of_le_of_lt (Nat.mod_le _ _) x.tsRef.isLt)

theorem split_scaledRef (x : TsdInst) : x.split.scaledRef.toNat = x.tsRef.toNat / x.stride.toNat := by
  have h := scaledOf_eq { TseInst.reset with tsStride := x.stride } x.tsRef
  have hl := scaledOf_lt { TseInst.reset with tsStride := x.stride } x.tsRef
  simp only [TseInst.scaledOf, TseInst.offsetOf] at h hl
  simp only [TsdInst.split]
  rw [toWord_toNat_of_lt hl, h]

theorem tsdInv_setStride {x : TsdInst} (h : TsdInv x) {v : Word} (h0 : v ≠ 0#32)
    (hv : v.toNat ≤ Config.sdvlMax) : TsdInv (x.setStride v) := by
  unfold TsdInst.setStride
  split
  · rename_i hr
    refine ⟨hv, h.sn, fun hu => ?_, fun _ _ => split_offset _, fun _ _ => split_scaledRef _⟩
    rcases hu with hu | hu
    · exact absurd hu h0
    · exact absurd hu (by simp [TsdInst.split, hr])
  · rename_i hr
    refine ⟨hv, h.sn, fun _ => h.unknown (.inr (by simpa using hr)), fun _ h => absurd h hr,
      fun _ h => absurd h hr⟩

theorem tsdInv_commit {x : TsdInst} (h : TsdInv x) (ts sn : Word) : TsdInv (x.commit ts sn) := by
  have hsn := uN_lt x.snw.bits (sn.toNat : Int)
  have hw : (toWord (uN x.snw.bits sn.toNat)).toNat < 2 ^ x.snw.bits := by
    rw [toWord_toNat_of_lt (Nat.lt_of_lt_of_le hsn x.snw.pow_bits_le)]; exact hsn
  unfold TsdInst.commit
  split
  · rename_i h0
    exact ⟨h.capacity, hw, fun _ => h.unknown (.inl h0), fun h => absurd h0 h, fun h => absurd h0 h⟩
  · rename_i h0
    refine ⟨h.capacity, hw, fun hu => ?_, fun _ _ => split_offset _, fun _ _ => split_scaledRef _⟩
    rcases hu with hu | hu
    · exact absurd hu h0
    · cases hu

end Sys2Proof.Machine
end

