-- ==== Sys2Proof/Laws/Codec.lean ====
section
/-! SUPPORT. What the operations of the BIO, CRC and WLSB units compute, in the terms of Safety.lean. -/

namespace Sys2Proof.Machine

open Sys2Proof.Safety

/-- sdvlLength and sdvlCode give the shortest form (40_bitio_sdvl.md R140). -/
theorem sdvlForm_shortest {v : Nat} (h : v ≤ Config.sdvlMax) : SdvlForm v (sdvlLength v) (sdvlCode v) := by
  have h : v ≤ 2 ^ 29 - 1 := h
  unfold SdvlForm sdvlLength sdvlCode
  split
  · exact .inl ⟨by assumption, rfl, rfl⟩
  · split
    · exact .inr (.inl ⟨by omega, by assumption, rfl, rfl⟩)
    · split
      · exact .inr (.inr (.inl ⟨by omega, by assumption, rfl, rfl⟩))
      · exact .inr (.inr (.inr ⟨by omega, by omega, rfl, rfl⟩))

/-- What a first byte announces (40_bitio_sdvl.md R141). -/
theorem sdvlPrefix_firstByte {b : Nat} (h : b < 256) :
    SdvlPrefix b (sdvlPrefixLength b) (sdvlValueBits (sdvlPrefixLength b)) := by
  unfold SdvlPrefix sdvlPrefixLength sdvlValueBits
  split
  · exact .inl ⟨by omega, rfl, rfl⟩
  · split
    · exact .inr (.inl ⟨by omega, by omega, rfl, rfl⟩)
    · split
      · exact .inr (.inr (.inl ⟨by omega, by omega, rfl, rfl⟩))
      · exact .inr (.inr (.inr ⟨by omega, by omega, rfl, rfl⟩))

/-- A writer's field write, as an update of the memory and of the cursor. -/
theorem writeField_eq (s : State) (n v : Nat) :
    writeField s n v =
      (s.setMem (setBits s s.writer.base.toNat s.writer.pos.toNat n v).mem).setWriter (s.writer.advance n) := by
  rw [writeField]
  congr 1
  exact setBits_eq_setMem _ _ _ _ _

/-- The row of a kind is that of the parameter table (41_crc.md R161). -/
theorem crcRow?_of_table {s : State} {kind w : Nat} {poly init : Byte} (h : CrcTable s kind w poly init) :
    crcRow? s kind = some { width := w, poly := poly, init := init } := by
  rcases h with ⟨rfl, rfl, rfl, rfl⟩ | ⟨rfl, rfl, rfl, rfl⟩ | ⟨rfl, rfl, h1, h2⟩ | ⟨rfl, rfl, rfl, rfl⟩ |
    ⟨rfl, rfl, rfl, rfl⟩ <;> simp only [crcRow?]
  have := s.crc6Poly.isLt
  have := s.crc6Init.isLt
  congr 2 <;> apply BitVec.eq_of_toNat_eq
  · rw [h1, BitVec.toNat_setWidth]; omega
  · rw [h2, BitVec.toNat_setWidth]; omega

/-- The CRC register after a region is the fold over the fed bytes (41_crc.md R163). -/
theorem crcRegion_eq_foldl (s : State) (poly : Byte) (m : Bool) (a : Nat) (init : Byte) (n : Nat) :
    crcRegion s poly m a init n = (crcFed s m a n s.args.arg3.toNat).foldl (crcByte poly) init := by
  induction n with
  | zero => rfl
  | succ n ih =>
    rw [crcRegion, ih, crcFed, crcFed, List.range_succ, List.filter_append, List.map_append, List.foldl_append]
    by_cases h : crcIncludes s m n = true
    · rw [if_pos h]
      have h' : (!m || (s.memRead (s.args.arg3.toNat + n / 8)).getLsbD (7 - n % 8)) = true := h
      simp only [List.filter_cons, h']
      rfl
    · rw [if_neg h]
      have h' : ¬(!m || (s.memRead (s.args.arg3.toNat + n / 8)).getLsbD (7 - n % 8)) = true := h
      simp only [List.filter_cons, if_neg h']
      rfl

/-- covers is membership of the interpretation interval (42_wlsb.md R190). -/
theorem covers_iff {n : Nat} {pm : PMode} {pc : Word} {r v k : Nat} :
    covers n pm pc r v k = true ↔ InInterval n r v (shiftP pm pc k) k := by
  unfold covers InInterval
  rw [decide_eq_true_iff]
  have h : ((uN n ((v : Int) - uN n ((r : Int) - shiftP pm pc k)) : Nat) : Int)
      = (v - (r - shiftP pm pc k)) % ((2 ^ n : Nat) : Int) := by
    rw [uN_cast, uN_cast, Int.sub_emod_emod]
  rw [← h]
  omega

theorem coversAll_iff {x : WeInst} {v k : Nat} :
    x.coversAll v k = true ↔
      ∀ e ∈ x.win, InInterval x.n.bits e.value.toNat v (shiftP x.pmode x.pconst k) k := by
  simp [WeInst.coversAll, covers_iff]

/-- With k = n the interval is everything (42_wlsb.md R192). -/
theorem coversAll_width (x : WeInst) (v : Nat) : x.coversAll v x.n.bits = true := by
  rw [coversAll_iff]
  intro e _
  exact Int.emod_lt_of_pos _ (by positivity)

/-- kmin never exceeds n (42_wlsb.md R193). -/
theorem kmin_le (x : WeInst) (v : Nat) : x.kmin v ≤ x.n.bits := by
  unfold WeInst.kmin
  split
  · exact Nat.le_refl _
  · cases h : (List.range (x.n.bits + 1)).find? (fun k => x.coversAll v k) with
    | none => simp
    | some k =>
      have := List.mem_of_find?_eq_some h
      simp only [List.mem_range] at this
      simp only [Option.getD_some]
      omega

/-- kmin covers every entry (42_wlsb.md R193). -/
theorem coversAll_kmin (x : WeInst) (v : Nat) : x.coversAll v (x.kmin v) = true := by
  unfold WeInst.kmin
  split
  · exact coversAll_width x v
  · cases h : (List.range (x.n.bits + 1)).find? (fun k => x.coversAll v k) with
    | none => exact coversAll_width x v
    | some k => exact List.find?_some (p := fun k => x.coversAll v k) h

end Sys2Proof.Machine
end

