-- ==== Sys2Proof/Laws/Decode.lean ====
section
/-! SUPPORT. The laws of the command word (30_encoding.md R90 to R94): what each check of the decoder
accepts, and the fields of an encoded command. -/

namespace Sys2Proof

theorem decodePlain_ok {w : Word} {b : Nat} {i j : Instr} :
    decodePlain w b i = .ok j ↔ fieldOf w < b ∧ instOf w = 0 ∧ i = j := by
  unfold decodePlain
  split
  · exact ⟨fun h => (nomatch h), fun h => by omega⟩
  · split
    · exact ⟨fun h => (nomatch h), fun h => absurd h.2.1 ‹_›⟩
    · exact ⟨fun h => ⟨by omega, by omega, by simpa using h⟩, fun h => by rw [h.2.2]⟩

theorem decodeInst_ok {w : Word} {b : Nat} {i j : Instr} :
    decodeInst w b i = .ok j ↔ fieldOf w < b ∧ i = j := by
  unfold decodeInst
  split
  · exact ⟨fun h => (nomatch h), fun h => by omega⟩
  · exact ⟨fun h => ⟨by omega, by simpa using h⟩, fun h => by rw [h.2]⟩

theorem decodeCrc_ok {w : Word} {j : Instr} :
    decodeCrc w = .ok j ↔ fieldOf w < 128 ∧ (fieldOf w).testBit 3 = false ∧ instOf w = 0 ∧
      Instr.crc (fieldOf w % 8) ((fieldOf w).testBit 4) ((fieldOf w).testBit 5) ((fieldOf w).testBit 6) = j := by
  unfold decodeCrc
  split
  · rename_i hf
    refine ⟨fun h => (nomatch h), fun h => ?_⟩
    rcases hf with hf | hf
    · omega
    · rw [h.2.1] at hf; cases hf
  · rename_i hf
    rw [not_or, Bool.not_eq_true] at hf
    split
    · exact ⟨fun h => (nomatch h), fun h => absurd h.2.2.1 ‹_›⟩
    · exact ⟨fun h => ⟨by omega, hf.2, by omega, by simpa using h⟩, fun h => by rw [h.2.2.2]⟩

theorem instOf_lt (w : Word) : instOf w < 256 := by unfold instOf; omega

theorem fieldOf_lt (w : Word) : fieldOf w < 65536 := by unfold fieldOf; omega

/-- A word is its three fields (30_encoding.md R90). -/
theorem word_split (w : Word) : w.toNat = 2 ^ 24 * opcOf w + 2 ^ 16 * instOf w + fieldOf w := by
  simp only [opcOf, instOf, fieldOf, BitVec.extractLsb'_toNat, Nat.shiftRight_eq_div_pow]
  have := w.isLt
  omega

/-- The number of an encoded command (30_encoding.md R90). -/
theorem encode_toNat (i : Instr) :
    (encode i).toNat = 2 ^ 24 * i.opc.toNat + 2 ^ 16 * (i.instField % 2 ^ 8) + i.fieldBits % 2 ^ 16 := by
  have h1 := (BitVec.ofNat 8 i.instField).isLt
  have h2 := (BitVec.ofNat 16 i.fieldBits).isLt
  simp only [encode, BitVec.toNat_append]
  rw [← Nat.shiftLeft_add_eq_or_of_lt h2, ← Nat.shiftLeft_add_eq_or_of_lt h1, Nat.shiftLeft_eq,
    Nat.shiftLeft_eq]
  simp only [BitVec.toNat_ofNat]
  omega

theorem opcOf_eq (w : Word) : opcOf w = w.toNat / 2 ^ 24 := by
  have := word_split w; have := instOf_lt w; have := fieldOf_lt w; omega

theorem instOf_eq (w : Word) : instOf w = w.toNat / 2 ^ 16 % 2 ^ 8 := by
  have := word_split w; have := instOf_lt w; have := fieldOf_lt w; omega

theorem fieldOf_eq (w : Word) : fieldOf w = w.toNat % 2 ^ 16 := by
  have := word_split w; have := instOf_lt w; have := fieldOf_lt w; omega

theorem opcOf_encode (i : Instr) : opcOf (encode i) = i.opc.toNat := by
  have := encode_toNat i
  have := i.opc.isLt
  rw [opcOf_eq]; omega

theorem instOf_encode (i : Instr) : instOf (encode i) = i.instField % 2 ^ 8 := by
  have := encode_toNat i
  rw [instOf_eq]; omega

theorem fieldOf_encode (i : Instr) : fieldOf (encode i) = i.fieldBits % 2 ^ 16 := by
  have := encode_toNat i
  rw [fieldOf_eq]; omega

/-- The sub-fields of a legal CRC FIELD give it back (30_encoding.md R92). -/
theorem crcField_subfields (f : Nat) (h : f < 128) (h3 : f.testBit 3 = false) :
    crcField (f % 8) (f.testBit 4) (f.testBit 5) (f.testBit 6) = f := by
  revert f; decide

/-- The sub-fields of a CRC FIELD (30_encoding.md R92). -/
theorem subfields_crcField (k : Nat) (hk : k < 8) (d m c : Bool) :
    crcField k d m c < 128 ∧ (crcField k d m c).testBit 3 = false ∧ crcField k d m c % 8 = k ∧
    (crcField k d m c).testBit 4 = d ∧ (crcField k d m c).testBit 5 = m ∧
    (crcField k d m c).testBit 6 = c := by
  revert d m c; revert k; decide

/-- What the decoder has checked of a word it accepts (30_encoding.md R91). -/
theorem decode_inv {w : Word} {i : Instr} (h : decode w = .ok i) :
    opcOf w = i.opc.toNat ∧ instOf w = i.instField ∧ fieldOf w = i.fieldBits ∧ i.wf = true := by
  have hi := instOf_lt w
  unfold decode at h
  split at h
  case h_30 => cases h
  case h_11 ho =>
    rw [decodeCrc_ok] at h; obtain ⟨h1, h2, h3, rfl⟩ := h
    refine ⟨ho, h3, (crcField_subfields _ h1 h2).symm, ?_⟩
    simp [Instr.wf, kindFits]; omega
  all_goals
    rename_i ho
    first
    | (rw [decodePlain_ok] at h; obtain ⟨h1, h2, rfl⟩ := h)
    | (rw [decodeInst_ok] at h; obtain ⟨h1, rfl⟩ := h)
    simp only [Instr.opc, Instr.instField, Instr.fieldBits, Instr.wf, instFits, countFits, selBitFits, selFits,
      Bool.and_eq_true, decide_eq_true_eq, ho, BitVec.toNat_ofNat]
    simp
    try omega

end Sys2Proof
end

