-- ==== Sys2Proof/Laws/HostPort.lean ====
section
/-! SUPPORT. What an access of the host reaches (10_state.md R31, 20_memory.md R80), and what a step does
with it. -/

namespace Sys2Proof.Machine

theorem wordAccess_iff {offset bytes : Nat} : wordAccess offset bytes = true ↔ bytes = 4 ∧ offset % 4 = 0 := by
  simp [wordAccess]

/-- An aligned 32-bit access below the window reaches a register or a reserved offset. -/
theorem locate_word (s : State) {offset : Nat} (h : offset < 0x10000) (ha : offset % 4 = 0) :
    locate s offset 4 = .ok ((hostReg? offset).elim .none .reg) := by
  rw [locate, if_neg (by omega), if_neg (by omega), if_neg (by omega), if_pos (wordAccess_iff.2 ⟨rfl, ha⟩)]
  cases hostReg? offset <;> rfl

/-- No register lies above 0x050. -/
theorem hostReg?_none {offset : Nat} (h : 0x050 < offset) : hostReg? offset = none := by
  unfold hostReg?
  split <;> first | omega | rfl

/-- A byte access of the window inside MEM reaches its byte. -/
theorem locate_mem (s : State) {a : Nat} (h : a < s.memSize) (hm : s.memSize ≤ 65536) :
    locate s (0x10000 + a) 1 = .ok (.mem a) := by
  rw [locate, if_neg (by omega), if_neg (by omega), if_pos (by omega)]
  simp

/-- A byte access of the window past MEM reaches nothing. -/
theorem locate_hole (s : State) {a : Nat} (h : s.memSize ≤ a) (ha : a < 0x10000) :
    locate s (0x10000 + a) 1 = .ok .none := by
  rw [locate, if_neg (by omega), if_pos (by omega)]
  simp

theorem locate_past (s : State) {offset bytes : Nat} (h : 0x20000 ≤ offset) :
    locate s offset bytes = .error .hostOffset := by
  rw [locate, if_pos h]

theorem locate_badRegister (s : State) {offset bytes : Nat} (h : offset < 0x10000)
    (hb : bytes ≠ 4 ∨ offset % 4 ≠ 0) : locate s offset bytes = .error .hostWidth := by
  rw [locate, if_neg (by omega), if_neg (by omega), if_neg (by omega), if_neg]
  rw [wordAccess_iff]; omega

theorem locate_badWindow (s : State) {offset bytes : Nat} (hm : s.memSize ≤ 65536) (h : 0x10000 ≤ offset)
    (ho : offset < 0x10000 + s.memSize) (hb : bytes ≠ 1) : locate s offset bytes = .error .hostWidth := by
  rw [locate, if_neg (by omega), if_neg (by omega), if_pos h, if_neg (by simpa using hb)]

theorem step_read {s : State} {offset bytes : Nat} {rest : List Access} {t : Target}
    (hb : s.bus = .read offset bytes :: rest) (hl : locate (s.setBus rest) offset bytes = .ok t) :
    step s = .next ((s.setBus rest).record (readTarget (s.setBus rest) t)) := by
  simp only [step, hb, access, hl]

theorem step_write {s : State} {offset bytes : Nat} {d : Word} {rest : List Access} {t : Target}
    (hb : s.bus = .write offset bytes d :: rest) (hl : locate (s.setBus rest) offset bytes = .ok t) :
    step s = writeTarget t d (s.setBus rest) := by
  simp only [step, hb, access, hl]

theorem step_refused {s : State} {a : Access} {offset bytes : Nat} {rest : List Access} {r : Refusal}
    (hb : s.bus = a :: rest) (ha : a = .read offset bytes ∨ ∃ d, a = .write offset bytes d)
    (hl : locate (s.setBus rest) offset bytes = .error r) : step s = .refused r := by
  rcases ha with rfl | ⟨d, rfl⟩ <;> simp only [step, hb, access, hl]

theorem step_reset {s : State} {rest : List Access} (hb : s.bus = .reset :: rest) :
    step s = .next (platformReset (s.setBus rest)) := by
  simp only [step, hb, access]

end Sys2Proof.Machine
end

