-- ==== Sys2Proof/Laws/PerInstr.lean ====
section
/-! SUPPORT. The per-instruction law of the encoding: the word of a well-formed command carries its OPC,
INST and FIELD whole (30_encoding.md R90, R92). -/

namespace Sys2Proof.Laws.WordFields

/-- The three fields of the word of a well-formed command are the command's own. -/
def Statement (i : Instr) : Prop :=
  i.wf = true → opcOf (encode i) = i.opc.toNat ∧ instOf (encode i) = i.instField ∧
    fieldOf (encode i) = i.fieldBits

/-- Operands that fit their fields are not cut off. -/
theorem of_fits {i : Instr} (h : i.wf = true → i.instField < 2 ^ 8 ∧ i.fieldBits < 2 ^ 16) : Statement i := by
  intro hw
  obtain ⟨hi, hf⟩ := h hw
  rw [opcOf_encode, instOf_encode, fieldOf_encode, Nat.mod_eq_of_lt hi, Nat.mod_eq_of_lt hf]
  exact ⟨rfl, rfl, rfl⟩

theorem instFits_lt {n : Nat} (h : instFits n = true) : n < 2 ^ 8 := by simpa [instFits] using h

theorem countFits_lt {n : Nat} (h : countFits n = true) : n < 2 ^ 16 := by
  have : n < 64 := by simpa [countFits] using h
  omega

theorem selBitFits_lt {n : Nat} (h : selBitFits n = true) : n < 2 ^ 16 := by
  have : n < 2 := by simpa [selBitFits] using h
  omega

theorem selFits_lt {n : Nat} (h : selFits n = true) : n < 2 ^ 16 := by
  have : n < 16 := by simpa [selFits] using h
  omega

theorem zero_fits8 : (0 : Nat) < 2 ^ 8 := by decide

theorem zero_fits : (0 : Nat) < 2 ^ 16 := by decide

theorem nop : Statement (.nop) :=
  of_fits fun _ => ⟨zero_fits8, zero_fits⟩

theorem brInit : Statement (.brInit) :=
  of_fits fun _ => ⟨zero_fits8, zero_fits⟩

theorem brRead (n : Nat) : Statement (.brRead n) :=
  of_fits fun h => ⟨zero_fits8, countFits_lt h⟩

theorem brPeek (n : Nat) : Statement (.brPeek n) :=
  of_fits fun h => ⟨zero_fits8, countFits_lt h⟩

theorem brAlign : Statement (.brAlign) :=
  of_fits fun _ => ⟨zero_fits8, zero_fits⟩

theorem bwInit : Statement (.bwInit) :=
  of_fits fun _ => ⟨zero_fits8, zero_fits⟩

theorem bwWrite (n : Nat) : Statement (.bwWrite n) :=
  of_fits fun h => ⟨zero_fits8, countFits_lt h⟩

theorem bwAlign : Statement (.bwAlign) :=
  of_fits fun _ => ⟨zero_fits8, zero_fits⟩

theorem sdvlEnc : Statement (.sdvlEnc) :=
  of_fits fun _ => ⟨zero_fits8, zero_fits⟩

theorem sdvlDec : Statement (.sdvlDec) :=
  of_fits fun _ => ⟨zero_fits8, zero_fits⟩

theorem crc (kind : Nat) (d : Bool) (m : Bool) (c : Bool) : Statement (.crc kind d m c) :=
  of_fits fun h => ⟨zero_fits8, by
    have := (subfields_crcField kind (by simpa [Instr.wf, kindFits] using h) d m c).1
    exact Nat.lt_trans this (by decide)⟩

theorem weCfg (inst : Nat) : Statement (.weCfg inst) :=
  of_fits fun h => ⟨instFits_lt h, zero_fits⟩

theorem weAdd (inst : Nat) : Statement (.weAdd inst) :=
  of_fits fun h => ⟨instFits_lt h, zero_fits⟩

theorem weK (inst : Nat) : Statement (.weK inst) :=
  of_fits fun h => ⟨instFits_lt h, zero_fits⟩

theorem weInfo (inst : Nat) (sel : Nat) : Statement (.weInfo inst sel) :=
  of_fits fun h =>
    ⟨instFits_lt ((Bool.and_eq_true _ _).mp h).1, selBitFits_lt ((Bool.and_eq_true _ _).mp h).2⟩

theorem weEntry (inst : Nat) : Statement (.weEntry inst) :=
  of_fits fun h => ⟨instFits_lt h, zero_fits⟩

theorem wdCfg (inst : Nat) : Statement (.wdCfg inst) :=
  of_fits fun h => ⟨instFits_lt h, zero_fits⟩

theorem wdSetref (inst : Nat) : Statement (.wdSetref inst) :=
  of_fits fun h => ⟨instFits_lt h, zero_fits⟩

theorem wdDec (inst : Nat) (k : Nat) : Statement (.wdDec inst k) :=
  of_fits fun h =>
    ⟨instFits_lt ((Bool.and_eq_true _ _).mp h).1, countFits_lt ((Bool.and_eq_true _ _).mp h).2⟩

theorem wdRd (inst : Nat) (sel : Nat) : Statement (.wdRd inst sel) :=
  of_fits fun h =>
    ⟨instFits_lt ((Bool.and_eq_true _ _).mp h).1, selBitFits_lt ((Bool.and_eq_true _ _).mp h).2⟩

theorem tseCfg (inst : Nat) : Statement (.tseCfg inst) :=
  of_fits fun h => ⟨instFits_lt h, zero_fits⟩

theorem tseEnc (inst : Nat) : Statement (.tseEnc inst) :=
  of_fits fun h => ⟨instFits_lt h, zero_fits⟩

theorem tseRd (inst : Nat) (sel : Nat) : Statement (.tseRd inst sel) :=
  of_fits fun h =>
    ⟨instFits_lt ((Bool.and_eq_true _ _).mp h).1, selFits_lt ((Bool.and_eq_true _ _).mp h).2⟩

theorem tsdCfg (inst : Nat) : Statement (.tsdCfg inst) :=
  of_fits fun h => ⟨instFits_lt h, zero_fits⟩

theorem tsdStride (inst : Nat) : Statement (.tsdStride inst) :=
  of_fits fun h => ⟨instFits_lt h, zero_fits⟩

theorem tsdScaled (inst : Nat) : Statement (.tsdScaled inst) :=
  of_fits fun h => ⟨instFits_lt h, zero_fits⟩

theorem tsdDeduce (inst : Nat) : Statement (.tsdDeduce inst) :=
  of_fits fun h => ⟨instFits_lt h, zero_fits⟩

theorem tsdCommit (inst : Nat) : Statement (.tsdCommit inst) :=
  of_fits fun h => ⟨instFits_lt h, zero_fits⟩

theorem tsdRd (inst : Nat) (sel : Nat) : Statement (.tsdRd inst sel) :=
  of_fits fun h =>
    ⟨instFits_lt ((Bool.and_eq_true _ _).mp h).1, selFits_lt ((Bool.and_eq_true _ _).mp h).2⟩

end Sys2Proof.Laws.WordFields
end

