-- ==== Sys2Proof/Tests/Slice0.lean ====
section
/-! SUPPORT. The model's own tests. Expected results are those of spec/95_test_vectors.md or of the rule's
own example; the group (V-..., or the rule) is named at each. Every test is one step or one command on a
small state in which every byte read is listed, so no free value is looked at. -/

namespace Sys2Proof.Tests

open Sys2Proof Sys2Proof.Machine Sys2Proof.Safety

/-- The parameters of 95_test_vectors.md section 0, with the CRC-6 candidate of its V-CRC-8. -/
def params : Params :=
  { memSize := 256, numWe := 4, numWd := 4, numTse := 4, numTsd := 4, crc6Poly := 0x30#6, crc6Init := 0x3F#6 }

/-- The bytes the vectors use: the header of V-CRC at 0x00, its mask at 0x30, the bytes of V-BIO-1 at 0x40,
those of V-SDVL-4 at 0x50 and of V-BW-1 at 0x80. -/
def bytes : Memory :=
  [(0x00, 0x45#8), (0x01, 0x00#8), (0x02, 0x00#8), (0x03, 0x1C#8), (0x04, 0x12#8), (0x05, 0x34#8),
   (0x06, 0x40#8), (0x07, 0x00#8), (0x30, 0xCF#8), (0x40, 0x5A#8), (0x41, 0xC3#8), (0x42, 0xFF#8)] ++
  [(0x50, 0xA8#8), (0x51, 0x12#8), (0x52, 0xC0#8), (0x53, 0xC0#8), (0x54, 0x40#8), (0x80, 0xFF#8),
   (0x81, 0xFF#8), (0x82, 0xFF#8), (0x83, 0xFF#8)]

/-- The block after reset with those bytes written. -/
def base : State := (State.resetWith params 0 [] []).setMem bytes

/-- The block with ARG0 .. ARG4 written. -/
def withArgs (a0 a1 a2 a3 a4 : Nat) (s : State) : State :=
  s.setArgs { arg0 := toWord a0, arg1 := toWord a1, arg2 := toWord a2, arg3 := toWord a3, arg4 := toWord a4
              arg5 := 0#32 }

/-- A stream over a region, at a cursor. -/
def stream (base len pos : Nat) : Stream := { base := toWord base, len := toWord len, pos := toWord pos }

/-- The outcome is a next state that passes the check. -/
def next (r : Result) (p : State → Bool) : Bool :=
  match r with
  | .next t => p t
  | .fault _ => false
  | .refused _ => false

/-- The outcome is a next state with this code and these results. -/
def gives (r : Result) (code : ErrCode) (v w : Nat) : Bool :=
  next r fun t => t.status.code == code && t.res0.toNat == v && t.res1.toNat == w

/-- A step that carries out one access of the host. -/
def host (a : Access) (s : State) : Result := step (s.setBus [a])

/-! ### WellFormed: each check refuses an operand that does not fit -/

theorem smoke_inst_256_is_ill_formed : (Instr.weCfg 256).wf = false ∧ (Instr.weCfg 255).wf = true := by decide

theorem smoke_inst_256_is_ill_formed_in_every_unit :
    (Instr.wdDec 256 1).wf = false ∧ (Instr.tseRd 256 1).wf = false ∧ (Instr.tsdCommit 256).wf = false := by decide

theorem smoke_count_64_is_ill_formed :
    (Instr.brRead 64).wf = false ∧ (Instr.brPeek 64).wf = false ∧ (Instr.bwWrite 64).wf = false ∧
    (Instr.wdDec 0 64).wf = false ∧ (Instr.brRead 63).wf = true := by decide

theorem smoke_kind_8_is_ill_formed :
    (Instr.crc 8 false false false).wf = false ∧ (Instr.crc 7 true true true).wf = true := by decide

theorem smoke_sel_2_is_ill_formed :
    (Instr.weInfo 0 2).wf = false ∧ (Instr.wdRd 0 2).wf = false ∧ (Instr.weInfo 0 1).wf = true := by decide

theorem smoke_sel_16_is_ill_formed :
    (Instr.tseRd 0 16).wf = false ∧ (Instr.tsdRd 0 16).wf = false ∧ (Instr.tsdRd 0 15).wf = true := by decide

/-! ### Decoding: a word written out from the opcode map for every constructor (30_encoding.md R90, R94) -/

theorem test_decode_bio :
    decode 0b00000000_00000000_0000000000000000#32 = .ok .nop ∧
    decode 0b00000001_00000000_0000000000000000#32 = .ok .brInit ∧
    decode 0b00000010_00000000_0000000000100000#32 = .ok (.brRead 32) ∧
    decode 0b00000011_00000000_0000000000000011#32 = .ok (.brPeek 3) ∧
    decode 0b00000100_00000000_0000000000000000#32 = .ok .brAlign ∧
    decode 0b00000101_00000000_0000000000000000#32 = .ok .bwInit ∧
    decode 0b00000110_00000000_0000000000001001#32 = .ok (.bwWrite 9) ∧
    decode 0b00000111_00000000_0000000000000000#32 = .ok .bwAlign ∧
    decode 0b00001000_00000000_0000000000000000#32 = .ok .sdvlEnc ∧
    decode 0b00001001_00000000_0000000000000000#32 = .ok .sdvlDec := by decide

theorem test_decode_crc :
    decode 0b00010000_00000000_0000000000010100#32 = .ok (.crc 4 true false false) ∧
    decode 0b00010000_00000000_0000000000100001#32 = .ok (.crc 1 false true false) ∧
    decode 0b00010000_00000000_0000000001000011#32 = .ok (.crc 3 false false true) := by decide

theorem test_decode_wlsb :
    decode 0b00100000_00000001_0000000000000000#32 = .ok (.weCfg 1) ∧
    decode 0b00100001_00000011_0000000000000000#32 = .ok (.weAdd 3) ∧
    decode 0b00100010_11111111_0000000000000000#32 = .ok (.weK 255) ∧
    decode 0b00100011_00000010_0000000000000001#32 = .ok (.weInfo 2 1) ∧
    decode 0b00100100_00000010_0000000000000000#32 = .ok (.weEntry 2) ∧
    decode 0b00101000_00000010_0000000000000000#32 = .ok (.wdCfg 2) ∧
    decode 0b00101001_00000010_0000000000000000#32 = .ok (.wdSetref 2) ∧
    decode 0b00101010_00000001_0000000000000100#32 = .ok (.wdDec 1 4) ∧
    decode 0b00101011_00000001_0000000000000001#32 = .ok (.wdRd 1 1) := by decide

theorem test_decode_tsc :
    decode 0b00110000_00000001_0000000000000000#32 = .ok (.tseCfg 1) ∧
    decode 0b00110001_00000010_0000000000000000#32 = .ok (.tseEnc 2) ∧
    decode 0b00110010_00000000_0000000000000011#32 = .ok (.tseRd 0 3) ∧
    decode 0b00111000_00000001_0000000000000000#32 = .ok (.tsdCfg 1) ∧
    decode 0b00111001_00000001_0000000000000000#32 = .ok (.tsdStride 1) ∧
    decode 0b00111010_00000001_0000000000000000#32 = .ok (.tsdScaled 1) ∧
    decode 0b00111011_00000001_0000000000000000#32 = .ok (.tsdDeduce 1) ∧
    decode 0b00111100_00000001_0000000000000000#32 = .ok (.tsdCommit 1) ∧
    decode 0b00111101_00000010_0000000000000101#32 = .ok (.tsdRd 2 5) := by decide

/-- V-DEC-1 and V-CRC-7: the illegal words, with the check each fails first (30_encoding.md R91). -/
theorem test_decode_refuses :
    decode 0x00000001#32 = .error .reservedField ∧ decode 0x00010000#32 = .error .instNotZero ∧
    decode 0xFF000000#32 = .error .unknownOpcode ∧ decode 0x0A000000#32 = .error .unknownOpcode ∧
    decode 0x01010000#32 = .error .instNotZero ∧ decode 0x02000040#32 = .error .reservedField ∧
    decode 0x22000001#32 = .error .reservedField ∧ decode 0x2A050040#32 = .error .reservedField ∧
    decode 0x10000008#32 = .error .reservedField ∧ decode 0x10000080#32 = .error .reservedField ∧
    decode 0x10010014#32 = .error .instNotZero := by decide

/-- No two rows of opcode_table.json share a word. -/
theorem test_rows_are_disjoint :
    opcodeTable.Pairwise (fun a b => a.1 &&& (a.2 &&& b.2) ≠ b.1 &&& (a.2 &&& b.2)) := by decide

theorem test_table_word : decodeTableWord 32 0x2A010004 = some (.wdDec 1 4) ∧ decodeTableWord 32 0xFF000000 = none := by
  decide

/-! ### The host port (V-DEC-1 to V-DEC-3) -/

theorem test_fetch_word_runs :
    next (step (base.withFetchWord 32 0x02000021)) (fun t => t.status.word == 0x00020102#32 && t.cmdCount == 1#32) := by
  decide

theorem test_illegal_word_status :
    next (host (.write 0x004 4 0xFF000000#32) base) (fun t => t.status.word == 0x00FF0101#32 && t.cmdCount == 1#32) := by
  decide

theorem test_read_id : next (host (.read 0x000 4) base) (fun t => t.seen == [0x574C5342#32]) := by decide

theorem test_read_cfg_inst : next (host (.read 0x04C 4) base) (fun t => t.seen == [0x03030303#32]) := by decide

theorem test_read_past_mem : next (host (.read 0x10100 1) base) (fun t => t.seen == [0#32]) := by decide

/-- V-DEC-2: a 1 in bit 8 clears STICKY, any other bit is ignored (10_state.md R33). -/
theorem test_clear_sticky :
    next (host (.write 0x008 4 0x100#32) (complete 0x02#8 .malformed base)) (fun t => t.status.word == 0x00020004#32) ∧
    next (host (.write 0x008 4 0x0FF#32) (complete 0x02#8 .malformed base)) (fun t => t.status.word == 0x00020104#32) := by
  decide

theorem test_window_write :
    next (host (.write 0x10080 1 0x12345678#32) base) (fun t => t.memRead 0x80 == 0x78#8 && t.memRead 0x81 == 0xFF#8) := by
  decide

theorem test_word_write_to_window_refused :
    (match host (.write 0x10080 4 0#32) base with | .refused r => r == .hostWidth | _ => false) = true := by decide

theorem test_reset_access :
    next (host .reset (complete 0x02#8 .malformed base)) (fun t => t.status.word == 0#32 && t.draw == 1 && t.mem == []) := by
  decide

/-! ### BIO (V-BIO, V-BW, V-SDVL) -/

theorem test_nop : next (exec .nop (complete 0x02#8 .malformed base)) (fun t => t.status.word == 0x00000100#32) := by decide

theorem test_br_init_last_byte :
    next (exec .brInit (withArgs 250 6 0 0 0 base)) (fun t => t.reader == stream 250 6 0) := by decide

theorem test_br_init_past_mem :
    next (exec .brInit (withArgs 250 7 0 0 0 base)) (fun t => t.status.code == .badAddress && t.reader == stream 0 0 0) := by
  decide

theorem test_br_read_across_bytes :
    next (exec (.brRead 8) (base.setReader (stream 0x40 3 4))) (fun t => t.res0 == 0xAC#32 && t.reader.pos == 12#32) := by
  decide

theorem test_br_read_past_end :
    next (exec (.brRead 32) (base.setReader (stream 0x40 3 12)))
      (fun t => t.status.code == .malformed && t.reader.pos == 12#32) := by decide

theorem test_br_peek_keeps_cursor :
    next (exec (.brPeek 3) (base.setReader (stream 0x40 3 12))) (fun t => t.res0 == 1#32 && t.reader.pos == 12#32) := by
  decide

theorem test_br_align :
    next (exec .brAlign (base.setReader (stream 0x40 3 12))) (fun t => t.reader.pos == 16#32) ∧
    next (exec .brAlign (base.setReader (stream 0x40 3 16))) (fun t => t.reader.pos == 16#32) := by decide

theorem test_bw_init : next (exec .bwInit (withArgs 0x80 4 0 0 0 base)) (fun t => t.writer == stream 0x80 4 0) := by decide

theorem test_bw_write_first_bit :
    next (exec (.bwWrite 1) (withArgs 0 0 0 0 0 (base.setWriter (stream 0x80 4 0))))
      (fun t => t.memRead 0x80 == 0x7F#8 && t.memRead 0x81 == 0xFF#8 && t.writer.pos == 1#32) := by decide

theorem test_bw_write_low_bits_only :
    next (exec (.bwWrite 16) (withArgs 0x12345 0 0 0 0 (base.setWriter (stream 0x80 4 8))))
      (fun t => t.memRead 0x80 == 0xFF#8 && t.memRead 0x81 == 0x23#8 && t.memRead 0x82 == 0x45#8 &&
        t.memRead 0x83 == 0xFF#8) := by decide

theorem test_bw_align :
    next (exec .bwAlign (base.setWriter (stream 0x80 4 5))) (fun t => t.memRead 0x80 == 0xF8#8 && t.writer.pos == 8#32) := by
  decide

/-- V-SDVL-3: 300 after the four bits 1010. -/
theorem test_sdvl_enc_unaligned :
    next (exec .sdvlEnc (withArgs 300 0 0 0 0 ((base.setMem [(0, 0xA0#8), (1, 0#8), (2, 0#8)]).setWriter (stream 0 3 4))))
      (fun t => t.memRead 0 == 0xA8#8 && t.memRead 1 == 0x12#8 && t.memRead 2 == 0xC0#8 && t.res0 == 2#32 &&
        t.writer.pos == 20#32) := by decide

theorem test_sdvl_enc_too_large :
    gives (exec .sdvlEnc (withArgs (2 ^ 29) 0 0 0 0 (base.setWriter (stream 0 1 0)))) .malformedSdvl 0 0 := by decide

/-- V-SDVL-5. -/
theorem test_sdvl_dec_unaligned :
    gives (exec .sdvlDec (base.setReader (stream 0x50 3 4))) .ok 300 2 := by decide

theorem test_sdvl_dec_cut_off :
    gives (exec .sdvlDec (base.setReader (stream 0x53 2 0))) .malformedSdvl 0 0 := by decide

/-! ### CRC (V-CRC) -/

theorem test_crc8 :
    gives (exec (.crc 4 true false false) (withArgs 0 8 0 0 0 base)) .ok 0xDB 0 ∧
    gives (exec (.crc 4 true true false) (withArgs 0 8 0 0x30 0 base)) .ok 0x49 0 := by decide +kernel

theorem test_crc_mismatch_writes_res0 :
    gives (exec (.crc 4 true false true) (withArgs 0 8 0 0 0xDA base)) .crcMismatch 0xDB 0 ∧
    gives (exec (.crc 3 true false false) (withArgs 0 8 0 0 0 base)) .ok 0x13 0 := by decide +kernel

/-! ### W-LSB (V-WE, V-WD) -/

/-- An encoder of n 16, p constant, W 4, snw 16 with this window, oldest first. -/
def encoder (pconst : Word) (win : List (Nat × Nat)) : WeInst :=
  { WeInst.reset with
    pconst := pconst, win := win.map fun e => { value := toWord e.1, sn := toWord e.2 } }

/-- A decoder of n 16 with a reference. -/
def decoder (pconst : Word) (ref : Nat) : WdInst :=
  { WdInst.reset with pconst := pconst, ref := toWord ref, refValid := true }

theorem test_we_cfg_bad_width :
    next (exec (.weCfg 0) (withArgs 13 0 0 4 16 base)) (fun t => t.status.code == .illegalOperand) := by decide

theorem test_we_cfg :
    next (exec (.weCfg 3) (withArgs 32 1 0 256 12 base))
      (fun t => t.we[3]? == some { n := .w32, pmode := .rtpTs, pconst := 0#32, w := .twoFiftySix, snw := .w12, win := [] }) := by
  decide

theorem test_we_add_evicts_oldest :
    next (exec (.weAdd 0) (withArgs 104 104 0 0 0
        (base.setWe 0 (encoder 0#32 [(100, 100), (101, 101), (102, 102), (103, 103)]))))
      (fun t => t.we[0]? == some (encoder 0#32 [(101, 101), (102, 102), (103, 103), (104, 104)])) := by decide

/-- V-WE-8: a distance of exactly 2^15 is kept, one more is purged. -/
theorem test_we_add_purges :
    next (exec (.weAdd 0) (withArgs 9 0x8005 0 0 0 (base.setWe 0 (encoder 0#32 [(5, 5)]))))
      (fun t => t.we[0]? == some (encoder 0#32 [(5, 5), (9, 0x8005)])) ∧
    next (exec (.weAdd 0) (withArgs 9 0x8006 0 0 0 (base.setWe 0 (encoder 0#32 [(5, 5)]))))
      (fun t => t.we[0]? == some (encoder 0#32 [(9, 0x8006)])) := by decide

theorem test_we_k :
    gives (exec (.weK 0) (withArgs 1016 0 0 0 0 (base.setWe 0 (encoder 0#32 [(1000, 1000)])))) .ok 5 24 ∧
    gives (exec (.weK 0) (withArgs 1234 0 0 0 0 base)) .ok 16 1234 := by decide

/-- V-WE-3: p = -1. V-WE-6: the interval wraps. -/
theorem test_we_k_shift_and_wrap :
    gives (exec (.weK 0) (withArgs 1000 0 0 0 0 (base.setWe 0 (encoder 0xFFFFFFFF#32 [(1000, 1000)])))) .ok 16 1000 ∧
    gives (exec (.weK 0) (withArgs 1 0 0 0 0 (base.setWe 0 (encoder 0#32 [(0xFFFE, 0xFFFE)])))) .ok 2 1 := by decide

theorem test_we_info :
    gives (exec (.weInfo 0 0) (base.setWe 0 (encoder 0#32 [(5, 5), (9, 0x8005)]))) .ok 2 0x00101003 ∧
    gives (exec (.weInfo 0 1) (base.setWe 0 (encoder 0xFFFFFFFF#32 []))) .ok 0xFFFFFFFF 0 := by decide

theorem test_we_entry :
    gives (exec (.weEntry 0) (withArgs 1 0 0 0 0 (base.setWe 0 (encoder 0#32 [(5, 6), (7, 8)])))) .ok 7 8 ∧
    gives (exec (.weEntry 0) (withArgs 2 0 0 0 0 (base.setWe 0 (encoder 0#32 [(5, 6), (7, 8)])))) .illegalOperand 0 0 := by
  decide

theorem test_wd_cfg_clears_reference :
    next (exec (.wdCfg 0) (withArgs 12 1 7 0 0 (base.setWd 0 (decoder 0#32 5))))
      (fun t => t.wd[0]? == some { n := .w12, pmode := .rtpTs, pconst := 7#32, ref := 0#32, refValid := false }) := by decide

theorem test_wd_setref_reduces :
    next (exec (.wdSetref 0) (withArgs 0x12345 0 0 0 0 base)) (fun t => t.wd[0]? == some (decoder 0#32 0x2345)) := by decide

theorem test_wd_dec :
    gives (exec (.wdDec 0 4) (withArgs 15 0 0 0 0 (base.setWd 0 (decoder 0#32 104)))) .ok 111 0 ∧
    gives (exec (.wdDec 0 1) (withArgs 1 0 0 0 0 (base.setWd 0 (decoder 0xFFFFFFFF#32 1000)))) .ok 1001 0 := by decide

theorem test_wd_dec_errors :
    gives (exec (.wdDec 0 17) base) .illegalOperand 0 0 ∧ gives (exec (.wdDec 0 3) base) .noReference 0 0 := by decide

theorem test_wd_rd :
    gives (exec (.wdRd 0 0) (base.setWd 0 (decoder 0#32 0x2345))) .ok 0x2345 0x80001000 ∧
    gives (exec (.wdRd 0 1) (base.setWd 0 (decoder 0xFFFFFFFF#32 0))) .ok 0xFFFFFFFF 0 := by decide

/-! ### Scaled TS (V-TSE, V-TSD) -/

/-- A TS encoder of L 3 and snw 16 whose last packet was (ts, sn), with this stride and count. -/
def tse (state : TseState) (ts sn stride count : Nat) : TseInst :=
  { TseInst.reset with
    state := state, haveOld := true, oldTs := toWord ts, oldSn := toWord sn, tsStride := toWord stride
    tsOffset := toWord (ts % stride), tsScaled := toWord (ts / stride), strideCount := BitVec.ofNat 8 count }

/-- A TS decoder of snw 16 with a stride and the reference (ts, sn). -/
def tsd (stride ts sn : Nat) : TsdInst :=
  { TsdInst.reset with
    stride := toWord stride, offset := toWord (ts % stride), scaledRef := toWord (ts / stride)
    tsRef := toWord ts, snRef := toWord sn, refValid := true }

theorem test_tse_cfg :
    next (exec (.tseCfg 0) (withArgs 255 12 0 0 0 (base.setTse 0 (tse .sendScaled 2000 1000 160 3))))
      (fun t => t.tse[0]? == some { TseInst.reset with l := 255#8, snw := .w12 }) := by decide

theorem test_tse_cfg_bad_repetitions :
    next (exec (.tseCfg 0) (withArgs 256 16 0 0 0 base)) (fun t => t.status.code == .illegalOperand) := by decide

/-- V-TSE-1: packet 2 enters INIT_STRIDE; V-TSE-3: a jump is sent with all bits. -/
theorem test_tse_enc :
    gives (exec (.tseEnc 0) (withArgs 2160 1001 0 0 0 (base.setTse 0
      { TseInst.reset with haveOld := true, oldTs := 2000#32, oldSn := 1000#32 }))) .ok 13 0x10D ∧
    gives (exec (.tseEnc 0) (withArgs 3280 1005 0 0 0 (base.setTse 0 (tse .sendScaled 2640 1004 160 3)))) .ok 20 0x322 := by
  decide

/-- V-TSE-2: the wrap-around changes the offset, so the stride is sent again. -/
theorem test_tse_enc_wraps :
    gives (exec (.tseEnc 0) (withArgs 0x50 107 0 0 0 (base.setTse 0 (tse .sendScaled 0xFFFFFFB0 106 160 3)))) .ok 0 0x10D ∧
    gives (exec (.tseEnc 0) (withArgs 2640 1004 0 0 0 (base.setTse 0 (tse .sendScaled 2480 1003 160 3)))) .ok 16 0x312 := by
  decide

theorem test_tse_rd :
    gives (exec (.tseRd 0 1) (base.setTse 0 (tse .sendScaled 300 4 50 1))) .ok 50 0 ∧
    gives (exec (.tseRd 0 10) base) .illegalOperand 0 0 := by decide

theorem test_tsd_cfg :
    next (exec (.tsdCfg 0) (withArgs 12 0 0 0 0 (base.setTsd 0 (tsd 160 2000 1000))))
      (fun t => t.tsd[0]? == some { TsdInst.reset with snw := .w12 }) := by decide

theorem test_tsd_stride_splits :
    next (exec (.tsdStride 0) (withArgs 160 0 0 0 0 (base.setTsd 0
        { TsdInst.reset with tsRef := 2000#32, snRef := 1000#32, refValid := true })))
      (fun t => t.tsd[0]? == some (tsd 160 2000 1000)) := by decide

theorem test_tsd_stride_zero :
    next (exec (.tsdStride 0) (withArgs 0 0 0 0 0 base)) (fun t => t.status.code == .illegalOperand) := by decide

theorem test_tsd_scaled :
    gives (exec (.tsdScaled 0) (withArgs 20 0 0 0 0 (base.setTsd 0 (tsd 160 2000 1000)))) .ok 3280 0 ∧
    gives (exec (.tsdScaled 0) (withArgs 1 0 0 0 0 base)) .noReference 0 0 := by decide

theorem test_tsd_deduce :
    gives (exec (.tsdDeduce 0) (withArgs 1003 0 0 0 0 (base.setTsd 0 (tsd 160 2000 1000)))) .ok 2480 15 ∧
    gives (exec (.tsdDeduce 0) (withArgs 65534 0 0 0 0 (base.setTsd 0 (tsd 160 100 65535)))) .ok 0xFFFFFFC4 0xFFFFFFFF := by
  decide

theorem test_tsd_commit :
    next (exec (.tsdCommit 0) (withArgs 100 65535 0 0 0 (base.setTsd 0 (tsd 160 2000 1000))))
      (fun t => t.tsd[0]? == some (tsd 160 100 65535)) := by decide

theorem test_tsd_rd :
    gives (exec (.tsdRd 0 5) (base.setTsd 0 (tsd 160 2000 1000))) .ok 3 0 ∧
    gives (exec (.tsdRd 0 7) base) .illegalOperand 0 0 := by decide

/-! ### Witnesses: for every statement with premises, states and operands that meet them, each clause at the
boundary of its range -/

/-- Every unit of the test block after reset meets its invariant. -/
theorem inv_base : Inv base where
  params := by decide
  mem := ⟨by decide, by decide⟩
  reader := ⟨by decide, by decide⟩
  writer := ⟨by decide, by decide⟩
  we := by
    intro x hx
    rw [List.eq_of_mem_replicate (show x ∈ List.replicate 4 WeInst.reset from hx)]
    exact ⟨by decide, by decide, by decide⟩
  wd := by
    intro x hx
    rw [List.eq_of_mem_replicate (show x ∈ List.replicate 4 WdInst.reset from hx)]
    exact ⟨by decide⟩
  tse := by
    intro x hx
    rw [List.eq_of_mem_replicate (show x ∈ List.replicate 4 TseInst.reset from hx)]
    refine ⟨?_, ?_, ?_, ?_, ?_, ?_, ?_, ?_, ?_, ?_⟩ <;> decide
  tsd := by
    intro x hx
    rw [List.eq_of_mem_replicate (show x ∈ List.replicate 4 TsdInst.reset from hx)]
    refine ⟨?_, ?_, ?_, ?_, ?_⟩ <;> decide
  code := by decide

theorem witness_DecodeOfEncodeIsTheCommand :
    (Instr.wdDec 255 63).wf = true ∧ (Instr.crc 7 true true true).wf = true ∧ (Instr.tsdRd 255 15).wf = true ∧
    (Instr.weInfo 255 1).wf = true ∧ (Instr.bwWrite 63).wf = true := by decide

theorem witness_EncodeOfDecodeIsTheWord :
    decode 0x2AFF003F#32 = .ok (.wdDec 255 63) ∧ decode 0x10000077#32 = .ok (.crc 7 true true true) := by decide

theorem witness_DecodesExactlyTheRowsOfTheTable :
    decode 0x3DFF000F#32 = .ok (.tsdRd 255 15) ∧ ∃ row ∈ opcodeTable, 0x3DFF000F#32 &&& row.2 = row.1 := by decide

/-- One word for each of the twelve clauses, at its boundary, and an operand for each of the others. -/
theorem witness_IllegalEncodingsOnlySetTheErrorCode :
    (0x0A000000#32).toNat / 2 ^ 24 = 0x0A ∧ (0x1F000000#32).toNat / 2 ^ 24 = 0x1F ∧
    (0x25000000#32).toNat / 2 ^ 24 = 0x25 ∧ (0x2F000000#32).toNat / 2 ^ 24 = 0x2F ∧
    (0x33000000#32).toNat / 2 ^ 24 = 0x33 ∧ (0x3E000000#32).toNat / 2 ^ 24 = 0x3E ∧
    (0x02000040#32).toNat % 2 ^ 16 = 2 ^ 6 ∧ ((0x10000008#32).toNat % 2 ^ 16).testBit 3 = true ∧
    (0x23000002#32).toNat % 2 ^ 16 = 2 ∧ (0x3D000010#32).toNat % 2 ^ 16 = 2 ^ 4 ∧
    (0x20000001#32).toNat % 2 ^ 16 ≠ 0 ∧ (0x00010000#32).toNat / 2 ^ 16 % 2 ^ 8 ≠ 0 ∧
    32 < 33 ∧ 4 < 5 ∧ (∀ x, base.wd[0]? = some x → x.n.bits < 17) ∧ 9 < 10 ∧ 6 < 7 := by
  refine ⟨by decide, by decide, by decide, by decide, by decide, by decide, by decide, by decide, by decide,
    by decide, by decide, by decide, by decide, by decide, ?_, by decide, by decide⟩
  intro x hx
  rw [← Option.some.inj (show some WdInst.reset = some x from hx)]
  decide

theorem witness_InstancePastTheCountIsAnIllegalOperand :
    base.we.length ≤ 4 ∧ base.wd.length ≤ 4 ∧ base.tse.length ≤ 4 ∧ base.tsd.length ≤ 4 := by decide

/-- A word that decodes and one that does not. -/
theorem witness_StepRunsTheCommandWrittenToCmd :
    decode 0x2A010004#32 = .ok (.wdDec 1 4) ∧
    (base.setBus [.write 0x004 4 0x2A010004#32, .reset]).bus = .write 0x004 4 0x2A010004#32 :: [.reset] ∧
    (base.setBus [.write 0x004 4 0xFF000000#32]).bus = .write 0x004 4 0xFF000000#32 :: [] := by decide

theorem witness_CommandWordCompletesWithOneCode : Inv base := inv_base

theorem witness_ErrorsChangeOnlyStatusAndCount :
    (∃ t, runCommand 0xFF000000#32 base = .next t ∧ t.status.code = .illegalCommand) ∧
    (∃ t, runCommand 0x10000054#32 (withArgs 0 0 0 0 0xDA base) = .next t ∧ t.status.code = .crcMismatch) :=
  ⟨⟨_, rfl, rfl⟩, ⟨_, rfl, by decide⟩⟩

theorem witness_CommandsChangeOnlyWhatTheMapLists :
    (∃ t, exec .nop base = .next t) ∧ (∃ t, exec (.weAdd 0) base = .next t) := ⟨⟨_, rfl⟩, ⟨_, rfl⟩⟩

theorem witness_CommandsChangeOnlyTheirInstance :
    ∃ t, exec (.weAdd 0) base = .next t ∧ 1 ≠ (Instr.weAdd 0).instField := ⟨_, rfl, by decide⟩

theorem witness_NopSetsCodeOkAndKeepsSticky :
    (0x00000001#32).toNat < 2 ^ 24 ∧ 0x00000001#32 ≠ 0x00000000#32 ∧
    (0x00FF0000#32).toNat < 2 ^ 24 ∧ 0x00FF0000#32 ≠ 0x00000000#32 := by decide

theorem witness_InitCommandsSetTheRegionOrReportBadAddress :
    (withArgs 250 6 0 0 0 base).args.arg0.toNat + (withArgs 250 6 0 0 0 base).args.arg1.toNat ≤ base.memSize ∧
    base.memSize < (withArgs 250 7 0 0 0 base).args.arg0.toNat + (withArgs 250 7 0 0 0 base).args.arg1.toNat := by
  decide

/-- A region of 4 bytes at the end of MEM: 0 bits left at its end, 32 at its start. -/
theorem witness_BrReadReturnsTheFieldAndAdvances :
    base.memSize ≤ 65536 ∧ StreamInv base.memSize (stream 252 4 0) ∧ StreamInv base.memSize (stream 252 4 32) ∧
    32 < 33 ∧ 8 * (stream 252 4 1).len.toNat < (stream 252 4 1).pos.toNat + 32 ∧
    (stream 252 4 0).pos.toNat + 32 ≤ 8 * (stream 252 4 0).len.toNat ∧
    (stream 252 4 32).pos.toNat + 0 ≤ 8 * (stream 252 4 32).len.toNat :=
  ⟨by decide, ⟨by decide, by decide⟩, ⟨by decide, by decide⟩, by decide, by decide, by decide, by decide⟩

theorem witness_BrPeekReturnsTheFieldAndKeepsTheCursor :
    (StreamInv base.memSize (stream 0x40 3 0) ∧ (stream 0x40 3 0).pos.toNat + 24 ≤ 8 * (stream 0x40 3 0).len.toNat ∧
      8 * (stream 0x40 3 0).len.toNat < (stream 0x40 3 0).pos.toNat + 25) ∧
    ∃ t u, exec (.brPeek 24) (base.setReader (stream 0x40 3 0)) = .next t ∧ exec (.brPeek 24) t = .next u :=
  ⟨⟨⟨by decide, by decide⟩, by decide, by decide⟩, _, _, rfl, rfl⟩

theorem witness_BrAlignMovesToTheNextByte :
    base.memSize ≤ 65536 ∧ StreamInv base.memSize (stream 252 4 31) ∧ StreamInv base.memSize (stream 252 4 32) :=
  ⟨by decide, ⟨by decide, by decide⟩, ⟨by decide, by decide⟩⟩

theorem witness_BwWriteWritesExactlyTheField :
    base.memSize ≤ 65536 ∧ StreamInv base.memSize (stream 252 4 0) ∧ StreamInv base.memSize (stream 252 4 32) ∧
    32 < 33 ∧ 8 * (stream 252 4 1).len.toNat < (stream 252 4 1).pos.toNat + 32 ∧
    (stream 252 4 0).pos.toNat + 32 ≤ 8 * (stream 252 4 0).len.toNat :=
  ⟨by decide, ⟨by decide, by decide⟩, ⟨by decide, by decide⟩, by decide, by decide, by decide⟩

theorem witness_BwAlignPadsWithZeroBits :
    base.memSize ≤ 65536 ∧ StreamInv base.memSize (stream 252 4 25) ∧ StreamInv base.memSize (stream 252 4 32) :=
  ⟨by decide, ⟨by decide, by decide⟩, ⟨by decide, by decide⟩⟩

theorem witness_SdvlEncWritesTheShortestForm :
    StreamInv base.memSize (stream 252 4 0) ∧ 2 ^ 29 - 1 < (toWord (2 ^ 29)).toNat ∧
    (toWord (2 ^ 29 - 1)).toNat ≤ 2 ^ 29 - 1 ∧ SdvlForm (2 ^ 29 - 1) 4 (2 ^ 32 - 1) ∧ SdvlForm 127 1 127 ∧
    SdvlForm 128 2 0x8080 ∧ SdvlForm 16384 3 0xC04000 ∧
    8 * (stream 252 4 1).len.toNat < (stream 252 4 1).pos.toNat + 8 * 4 ∧
    (stream 252 4 0).pos.toNat + 8 * 4 ≤ 8 * (stream 252 4 0).len.toNat :=
  ⟨⟨by decide, by decide⟩, by decide, by decide, by unfold SdvlForm; decide, by unfold SdvlForm; decide,
    by unfold SdvlForm; decide, by unfold SdvlForm; decide, by decide, by decide⟩

theorem witness_SdvlDecReadsThePrefixedValue :
    StreamInv base.memSize (stream 0x53 2 0) ∧ 8 * (stream 0x53 2 9).len.toNat < (stream 0x53 2 9).pos.toNat + 8 ∧
    (stream 0x53 2 8).pos.toNat + 8 ≤ 8 * (stream 0x53 2 8).len.toNat ∧ SdvlPrefix 0x7F 1 7 ∧ SdvlPrefix 0x80 2 14 ∧
    SdvlPrefix 0xC0 3 21 ∧ SdvlPrefix 0xFF 4 29 ∧
    8 * (stream 0x53 2 0).len.toNat < (stream 0x53 2 0).pos.toNat + 8 * 3 ∧
    (stream 0x53 2 0).pos.toNat + 8 * 2 ≤ 8 * (stream 0x53 2 0).len.toNat :=
  ⟨⟨by decide, by decide⟩, by decide, by decide, by unfold SdvlPrefix; decide, by unfold SdvlPrefix; decide,
    by unfold SdvlPrefix; decide, by unfold SdvlPrefix; decide, by decide, by decide⟩

theorem witness_BwWriteIsReadBackByBrRead :
    base.memSize ≤ 65536 ∧ StreamInv base.memSize (stream 0x80 4 0) ∧ 32 ≤ 32 ∧
    (stream 0x80 4 0).pos.toNat + 32 ≤ 8 * (stream 0x80 4 0).len.toNat ∧
    ∃ t, exec (.bwWrite 32) (base.setWriter (stream 0x80 4 0)) = .next t :=
  ⟨by decide, ⟨by decide, by decide⟩, by decide, by decide, _, rfl⟩

theorem witness_SdvlRoundTripReturnsTheValue :
    base.memSize ≤ 65536 ∧ StreamInv base.memSize (stream 0x80 4 0) ∧
    ∃ t, exec .sdvlEnc (withArgs 128 0 0 0 0 (base.setWriter (stream 0x80 4 0))) = .next t ∧ t.status.code = .ok :=
  ⟨by decide, ⟨by decide, by decide⟩, _, rfl, rfl⟩

/-- Every kind of the table, and each region and init at its limit. -/
theorem witness_CrcFoldsTheFedBytesOrReportsTheFirstError :
    (CrcTable base 0 2 0x3#8 0x3#8 ∧ CrcTable base 1 3 0x6#8 0x7#8 ∧ CrcTable base 2 6 0x30#8 0x3F#8 ∧
      CrcTable base 3 7 0x79#8 0x7F#8 ∧ CrcTable base 4 8 0xE0#8 0xFF#8) ∧
    4 < 5 ∧ base.memSize < 250 + 7 ∧ 250 + 6 ≤ base.memSize ∧ base.memSize < 256 + (8 + 7) / 8 ∧
    255 + (8 + 7) / 8 ≤ base.memSize ∧ 2 ^ 8 ≤ (toWord 0x100).toNat ∧ (toWord 0xFF).toNat < 2 ^ 8 :=
  ⟨⟨by unfold CrcTable; decide, by unfold CrcTable; decide, by unfold CrcTable; decide, by unfold CrcTable; decide,
    by unfold CrcTable; decide⟩, by decide, by decide, by decide, by decide, by decide, by decide, by decide⟩

theorem witness_CrcByteFoldsTheLeastSignificantBitFirst :
    8 ≤ 8 ∧ (0xE0#8).toNat < 2 ^ 8 ∧ (0xFF#8).toNat < 2 ^ 8 ∧ (0x3#8).toNat < 2 ^ 2 := by decide

theorem witness_CrcResultHasTheWidthOfItsKind :
    CrcTable base 1 3 0x6#8 0x7#8 ∧
    ∃ t, exec (.crc 1 true false false) base = .next t ∧ t.status.code = .ok :=
  ⟨by unfold CrcTable; decide, _, rfl, rfl⟩

/-- hdr at 0 as its first and last four bytes. -/
theorem witness_CrcChainsOverConcatenation :
    CrcTable base 1 3 0x6#8 0x7#8 ∧ (0x7#32).toNat < 2 ^ 3 ∧
    (0#32).toNat + (4#32).toNat ≤ base.memSize ∧ (4#32).toNat + (4#32).toNat ≤ base.memSize ∧
    (0#32).toNat + ((4#32).toNat + (4#32).toNat) ≤ base.memSize ∧ (4#32).toNat + (4#32).toNat < 2 ^ 32 ∧
    (∀ i, i < (4#32).toNat → base.memRead ((0#32).toNat + i) = base.memRead ((0#32).toNat + i)) ∧
    (∀ i, i < (4#32).toNat → base.memRead ((0#32).toNat + (4#32).toNat + i) = base.memRead ((4#32).toNat + i)) :=
  ⟨by unfold CrcTable; decide, by decide, by decide, by decide, by decide, by decide, fun _ _ => rfl,
    fun _ _ => rfl⟩

theorem witness_ShiftFollowsTheConfiguredMode : 2 ≤ 2 ∧ 1 < 2 := by decide

theorem witness_IntervalsAreNested : 15 < Width.w16.bits ∧
    InInterval Width.w16.bits 1000 1000 (shiftP .constant 0#32 15) 15 := by
  unfold InInterval; decide

theorem witness_WlsbConfigurationAcceptsExactlyItsSets :
    3 < base.we.length ∧ 3 < base.wd.length ∧
    ((toWord 12).toNat ∈ [12, 16, 32] ∧ (toWord 1).toNat ∈ [0, 1] ∧
      (toWord 256).toNat ∈ [1, 2, 4, 8, 16, 32, 64, 128, 256] ∧ (toWord 32).toNat ∈ [12, 16, 32]) ∧
    ¬((toWord 12).toNat ∈ [12, 16, 32] ∧ (toWord 1).toNat ∈ [0, 1] ∧
      (toWord 512).toNat ∈ [1, 2, 4, 8, 16, 32, 64, 128, 256] ∧ (toWord 32).toNat ∈ [12, 16, 32]) ∧
    ¬((toWord 16).toNat ∈ [12, 16, 32] ∧ (toWord 2).toNat ∈ [0, 1]) := by decide

/-- A full window of four, none of its entries old enough to be purged. -/
theorem witness_WeAddPurgesEvictsAndAppends :
    (base.setWe 3 (encoder 0#32 [(1, 1), (2, 2), (3, 3), (4, 4)])).we[3]? =
      some (encoder 0#32 [(1, 1), (2, 2), (3, 3), (4, 4)]) ∧
    (encoder 0#32 [(1, 1), (2, 2), (3, 3), (4, 4)]).win.length ≤ WindowWidth.four.toNat := by decide

theorem witness_WeKReturnsTheLeastCoveringCount :
    base.we[0]? = some WeInst.reset ∧ WeInst.reset.win = [] ∧
    (base.setWe 3 (encoder 0#32 [(1000, 1000)])).we[3]? = some (encoder 0#32 [(1000, 1000)]) ∧
    (encoder 0#32 [(1000, 1000)]).win ≠ [] := by decide

theorem witness_EncoderReadsReportItsFields :
    (base.setWe 0 (encoder 0#32 [(5, 6), (7, 8)])).we[0]? = some (encoder 0#32 [(5, 6), (7, 8)]) ∧
    (encoder 0#32 [(5, 6), (7, 8)]).win[(toWord 1).toNat]? = some { value := 7#32, sn := 8#32 } ∧
    (encoder 0#32 [(5, 6), (7, 8)]).win.length ≤ (toWord 2).toNat := by decide

theorem witness_DecoderReferenceIsSetAndRead :
    (base.setWd 3 (decoder 0#32 5)).wd[3]? = some (decoder 0#32 5) ∧
    ∃ t, exec (.wdDec 3 16) (base.setWd 3 (decoder 0#32 5)) = .next t ∧ t.status.code = .ok :=
  ⟨by decide, _, rfl, by decide⟩

theorem witness_WdDecReturnsTheOneValueOfTheInterval :
    base.wd[0]? = some WdInst.reset ∧ WdInst.reset.n.bits < 17 ∧ 16 ≤ WdInst.reset.n.bits ∧
    WdInst.reset.refValid = false ∧ (base.setWd 3 (decoder 0#32 0xFFFE)).wd[3]? = some (decoder 0#32 0xFFFE) ∧
    (decoder 0#32 0xFFFE).refValid = true ∧ 1 < 2 ^ 16 ∧ 1 % 2 ^ 4 = (toWord 1).toNat % 2 ^ 4 ∧
    InInterval 16 (decoder 0#32 0xFFFE).ref.toNat 1 (shiftP .constant 0#32 4) 4 := by
  unfold InInterval; decide

theorem witness_DecodingInvertsEncoding :
    (base.setWd 3 (decoder 0#32 0xFFFE)).wd[3]? = some (decoder 0#32 0xFFFE) ∧ 2 ≤ (decoder 0#32 0xFFFE).n.bits ∧
    (decoder 0#32 0xFFFE).refValid = true ∧ 1 < 2 ^ 16 ∧
    InInterval 16 (decoder 0#32 0xFFFE).ref.toNat 1 (shiftP .constant 0#32 2) 2 ∧ (toWord 1).toNat = 1 % 2 ^ 2 := by
  unfold InInterval; decide

/-- Scenario S3 (E6): the window after 100..110, and the decoder at its oldest entry. -/
theorem witness_AnyWindowReferenceDecodesTheValue :
    ∃ t, exec (.weK 0) (withArgs 111 0 0 0 0
        (base.setWe 0 (encoder 0#32 [(107, 107), (108, 108), (109, 109), (110, 110)]))) = .next t ∧
      t.res1 = 7#32 ∧
      { value := 107#32, sn := 107#32 } ∈ (encoder 0#32 [(107, 107), (108, 108), (109, 109), (110, 110)]).win ∧
      (base.setWd 0 (decoder 0#32 107)).wd[0]? = some (decoder 0#32 107) ∧ (decoder 0#32 107).n = .w16 ∧
      (decoder 0#32 107).pmode = .constant ∧ (decoder 0#32 107).pconst = 0#32 ∧ (decoder 0#32 107).ref = 107#32 ∧
      (decoder 0#32 107).refValid = true ∧ (withArgs 7 0 0 0 0 base).args.arg0 = 7#32 :=
  ⟨_, rfl, by decide, by decide, by decide, by decide, by decide, by decide, by decide, by decide, by decide⟩

theorem witness_TsConfigurationResetsTheInstance :
    3 < base.tse.length ∧ 3 < base.tsd.length ∧
    (1 ≤ (toWord 255).toNat ∧ (toWord 255).toNat ≤ 255 ∧ (toWord 12).toNat ∈ [12, 16, 32]) ∧
    ¬(1 ≤ (toWord 256).toNat ∧ (toWord 256).toNat ≤ 255 ∧ (toWord 12).toNat ∈ [12, 16, 32]) ∧
    ¬(1 ≤ (toWord 0).toNat ∧ (toWord 0).toNat ≤ 255 ∧ (toWord 12).toNat ∈ [12, 16, 32]) ∧
    (toWord 32).toNat ∈ [12, 16, 32] ∧ (toWord 8).toNat ∉ [12, 16, 32] := by decide

theorem witness_ConfigurationRestoresReset :
    3 < base.we.length ∧ (withArgs 16 0 0 4 16 base).args.arg0 = 16#32 ∧ (withArgs 16 0 0 4 16 base).args.arg1 = 0#32 ∧
    (withArgs 16 0 0 4 16 base).args.arg2 = 0#32 ∧ (withArgs 16 0 0 4 16 base).args.arg3 = 4#32 ∧
    (withArgs 16 0 0 4 16 base).args.arg4 = 16#32 ∧ 3 < base.wd.length ∧ 3 < base.tse.length ∧
    (withArgs 3 16 0 0 0 base).args.arg0 = 3#32 ∧ (withArgs 3 16 0 0 0 base).args.arg1 = 16#32 ∧
    3 < base.tsd.length := by decide

/-- No prior TS; a delta of 0; a delta one past the capacity. -/
theorem witness_TseEncGoesToInitTs :
    base.tse[0]? = some TseInst.reset ∧ TseInst.reset.haveOld = false ∧ tsDistance 2000#32 2000#32 = 0 ∧
    2 ^ 29 - 1 < tsDistance (toWord (2000 + 2 ^ 29)) 2000#32 := by decide

/-- The encoder of the tests meets the invariant in each of its states. -/
theorem tseInv_tests :
    TseInv (tse .initTs 2000 1000 160 3) ∧ TseInv (tse .initStride 2160 1001 160 1) ∧
    TseInv (tse .initStride 2320 1002 160 2) ∧ TseInv (tse .sendScaled 2480 1003 160 3) ∧
    TseInv (tse .sendScaled 0xFFFFFFB0 106 160 3) := by
  refine ⟨?_, ?_, ?_, ?_, ?_⟩ <;> refine ⟨?_, ?_, ?_, ?_, ?_, ?_, ?_, ?_, ?_, ?_⟩ <;> decide

/-- The five ways into INIT_STRIDE: from INIT_TS at both ends of the range of deltas, a changed and a kept
stride, a delta that is no multiple, a wrap-around that changes the offset. -/
theorem witness_TseEncSendsTheStride :
    TseInv (tse .initTs 2000 1000 160 3) ∧ tsDistance 2001#32 2000#32 = 1 ∧
    tsDistance (toWord (2000 + 2 ^ 29 - 1)) 2000#32 = 2 ^ 29 - 1 ∧
    TseInv (tse .initStride 2160 1001 160 1) ∧ tsDistance 2260#32 2160#32 ≠ 160 ∧
    TseInv (tse .initStride 2320 1002 160 2) ∧ tsDistance 2480#32 2320#32 = 160 ∧
    TseInv (tse .sendScaled 2480 1003 160 3) ∧ tsDistance 2580#32 2480#32 % 160 ≠ 0 ∧
    TseInv (tse .sendScaled 0xFFFFFFB0 106 160 3) ∧ tsDistance 0x50#32 0xFFFFFFB0#32 % 160 = 0 ∧
    (0x50#32).toNat < (0xFFFFFFB0#32).toNat ∧ (0x50#32 - 0xFFFFFFB0#32).toNat < 2 ^ 31 ∧
    (0x50#32).toNat % 160 ≠ (tse .sendScaled 0xFFFFFFB0 106 160 3).tsOffset.toNat ∧
    (base.setTse 3 (tse .sendScaled 2480 1003 160 3)).tse[3]? = some (tse .sendScaled 2480 1003 160 3) ∧
    (tse .sendScaled 2480 1003 160 3).haveOld = true := by
  obtain ⟨h1, h2, h3, h4, h5⟩ := tseInv_tests
  exact ⟨h1, by decide, by decide, h2, by decide, h3, by decide, h4, by decide, h5, by decide, by decide,
    by decide, by decide, by decide, by decide⟩

/-- A deducible packet (2640, 1004) and a jump (3120, 1004). -/
theorem witness_TseEncSendsScaled :
    TseInv (tse .sendScaled 2480 1003 160 3) ∧ tsDistance 2640#32 2480#32 = 160 ∧
    ¬((2640#32).toNat < (2480#32).toNat ∧ (2640#32 - 2480#32).toNat < 2 ^ 31 ∧
      (2640#32).toNat % 160 ≠ (tse .sendScaled 2480 1003 160 3).tsOffset.toNat) ∧
    (BitVec.ofNat 32 (2640 / 160) - (tse .sendScaled 2480 1003 160 3).tsScaled).toInt =
      (BitVec.ofNat 16 1004 - BitVec.ofNat 16 1003).toInt ∧
    (BitVec.ofNat 32 (3120 / 160) - (tse .sendScaled 2480 1003 160 3).tsScaled).toInt ≠
      (BitVec.ofNat 16 1004 - BitVec.ofNat 16 1003).toInt ∧ tsDistance 3120#32 2480#32 % 160 = 0 := by
  obtain ⟨_, _, _, h4, _⟩ := tseInv_tests
  exact ⟨h4, by decide, by decide, by decide, by decide, by decide⟩

theorem witness_TseEncReportsExactlyOneForm :
    (base.setTse 3 (tse .sendScaled 2480 1003 160 3)).tse[3]? = some (tse .sendScaled 2480 1003 160 3) ∧
    TseInv (tse .sendScaled 2480 1003 160 3) := ⟨by decide, tseInv_tests.2.2.2.1⟩

/-- The third packet with the stride: SEND_SCALED is entered. -/
theorem witness_SendScaledIsEnteredOnTheLthStride :
    TseInv (tse .initStride 2320 1002 160 2) ∧
    ∃ t y, exec (.tseEnc 0) (withArgs 2480 1003 0 0 0 (base.setTse 0 (tse .initStride 2320 1002 160 2))) = .next t ∧
      t.tse[0]? = some y ∧ y.state = .sendScaled ∧ t.res1.getLsbD 3 = true :=
  ⟨tseInv_tests.2.2.1, _, _, rfl, rfl, by decide, by decide⟩

theorem witness_TsReadsReportEveryField :
    base.tse[3]? = some TseInst.reset ∧ base.tsd[3]? = some TsdInst.reset ∧ 9 < 10 ∧ 6 < 7 := by decide

theorem witness_TsdStrideSplitsTheReference :
    base.tsd[3]? = some TsdInst.reset ∧ TsdInst.reset.refValid = false ∧
    (base.setTsd 0 (tsd 160 2000 1000)).tsd[0]? = some (tsd 160 2000 1000) ∧ (tsd 160 2000 1000).refValid = true ∧
    (toWord 0).toNat = 0 ∧ 2 ^ 29 - 1 < (toWord (2 ^ 29)).toNat ∧ 1 ≤ (toWord 1).toNat ∧
    (toWord (2 ^ 29 - 1)).toNat ≤ 2 ^ 29 - 1 := by decide

theorem witness_TsdRebuildsTheTimestamp :
    base.tsd[3]? = some TsdInst.reset ∧ TsdInst.reset.stride = 0#32 ∧
    (base.setTsd 0 (tsd 160 2000 1000)).tsd[0]? = some (tsd 160 2000 1000) ∧ (tsd 160 2000 1000).stride ≠ 0#32 ∧
    (tsd 160 2000 1000).refValid = true := by decide

theorem witness_TsdCommitSetsTheReference :
    base.tsd[3]? = some TsdInst.reset ∧ TsdInst.reset.stride = 0#32 ∧
    (base.setTsd 0 (tsd 160 2000 1000)).tsd[0]? = some (tsd 160 2000 1000) ∧
    (tsd 160 2000 1000).stride ≠ 0#32 := by decide

/-- Packet 5 of scenario S1 at the encoder, and a decoder that has committed packet 4. -/
theorem witness_DeduceReturnsTheEncodersTimestamp :
    TseInv (tse .sendScaled 2480 1003 160 3) ∧ TsdInv (tsd 160 2480 1003) ∧
    (∃ t, exec (.tseEnc 0) (withArgs 2640 1004 0 0 0 (base.setTse 0 (tse .sendScaled 2480 1003 160 3))) = .next t ∧
      t.res1.getLsbD 4 = true) ∧
    (base.setTsd 0 (tsd 160 2480 1003)).tsd[0]? = some (tsd 160 2480 1003) ∧
    (tsd 160 2480 1003).stride = (tse .sendScaled 2480 1003 160 3).tsStride ∧
    (tsd 160 2480 1003).refValid = true ∧ (tsd 160 2480 1003).tsRef = (tse .sendScaled 2480 1003 160 3).oldTs ∧
    (tsd 160 2480 1003).snRef = (tse .sendScaled 2480 1003 160 3).oldSn ∧
    (tsd 160 2480 1003).snw = (tse .sendScaled 2480 1003 160 3).snw ∧
    (tsd 160 2480 1003).offset.toNat = (2640#32).toNat % (tse .sendScaled 2480 1003 160 3).tsStride.toNat :=
  ⟨tseInv_tests.2.2.2.1, by refine ⟨?_, ?_, ?_, ?_, ?_⟩ <;> decide, ⟨_, rfl, by decide⟩, by decide, by decide,
    by decide, by decide, by decide, by decide, by decide⟩

theorem witness_RegisterReadsFollowTheMap :
    base.params.wf ∧ (0x054 ≤ 0x054 ∧ 0x054 % 4 = 0) ∧ 0xFFFC ≤ 0xFFFC ∧ 0xFFFC % 4 = 0 := by decide

theorem witness_HostReadsHaveNoSideEffect :
    ∃ t, (base.setBus [.read 0x10080 1]).bus = .read 0x10080 1 :: [] ∧ step (base.setBus [.read 0x10080 1]) = .next t :=
  ⟨_, rfl, rfl⟩

theorem witness_RegisterWritesFollowTheMap :
    0xFFFC % 4 = 0 ∧ 0xFFFC < 0x10000 ∧
    0xFFFC ∉ [0x004, 0x008, 0x010, 0x014, 0x018, 0x01C, 0x020, 0x024] ∧
    0x000 ∉ [0x004, 0x008, 0x010, 0x014, 0x018, 0x01C, 0x020, 0x024] := by decide

theorem witness_WindowReachesMemByteByByte :
    base.memSize ≤ 65536 ∧ 255 < base.memSize ∧ base.memSize ≤ 256 ∧ 0xFFFF < 0x10000 := by decide

theorem witness_AccessesOutsideTheSpecAreRefused :
    base.memSize ≤ 65536 ∧ 0x20000 ≤ 0x20000 ∧ (0xFFFF < 0x10000 ∧ 0xFFFF % 4 ≠ 0) ∧
    (0x10000 ≤ 0x100FF ∧ 0x100FF < 0x10000 + base.memSize ∧ 4 ≠ 1) := by decide

theorem witness_IdleBlockHoldsItsState : base.bus = [] := rfl

theorem witness_ResetValuesAreThoseOfTheTable :
    (base.setBus [.reset]).bus = .reset :: [] := rfl

theorem witness_ResetMeetsTheInvariant :
    params.wf ∧ { params with memSize := 65536, numWe := 256, numWd := 1, numTse := 256, numTsd := 1 }.wf := by decide

theorem witness_StepKeepsTheInvariant :
    Inv base ∧ ∃ t, step base = .next t := ⟨inv_base, _, rfl⟩

theorem witness_OnlyRefusedAccessesStopTheBlock :
    ∃ s, Inv s ∧ stops (step s) := by
  refine ⟨base.setBus [.read 0x20000 4], ?_, ?_⟩
  · exact ⟨inv_base.params, ⟨inv_base.mem.rising, inv_base.mem.inside⟩, inv_base.reader, inv_base.writer,
      inv_base.we, inv_base.wd, inv_base.tse, inv_base.tsd, inv_base.code⟩
  · intro t h
    cases h

end Sys2Proof.Tests
end

/-! SUPPORT. The invariant (Safety.lean) under each update of State, and from there under every command, every
access and every step (O57). -/

namespace Sys2Proof.Safety

open Sys2Proof.Machine

/-! ### The invariant under each update of State -/

theorem Inv.memSize_le {s : State} (h : Inv s) : s.memSize ≤ 65536 := by
  obtain ⟨⟨_, hle⟩, _⟩ := h.params
  exact hle

theorem Inv.setBus {s : State} (h : Inv s) (b : List Access) : Inv (s.setBus b) :=
  { h with mem := ⟨h.mem.rising, h.mem.inside⟩ }

theorem Inv.record {s : State} (h : Inv s) (v : Word) : Inv (s.record v) :=
  { h with mem := ⟨h.mem.rising, h.mem.inside⟩ }

theorem Inv.setArgs {s : State} (h : Inv s) (a : Args) : Inv (s.setArgs a) :=
  { h with mem := ⟨h.mem.rising, h.mem.inside⟩ }

theorem Inv.clearSticky {s : State} (h : Inv s) (d : Word) : Inv (s.clearSticky d) :=
  { h with mem := ⟨h.mem.rising, h.mem.inside⟩ }

theorem Inv.setRes0 {s : State} (h : Inv s) (v : Word) : Inv (s.setRes0 v) :=
  { h with mem := ⟨h.mem.rising, h.mem.inside⟩ }

theorem Inv.setRes1 {s : State} (h : Inv s) (v : Word) : Inv (s.setRes1 v) :=
  { h with mem := ⟨h.mem.rising, h.mem.inside⟩ }

theorem Inv.complete {s : State} (h : Inv s) (o : Byte) {c : ErrCode} (hc : c ≠ .wlsbAmbiguous) :
    Inv (complete o c s) :=
  { h with mem := ⟨h.mem.rising, h.mem.inside⟩, code := hc }

theorem Inv.setReader {s : State} (h : Inv s) {r : Stream} (hr : StreamInv s.memSize r) : Inv (s.setReader r) :=
  { h with mem := ⟨h.mem.rising, h.mem.inside⟩, reader := hr }

theorem Inv.setWriter {s : State} (h : Inv s) {r : Stream} (hr : StreamInv s.memSize r) : Inv (s.setWriter r) :=
  { h with mem := ⟨h.mem.rising, h.mem.inside⟩, writer := hr }

theorem Inv.setMem {s : State} (h : Inv s) {m : Memory} (hwf : Memory.wf m) (hin : ∀ c ∈ m, c.1 < s.memSize) :
    Inv (s.setMem m) :=
  { h with mem := ⟨hwf, hin⟩ }

/-- What holds of every entry of a list still holds of every entry after one is replaced by a value of which it
holds. -/
theorem forall_mem_set {α : Type} {P : α → Prop} {l : List α} {y : α} (i : Nat) (h : ∀ x ∈ l, P x) (hy : P y) :
    ∀ x ∈ l.set i y, P x := by
  intro x hx
  rcases List.mem_or_eq_of_mem_set hx with hx | rfl
  · exact h x hx
  · exact hy

theorem Inv.setWe {s : State} (h : Inv s) (i : Nat) {x : WeInst} (hx : WeInv x) : Inv (s.setWe i x) :=
  { h with
    params := by simpa [State.params] using h.params
    mem := ⟨h.mem.rising, h.mem.inside⟩
    we := forall_mem_set i h.we hx }

theorem Inv.setWd {s : State} (h : Inv s) (i : Nat) {x : WdInst} (hx : WdInv x) : Inv (s.setWd i x) :=
  { h with
    params := by simpa [State.params] using h.params
    mem := ⟨h.mem.rising, h.mem.inside⟩
    wd := forall_mem_set i h.wd hx }

theorem Inv.setTse {s : State} (h : Inv s) (i : Nat) {x : TseInst} (hx : TseInv x) : Inv (s.setTse i x) :=
  { h with
    params := by simpa [State.params] using h.params
    mem := ⟨h.mem.rising, h.mem.inside⟩
    tse := forall_mem_set i h.tse hx }

theorem Inv.setTsd {s : State} (h : Inv s) (i : Nat) {x : TsdInst} (hx : TsdInv x) : Inv (s.setTsd i x) :=
  { h with
    params := by simpa [State.params] using h.params
    mem := ⟨h.mem.rising, h.mem.inside⟩
    tsd := forall_mem_set i h.tsd hx }

/-! ### Streams and MEM -/

/-- A region just set has its cursor at 0 (40_bitio_sdvl.md R121, R130). -/
theorem streamInv_fresh {m : Nat} {b l : Word} (h : b.toNat + l.toNat ≤ m) : StreamInv m (Stream.fresh b l) where
  region := h
  cursor := by simp [Stream.fresh]

/-- The region ends at a byte boundary, so a cursor moved to the next boundary stays inside
(40_bitio_sdvl.md R125). -/
theorem streamInv_align {m : Nat} {r : Stream} (h : StreamInv m r) :
    StreamInv m { r with pos := toWord (8 * ((r.pos.toNat + 7) / 8)) } where
  region := h.region
  cursor := by
    have hpos := h.cursor
    have hmod : (toWord (8 * ((r.pos.toNat + 7) / 8))).toNat ≤ 8 * ((r.pos.toNat + 7) / 8) := by
      rw [toWord_toNat]
      exact Nat.mod_le _ _
    show (toWord _).toNat ≤ 8 * r.len.toNat
    omega

theorem Inv.memWrite {s : State} (h : Inv s) {a : Nat} (ha : a < s.memSize) (v : Byte) : Inv (s.memWrite a v) := by
  refine h.setMem (Memory.set_wf a v h.mem.rising) fun c hc => ?_
  rcases Memory.mem_set hc with rfl | hc
  · exact ha
  · exact h.mem.inside c hc

/-- A field that fits the writer's region lies in MEM, and the cursor after it in the region. -/
theorem Inv.writeField {s : State} (h : Inv s) {n : Nat} (hfit : s.writer.pos.toNat + n ≤ 8 * s.writer.len.toNat)
    (v : Nat) : Inv (writeField s n v) := by
  have hregion := h.writer.region
  rw [writeField_eq]
  refine (h.setMem (setBits_wf _ _ _ _ h.mem.rising) fun c hc => ?_).setWriter
    (Stream.advance_inv h.memSize_le h.writer hfit)
  rcases setBits_mem_inside hc with hc | ⟨hc, hn⟩
  · exact h.mem.inside c hc
  · omega

/-! ### Commands -/

/-- The next state, if the result has one, meets the invariant. -/
def KeepsInv (r : Result) : Prop := ∀ t, r = .next t → Inv t

theorem keepsInv_next {r : Result} {t : State} (hr : r = .next t) (h : Inv t) : KeepsInv r := by
  rintro u rfl
  cases hr
  exact h

theorem keepsInv_fault {r : Result} {f : Fault} (hr : r = .fault f) : KeepsInv r := by
  rintro t rfl
  cases hr

theorem keepsInv_of_raises {o : Byte} {s : State} {r : Result} (h : Inv s) (hr : Raises o s r) : KeepsInv r := by
  obtain ⟨e, hr, _, _, he⟩ := hr
  exact keepsInv_next hr (h.complete o he)

/-- A command that ends with OK keeps the invariant if its effect does. -/
theorem keepsInv_of_ok {o : Byte} {r : Result} {u : State} (hr : r = .next (complete o .ok u)) (h : Inv u) :
    KeepsInv r :=
  keepsInv_next hr (h.complete o (by decide))

theorem crcCode_ne_wlsbAmbiguous (s : State) (c : Bool) (v : Word) : crcCode s c v ≠ .wlsbAmbiguous := by
  rcases crcCode_cases s c v with ⟨hc, _⟩ | ⟨hc, _⟩ <;> rw [hc] <;> decide

/-- Every command keeps the invariant: it ends in a fault, in an error that changed only STATUS and
CMD_COUNT, or in an effect made of updates that each keep it. -/
theorem exec_keepsInv {s : State} (h : Inv s) (i : Instr) : KeepsInv (exec i s) := by
  cases i with
  | nop => exact keepsInv_of_ok rfl h
  | brInit =>
    rcases execBrInit_cases s with hr | ⟨hreg, hn⟩
    · exact keepsInv_of_raises h hr
    · exact keepsInv_of_ok hn (h.setReader (streamInv_fresh hreg))
  | brRead n =>
    rcases execBrRead_cases n s with hr | ⟨hfit, ⟨_, hf⟩ | ⟨_, hn⟩⟩
    · exact keepsInv_of_raises h hr
    · exact keepsInv_fault hf
    · exact keepsInv_of_ok hn ((h.setRes0 _).setReader (Stream.advance_inv h.memSize_le h.reader hfit))
  | brPeek n =>
    rcases execBrPeek_cases n s with hr | ⟨_, ⟨_, hf⟩ | ⟨_, hn⟩⟩
    · exact keepsInv_of_raises h hr
    · exact keepsInv_fault hf
    · exact keepsInv_of_ok hn (h.setRes0 _)
  | brAlign => exact keepsInv_of_ok (execBrAlign_eq s) (h.setReader (streamInv_align h.reader))
  | bwInit =>
    rcases execBwInit_cases s with hr | ⟨hreg, hn⟩
    · exact keepsInv_of_raises h hr
    · exact keepsInv_of_ok hn (h.setWriter (streamInv_fresh hreg))
  | bwWrite n =>
    rcases execBwWrite_cases n s with hr | ⟨hfit, ⟨_, hf⟩ | ⟨_, _, hn⟩⟩
    · exact keepsInv_of_raises h hr
    · exact keepsInv_fault hf
    · exact keepsInv_of_ok hn (h.writeField hfit _)
  | bwAlign =>
    rcases execBwAlign_cases s with ⟨_, hf⟩ | ⟨_, hn⟩
    · exact keepsInv_fault hf
    · exact keepsInv_of_ok hn (h.writeField (Stream.padding_fits h.writer) _)
  | sdvlEnc =>
    rcases execSdvlEnc_cases s with hr | ⟨_, hfit, ⟨_, hf⟩ | ⟨_, hn⟩⟩
    · exact keepsInv_of_raises h hr
    · exact keepsInv_fault hf
    · exact keepsInv_of_ok hn ((h.writeField hfit _).setRes0 _)
  | sdvlDec =>
    rcases execSdvlDec_cases s with hr | ⟨_, _, hf⟩ | ⟨_, _, hf⟩ | ⟨hfit, hn⟩
    · exact keepsInv_of_raises h hr
    · exact keepsInv_fault hf
    · exact keepsInv_fault hf
    · exact keepsInv_of_ok hn
        (((h.setRes0 _).setRes1 _).setReader (Stream.advance_inv h.memSize_le h.reader hfit))
  | crc kind d m c =>
    rcases execCrc_cases kind d m c s with hr | ⟨_, _, _, _, _, hn⟩
    · exact keepsInv_of_raises h hr
    · exact keepsInv_next hn ((h.setRes0 _).complete _ (crcCode_ne_wlsbAmbiguous _ _ _))
  | weCfg i =>
    rcases execWeCfg_cases i s with hr | ⟨_, hx, hn⟩
    · exact keepsInv_of_raises h hr
    · exact keepsInv_of_ok hn (h.setWe i (weInv_config hx))
  | weAdd i =>
    rcases execWeAdd_cases i s with ⟨_, hr⟩ | ⟨x, hx, hn⟩
    · exact keepsInv_of_raises h hr
    · exact keepsInv_of_ok hn (h.setWe i (weInv_add (h.we x (List.mem_of_getElem? hx)) _ _))
  | weK i =>
    rcases execWeK_cases i s with ⟨_, hr⟩ | ⟨_, _, hn⟩
    · exact keepsInv_of_raises h hr
    · exact keepsInv_of_ok hn ((h.setRes0 _).setRes1 _)
  | weInfo i sel =>
    rcases execWeInfo_cases i sel s with ⟨_, hr⟩ | ⟨_, _, _, _, hn⟩
    · exact keepsInv_of_raises h hr
    · exact keepsInv_of_ok hn ((h.setRes0 _).setRes1 _)
  | weEntry i =>
    rcases execWeEntry_cases i s with hr | ⟨_, _, _, _, hn⟩
    · exact keepsInv_of_raises h hr
    · exact keepsInv_of_ok hn ((h.setRes0 _).setRes1 _)
  | wdCfg i =>
    rcases execWdCfg_cases i s with hr | ⟨_, hx, hn⟩
    · exact keepsInv_of_raises h hr
    · exact keepsInv_of_ok hn (h.setWd i (wdInv_config hx))
  | wdSetref i =>
    rcases execWdSetref_cases i s with ⟨_, hr⟩ | ⟨x, _, hn⟩
    · exact keepsInv_of_raises h hr
    · exact keepsInv_of_ok hn (h.setWd i (wdInv_setRef x _))
  | wdDec i k =>
    rcases execWdDec_cases i k s with hr | ⟨_, _, _, _, hn⟩
    · exact keepsInv_of_raises h hr
    · exact keepsInv_of_ok hn (h.setRes0 _)
  | wdRd i sel =>
    rcases execWdRd_cases i sel s with ⟨_, hr⟩ | ⟨_, _, _, _, hn⟩
    · exact keepsInv_of_raises h hr
    · exact keepsInv_of_ok hn ((h.setRes0 _).setRes1 _)
  | tseCfg i =>
    rcases execTseCfg_cases i s with hr | ⟨_, hx, hn⟩
    · exact keepsInv_of_raises h hr
    · exact keepsInv_of_ok hn (h.setTse i (tseInv_config hx))
  | tseEnc i =>
    rcases execTseEnc_cases i s with ⟨_, hr⟩ | ⟨x, hx, ⟨_, hf⟩ | ⟨_, hn⟩⟩
    · exact keepsInv_of_raises h hr
    · exact keepsInv_fault hf
    · exact keepsInv_of_ok hn
        (((h.setTse i (tseInv_packet (h.tse x (List.mem_of_getElem? hx)) _ _)).setRes0 _).setRes1 _)
  | tseRd i sel =>
    rcases execTseRd_cases i sel s with hr | ⟨_, _, _, _, hn⟩
    · exact keepsInv_of_raises h hr
    · exact keepsInv_of_ok hn ((h.setRes0 _).setRes1 _)
  | tsdCfg i =>
    rcases execTsdCfg_cases i s with hr | ⟨_, hx, hn⟩
    · exact keepsInv_of_raises h hr
    · exact keepsInv_of_ok hn (h.setTsd i (tsdInv_config hx))
  | tsdStride i =>
    rcases execTsdStride_cases i s with hr | ⟨x, hx, h0, hmax, hn⟩
    · exact keepsInv_of_raises h hr
    · exact keepsInv_of_ok hn (h.setTsd i (tsdInv_setStride (h.tsd x (List.mem_of_getElem? hx)) h0 hmax))
  | tsdScaled i =>
    rcases execTsdScaled_cases i s with hr | ⟨_, _, _, hn⟩
    · exact keepsInv_of_raises h hr
    · exact keepsInv_of_ok hn (h.setRes0 _)
  | tsdDeduce i =>
    rcases execTsdDeduce_cases i s with hr | ⟨_, _, _, _, hn⟩
    · exact keepsInv_of_raises h hr
    · exact keepsInv_of_ok hn ((h.setRes0 _).setRes1 _)
  | tsdCommit i =>
    rcases execTsdCommit_cases i s with ⟨_, hr⟩ | ⟨x, hx, hn⟩
    · exact keepsInv_of_raises h hr
    · exact keepsInv_of_ok hn (h.setTsd i (tsdInv_commit (h.tsd x (List.mem_of_getElem? hx)) _ _))
  | tsdRd i sel =>
    rcases execTsdRd_cases i sel s with hr | ⟨_, _, _, _, hn⟩
    · exact keepsInv_of_raises h hr
    · exact keepsInv_of_ok hn ((h.setRes0 _).setRes1 _)

/-! ### Accesses and steps -/

theorem runCommand_keepsInv {s : State} (h : Inv s) (w : Word) : KeepsInv (runCommand w s) := by
  unfold runCommand
  split
  · exact exec_keepsInv h _
  · exact keepsInv_of_raises h (raises_illegalCommand _ _)

theorem writeReg_keepsInv {s : State} (h : Inv s) (r : HostReg) (d : Word) : KeepsInv (writeReg r d s) := by
  cases r with
  | cmd => exact runCommand_keepsInv h d
  | status => exact keepsInv_next rfl (h.clearSticky d)
  | arg0 | arg1 | arg2 | arg3 | arg4 | arg5 => exact keepsInv_next rfl (h.setArgs _)
  | id | cmdCount | res0 | res1 | brBase | brLen | brPos | bwBase | bwCap | bwPos | cfgMem | cfgInst | cfgCrc6 =>
    exact keepsInv_next rfl h

/-- A byte of MEM that an access reaches exists (20_memory.md R80). -/
theorem lt_memSize_of_locate {s : State} {offset bytes a : Nat} (h : locate s offset bytes = .ok (.mem a)) :
    a < s.memSize := by
  unfold locate at h
  split at h
  · cases h
  split at h
  · split at h <;> cases h
  split at h
  · split at h
    · simp only [Except.ok.injEq, Target.mem.injEq] at h
      omega
    · cases h
  split at h
  · split at h <;> cases h
  · cases h

theorem writeTarget_keepsInv {s : State} (h : Inv s) {offset bytes : Nat} {t : Target}
    (ht : locate s offset bytes = .ok t) (d : Word) : KeepsInv (writeTarget t d s) := by
  cases t with
  | reg r => exact writeReg_keepsInv h r d
  | none => exact keepsInv_next rfl h
  | mem a => exact keepsInv_next rfl (h.memWrite (lt_memSize_of_locate ht) _)

/-- The invariant holds after a reset with parameters in their ranges (70_reset_and_hazards.md R312). -/
theorem inv_resetWith {p : Params} (hp : p.wf) (draw : Nat) (bus : List Access) (seen : List Word) :
    Inv (State.resetWith p draw bus seen) where
  params := by simpa [State.params, State.resetWith] using hp
  mem := ⟨List.Pairwise.nil, by simp [State.resetWith]⟩
  reader := streamInv_fresh (Nat.zero_le _)
  writer := streamInv_fresh (Nat.zero_le _)
  we x hx := by
    rw [List.eq_of_mem_replicate hx]
    exact ⟨by decide, by decide, by decide⟩
  wd x hx := by
    rw [List.eq_of_mem_replicate hx]
    exact ⟨by decide⟩
  tse x hx := by
    rw [List.eq_of_mem_replicate hx]
    exact ⟨by decide, by decide, by decide, by decide, by decide, by decide, by decide, by decide, by decide,
      by decide⟩
  tsd x hx := by
    rw [List.eq_of_mem_replicate hx]
    exact ⟨by decide, by decide, by decide, by decide, by decide⟩
  code := by simp [State.resetWith]

theorem access_keepsInv {s : State} (h : Inv s) (a : Access) : KeepsInv (access a s) := by
  cases a with
  | read offset bytes =>
    simp only [access]
    split
    · rintro t ⟨⟩
    · exact keepsInv_next rfl (h.record _)
  | write offset bytes d =>
    simp only [access]
    split
    · rintro t ⟨⟩
    · exact writeTarget_keepsInv h ‹_› d
  | reset => exact keepsInv_next rfl (inv_resetWith h.params _ _ _)

theorem step_keepsInv {s : State} (h : Inv s) : KeepsInv (step s) := by
  unfold step
  split
  · exact keepsInv_next rfl h
  · exact access_keepsInv (h.setBus _) _

/-- Settles O57: a step is one access (R30, R32), and every access keeps the invariant: a read only records,
a write reaches a register, a byte of MEM or nothing, and a CMD write runs a command, each of which keeps it. -/
theorem stepKeepsTheInvariant : Obligations.StepKeepsTheInvariant := by
  unfold Obligations.StepKeepsTheInvariant
  intro s t h hstep
  exact step_keepsInv h t hstep

end Sys2Proof.Safety

/-! SUPPORT. The register map read by register: the offset of each register, what an aligned 32-bit access below
the window does, and the packed registers as numbers. The three statements on the host port rest on it (O7, O49,
O51). -/

namespace Sys2Proof.Machine

/-! ### The register map -/

/-- The offset of a register (10_state.md R31). -/
def HostReg.offset : HostReg → Nat
  | .id => 0x000
  | .cmd => 0x004
  | .status => 0x008
  | .cmdCount => 0x00C
  | .arg0 => 0x010
  | .arg1 => 0x014
  | .arg2 => 0x018
  | .arg3 => 0x01C
  | .arg4 => 0x020
  | .arg5 => 0x024
  | .res0 => 0x028
  | .res1 => 0x02C
  | .brBase => 0x030
  | .brLen => 0x034
  | .brPos => 0x038
  | .bwBase => 0x03C
  | .bwCap => 0x040
  | .bwPos => 0x044
  | .cfgMem => 0x048
  | .cfgInst => 0x04C
  | .cfgCrc6 => 0x050

theorem hostReg?_offset (r : HostReg) : hostReg? r.offset = some r := by
  cases r <;> rfl

theorem eq_offset_of_hostReg? {offset : Nat} {r : HostReg} (h : hostReg? offset = some r) : offset = r.offset := by
  unfold hostReg? at h
  split at h <;> cases h <;> rfl

theorem locate_register (s : State) (r : HostReg) : locate s r.offset 4 = .ok (.reg r) := by
  have hword : r.offset < 0x10000 ∧ r.offset % 4 = 0 := by cases r <;> decide
  rw [locate_word s hword.1 hword.2, hostReg?_offset, Option.elim_some]

theorem locate_reserved (s : State) {offset : Nat} (hr : hostReg? offset = none) (hw : offset < 0x10000)
    (ha : offset % 4 = 0) : locate s offset 4 = .ok .none := by
  rw [locate_word s hw ha, hr, Option.elim_none]

/-- A read of a register records its value. -/
theorem step_readReg (s : State) (rest : List Access) (r : HostReg) :
    step { s with bus := .read r.offset 4 :: rest } = .next { s with bus := rest, seen := readReg s r :: s.seen } := by
  rw [step_read rfl (locate_register _ r)]
  cases r <;> rfl

/-- A write of a register is what the map says of that register. -/
theorem step_writeReg (s : State) (rest : List Access) (r : HostReg) (d : Word) :
    step { s with bus := .write r.offset 4 d :: rest } = writeReg r d { s with bus := rest } :=
  step_write rfl (locate_register _ r)

/-- A read of a reserved offset records 0 (10_state.md R31). -/
theorem step_readReserved (s : State) (rest : List Access) {offset : Nat} (hr : hostReg? offset = none)
    (hw : offset < 0x10000) (ha : offset % 4 = 0) :
    step { s with bus := .read offset 4 :: rest } = .next { s with bus := rest, seen := 0#32 :: s.seen } := by
  rw [step_read rfl (locate_reserved _ hr hw ha)]
  rfl

/-- A write of a reserved offset is ignored (10_state.md R31). -/
theorem step_writeReserved (s : State) (rest : List Access) {offset : Nat} (d : Word) (hr : hostReg? offset = none)
    (hw : offset < 0x10000) (ha : offset % 4 = 0) :
    step { s with bus := .write offset 4 d :: rest } = .next { s with bus := rest } :=
  step_write rfl (locate_reserved _ hr hw ha)

/-- Every register but CMD, STATUS and the ARG registers ignores a write (10_state.md R31). -/
theorem writeReg_readOnly {r : HostReg} (d : Word) (s : State)
    (h : r ∉ [.cmd, .status, .arg0, .arg1, .arg2, .arg3, .arg4, .arg5]) : writeReg r d s = .next s := by
  cases r with
  | cmd | status | arg0 | arg1 | arg2 | arg3 | arg4 | arg5 => exact absurd (by decide) h
  | id | cmdCount | res0 | res1 | brBase | brLen | brPos | bwBase | bwCap | bwPos | cfgMem | cfgInst | cfgCrc6 => rfl

/-! ### The packed registers as numbers -/

theorem toNat_append_eq {m n : Nat} (x : BitVec m) (y : BitVec n) : (x ++ y).toNat = 2 ^ n * x.toNat + y.toNat := by
  rw [BitVec.toNat_append, ← Nat.shiftLeft_add_eq_or_of_lt y.isLt, Nat.shiftLeft_eq, Nat.mul_comm]

/-- STATUS as a number (10_state.md R33). -/
theorem statusWord_eq (t : Status) :
    t.word = BitVec.ofNat 32 (t.code.value.toNat + 2 ^ 8 * t.sticky.toNat + 2 ^ 16 * t.lastOpc.toNat) := by
  apply BitVec.eq_of_toNat_eq
  have hcode := t.code.value.isLt
  have hopc := t.lastOpc.isLt
  have hsticky := Bool.toNat_le t.sticky
  simp only [Status.word, bit, toNat_append_eq, BitVec.toNat_ofBool, BitVec.toNat_ofNat]
  omega

/-- CFG_INST as a number; the ranges of the counts keep each inside its byte (10_state.md R35). -/
theorem cfgInst_eq {s : State} (h : s.params.wf) :
    cfgInst s = BitVec.ofNat 32 (2 ^ 24 * (s.tsd.length - 1) + 2 ^ 16 * (s.tse.length - 1)
      + 2 ^ 8 * (s.wd.length - 1) + (s.we.length - 1)) := by
  apply BitVec.eq_of_toNat_eq
  obtain ⟨_, ⟨_, hwe⟩, ⟨_, hwd⟩, ⟨_, htse⟩, ⟨_, htsd⟩⟩ := h
  simp only [State.params] at hwe hwd htse htsd
  simp only [cfgInst, toNat_append_eq, BitVec.toNat_ofNat]
  omega

/-- CFG_CRC6 as a number (10_state.md R35). -/
theorem cfgCrc6_eq (s : State) : cfgCrc6 s = BitVec.ofNat 32 (2 ^ 8 * s.crc6Init.toNat + s.crc6Poly.toNat) := by
  apply BitVec.eq_of_toNat_eq
  have hpoly := s.crc6Poly.isLt
  have hinit := s.crc6Init.isLt
  simp only [cfgCrc6, toNat_append_eq, BitVec.toNat_ofNat]
  omega

/-! ### The command word -/

theorem runCommand_of_decode {w : Word} {i : Instr} (h : decode w = .ok i) (s : State) :
    runCommand w s = exec i s := by
  rw [runCommand, h]

/-- A write of a word to CMD runs it (10_state.md R32). -/
theorem step_of_cmdWrite {s : State} {w : Word} {rest : List Access} (hb : s.bus = .write 0x004 4 w :: rest) :
    step s = runCommand w { s with bus := rest } :=
  step_write hb (locate_register _ .cmd)

theorem step_withFetchWord (s : State) (w : Word) : step (s.withFetchWord 32 w.toNat) = runCommand w s := by
  have hw : BitVec.ofNat 32 (w.toNat % 2 ^ 32) = w := by
    rw [Nat.mod_eq_of_lt w.isLt, BitVec.ofNat_toNat, BitVec.setWidth_eq]
  have hb : (s.withFetchWord 32 w.toNat).bus = .write 0x004 4 w :: s.bus := by
    rw [State.withFetchWord, State.setBus_bus, hw]
  exact step_of_cmdWrite hb

/-! ### The statements -/

/-- Settles O7: offset 0x004 is CMD, and a write to it runs the word. -/
theorem stepRunsTheCommandWrittenToCmd : Obligations.StepRunsTheCommandWrittenToCmd := by
  unfold Obligations.StepRunsTheCommandWrittenToCmd
  intro s w rest
  refine ⟨step_of_cmdWrite, step_withFetchWord s w, fun i hi => ⟨fun hb => ?_, ?_⟩⟩
  · rw [step_of_cmdWrite hb, runCommand_of_decode hi]
  · rw [step_withFetchWord, runCommand_of_decode hi]

/-- Settles O49: one read lemma for each row of the map, with the packed registers as numbers; an offset past
the map reaches no register. -/
theorem registerReadsFollowTheMap : Obligations.RegisterReadsFollowTheMap := by
  unfold Obligations.RegisterReadsFollowTheMap
  refine ⟨by decide, fun s rest hp => ⟨?_, fun offset h hmax ha => ?_⟩⟩
  · have hread := step_readReg s rest
    have hstatus := hread .status
    have hinst := hread .cfgInst
    have hcrc := hread .cfgCrc6
    rw [readReg, statusWord_eq] at hstatus
    rw [readReg, cfgInst_eq hp] at hinst
    rw [readReg, cfgCrc6_eq] at hcrc
    simp only [List.forall_mem_cons]
    exact ⟨hread .id, hread .cmd, hstatus, hread .cmdCount, hread .arg0, hread .arg1, hread .arg2, hread .arg3,
      hread .arg4, hread .arg5, hread .res0, hread .res1, hread .brBase, hread .brLen, hread .brPos, hread .bwBase,
      hread .bwCap, hread .bwPos, hread .cfgMem, hinst, hcrc, nofun⟩
  · exact step_readReserved s rest (hostReg?_none (by omega)) (by omega) ha

/-- Settles O51: one write lemma for each writable register; every other offset names a read-only register or
nothing. -/
theorem registerWritesFollowTheMap : Obligations.RegisterWritesFollowTheMap := by
  unfold Obligations.RegisterWritesFollowTheMap
  intro s d rest
  have hwrite := fun r => step_writeReg s rest r d
  refine ⟨hwrite .status, hwrite .arg0, hwrite .arg1, hwrite .arg2, hwrite .arg3, hwrite .arg4, hwrite .arg5,
    fun offset ha hw hne => ?_⟩
  cases hreg : hostReg? offset with
  | none => exact step_writeReserved s rest d hreg hw ha
  | some r =>
    obtain rfl := eq_offset_of_hostReg? hreg
    rw [hwrite r]
    exact writeReg_readOnly d _ fun hr => hne (List.mem_map_of_mem (f := HostReg.offset) hr)

end Sys2Proof.Machine

/-! SUPPORT. What a step does with a byte access of the window (20_memory.md R80, R82), and the three statements on
the host's view of memory (O50, O52, O53). -/

namespace Sys2Proof.Machine

/-! ### Byte accesses of the window -/

/-- A byte read inside MEM records the byte. -/
theorem step_readMem {s : State} {rest : List Access} {a : Nat} (hb : s.bus = .read (0x10000 + a) 1 :: rest)
    (h : a < s.memSize) (hm : s.memSize ≤ 65536) :
    step s = .next ((s.setBus rest).record ((s.memRead a).setWidth 32)) :=
  step_read hb (locate_mem _ h hm)

/-- A byte write inside MEM stores the low byte of its data (log 15). -/
theorem step_writeMem {s : State} {rest : List Access} {a : Nat} {d : Word}
    (hb : s.bus = .write (0x10000 + a) 1 d :: rest) (h : a < s.memSize) (hm : s.memSize ≤ 65536) :
    step s = .next ((s.setBus rest).memWrite a (d.setWidth 8)) :=
  step_write hb (locate_mem _ h hm)

/-- A byte read of the window past MEM records 0. -/
theorem step_readHole {s : State} {rest : List Access} {a : Nat} (hb : s.bus = .read (0x10000 + a) 1 :: rest)
    (h : s.memSize ≤ a) (ha : a < 0x10000) : step s = .next ((s.setBus rest).record 0#32) :=
  step_read hb (locate_hole _ h ha)

/-- A byte write of the window past MEM is ignored. -/
theorem step_writeHole {s : State} {rest : List Access} {a : Nat} {d : Word}
    (hb : s.bus = .write (0x10000 + a) 1 d :: rest) (h : s.memSize ≤ a) (ha : a < 0x10000) :
    step s = .next (s.setBus rest) :=
  step_write hb (locate_hole _ h ha)

/-! ### The statements -/

/-- Settles O52: a byte access of the window reaches its byte of MEM, or nothing past MEM; a byte just stored is
read back, and every other byte reads as before. -/
theorem windowReachesMemByteByByte : Obligations.WindowReachesMemByteByByte := by
  unfold Obligations.WindowReachesMemByteByByte
  intro s a d rest hm
  have hread : ({ s with bus := .read (0x10000 + a) 1 :: rest } : State).bus = .read (0x10000 + a) 1 :: rest := rfl
  have hwrite : ({ s with bus := .write (0x10000 + a) 1 d :: rest } : State).bus =
    .write (0x10000 + a) 1 d :: rest := rfl
  refine ⟨fun h => ⟨?_, _, step_writeMem hwrite h hm, ?_, fun b hb => ?_⟩,
    fun h ha => ⟨step_readHole hread h ha, step_writeHole hwrite h ha⟩⟩
  · rw [BitVec.ofNat_toNat]
    exact step_readMem hread h hm
  · rw [BitVec.ofNat_toNat]
    exact Memory.read_set_self _ _ _ _
  · exact Memory.read_set_ne _ _ _ hb

/-- Settles O50: a read that reaches a target only records the value read; one that reaches none is refused, so it
has no next state. -/
theorem hostReadsHaveNoSideEffect : Obligations.HostReadsHaveNoSideEffect := by
  unfold Obligations.HostReadsHaveNoSideEffect
  intro s t offset bytes rest hb hstep
  cases hl : locate (s.setBus rest) offset bytes with
  | error r =>
    rw [step_refused hb (.inl rfl) hl] at hstep
    cases hstep
  | ok target =>
    rw [step_read hb hl] at hstep
    cases hstep
    exact ⟨readTarget (s.setBus rest) target, rfl⟩

/-- Settles O53: no such access reaches a target (one lemma on `locate` for each of the three ways), and a read or a
write that reaches none is refused. -/
theorem accessesOutsideTheSpecAreRefused : Obligations.AccessesOutsideTheSpecAreRefused := by
  unfold Obligations.AccessesOutsideTheSpecAreRefused
  intro s offset bytes d rest r hm h
  have hl : locate (s.setBus rest) offset bytes = .error r := by
    rcases h with ⟨hpast, rfl⟩ | ⟨hreg, hbad, rfl⟩ | ⟨hwin, hmem, hwide, rfl⟩
    · exact locate_past _ hpast
    · exact locate_badRegister _ hreg hbad
    · exact locate_badWindow _ hm hwin hmem hwide
  exact ⟨step_refused rfl (.inl rfl) hl, step_refused rfl (.inr ⟨d, rfl⟩) hl⟩

end Sys2Proof.Machine

/-! SUPPORT. The decoder and the encoder as inverses (30_encoding.md R90 to R94), and the rows of the opcode table as
what the decoder accepts (R95). The statements on the encoding rest on it (O1, O2, O3). -/

namespace Sys2Proof

open Sys2Proof.Machine Sys2Proof.Safety

/-! ### The two round trips -/

/-- The three fields of the word of a well-formed command are the command's own: the per-instruction law
(30_encoding.md R90, R92), for all commands at once. -/
theorem wordFields_encode : ∀ i : Instr, Laws.WordFields.Statement i
  | .nop => Laws.WordFields.nop
  | .brInit => Laws.WordFields.brInit
  | .brRead n => Laws.WordFields.brRead n
  | .brPeek n => Laws.WordFields.brPeek n
  | .brAlign => Laws.WordFields.brAlign
  | .bwInit => Laws.WordFields.bwInit
  | .bwWrite n => Laws.WordFields.bwWrite n
  | .bwAlign => Laws.WordFields.bwAlign
  | .sdvlEnc => Laws.WordFields.sdvlEnc
  | .sdvlDec => Laws.WordFields.sdvlDec
  | .crc kind d m c => Laws.WordFields.crc kind d m c
  | .weCfg i => Laws.WordFields.weCfg i
  | .weAdd i => Laws.WordFields.weAdd i
  | .weK i => Laws.WordFields.weK i
  | .weInfo i sel => Laws.WordFields.weInfo i sel
  | .weEntry i => Laws.WordFields.weEntry i
  | .wdCfg i => Laws.WordFields.wdCfg i
  | .wdSetref i => Laws.WordFields.wdSetref i
  | .wdDec i k => Laws.WordFields.wdDec i k
  | .wdRd i sel => Laws.WordFields.wdRd i sel
  | .tseCfg i => Laws.WordFields.tseCfg i
  | .tseEnc i => Laws.WordFields.tseEnc i
  | .tseRd i sel => Laws.WordFields.tseRd i sel
  | .tsdCfg i => Laws.WordFields.tsdCfg i
  | .tsdStride i => Laws.WordFields.tsdStride i
  | .tsdScaled i => Laws.WordFields.tsdScaled i
  | .tsdDeduce i => Laws.WordFields.tsdDeduce i
  | .tsdCommit i => Laws.WordFields.tsdCommit i
  | .tsdRd i sel => Laws.WordFields.tsdRd i sel

/-- The converse of `decode_inv`: a word with the fields of a well-formed command passes every check of R91
and decodes to that command. -/
theorem decode_of_fields {w : Word} {i : Instr} (hw : i.wf = true) (ho : opcOf w = i.opc.toNat)
    (hi : instOf w = i.instField) (hf : fieldOf w = i.fieldBits) : decode w = .ok i := by
  rw [decode, ho]
  cases i with
  | nop | brInit | brAlign | bwInit | bwAlign | sdvlEnc | sdvlDec =>
    exact decodePlain_ok.2 ⟨hf ▸ Nat.one_pos, hi, rfl⟩
  | brRead n | brPeek n | bwWrite n =>
    obtain rfl : fieldOf w = n := hf
    exact decodePlain_ok.2 ⟨of_decide_eq_true hw, hi, rfl⟩
  | crc kind d m c =>
    obtain ⟨hlt, hgap, hkind, hd, hm, hc⟩ := subfields_crcField kind (of_decide_eq_true hw) d m c
    rw [← show fieldOf w = crcField kind d m c from hf] at hlt hgap hkind hd hm hc
    exact decodeCrc_ok.2 ⟨hlt, hgap, hi, by rw [hkind, hd, hm, hc]⟩
  | weCfg j | weAdd j | weK j | weEntry j | wdCfg j | wdSetref j | tseCfg j | tseEnc j | tsdCfg j | tsdStride j
  | tsdScaled j | tsdDeduce j | tsdCommit j =>
    obtain rfl : instOf w = j := hi
    exact decodeInst_ok.2 ⟨hf ▸ Nat.one_pos, rfl⟩
  | weInfo j v | wdDec j v | wdRd j v | tseRd j v | tsdRd j v =>
    obtain rfl : instOf w = j := hi
    obtain rfl : fieldOf w = v := hf
    exact decodeInst_ok.2 ⟨of_decide_eq_true ((Bool.and_eq_true _ _).mp hw).2, rfl⟩

/-- A word is determined by its three fields (30_encoding.md R90). -/
theorem word_eq_of_fields {v w : Word} (ho : opcOf v = opcOf w) (hi : instOf v = instOf w)
    (hf : fieldOf v = fieldOf w) : v = w :=
  BitVec.eq_of_toNat_eq (by rw [word_split v, word_split w, ho, hi, hf])

/-- Settles O1: the word of a well-formed command carries the command's three fields whole, and a word with
those fields decodes to the command. -/
theorem decodeOfEncodeIsTheCommand : Obligations.DecodeOfEncodeIsTheCommand := by
  unfold Obligations.DecodeOfEncodeIsTheCommand
  intro i hw
  obtain ⟨ho, hi, hf⟩ := wordFields_encode i hw
  exact decode_of_fields hw ho hi hf

/-- Settles O2: a word that decodes has the three fields of its command, which is well formed, so they are also
the fields of the command's word. -/
theorem encodeOfDecodeIsTheWord : Obligations.EncodeOfDecodeIsTheWord := by
  unfold Obligations.EncodeOfDecodeIsTheWord
  intro w i hdec
  obtain ⟨ho, hi, hf, hw⟩ := decode_inv hdec
  obtain ⟨ho', hi', hf'⟩ := wordFields_encode i hw
  exact ⟨hw, word_eq_of_fields (ho'.trans ho.symm) (hi'.trans hi.symm) (hf'.trans hf.symm)⟩

/-! ### What the decoder accepts, row by row -/

/-- The number of low FIELD bits that hold a command's sub-fields (30_encoding.md R92). -/
def Instr.fieldWidth : Instr → Nat
  | .brRead _ | .brPeek _ | .bwWrite _ | .wdDec _ _ => 6
  | .crc _ _ _ _ => 7
  | .weInfo _ _ | .wdRd _ _ => 1
  | .tseRd _ _ | .tsdRd _ _ => 4
  | _ => 0

/-- The number of INST bits a command may set: all for an instance command, none for the others (R90). -/
def Instr.instWidth : Instr → Nat
  | .nop | .brInit | .brRead _ | .brPeek _ | .brAlign | .bwInit | .bwWrite _ | .bwAlign | .sdvlEnc | .sdvlDec
  | .crc _ _ _ _ => 0
  | _ => 8

/-- A word has the OPC of a command, and a 1 only in the bits that command's row leaves free; FIELD[3] of CRC is
reserved (30_encoding.md R91, R92). The command's operands play no part. -/
structure FitsRow (w : Word) (i : Instr) : Prop where
  opc : opcOf w = i.opc.toNat
  inst : instOf w < 2 ^ i.instWidth
  field : fieldOf w < 2 ^ i.fieldWidth
  gap : i.opc = 0x10#8 → (fieldOf w).testBit 3 = false

/-- The checks that a word which decodes has passed are those of its command's row. -/
theorem fitsRow_of_decode {w : Word} {i : Instr} (h : decode w = .ok i) : FitsRow w i := by
  obtain ⟨ho, hi, hf, hw⟩ := decode_inv h
  have hinst := instOf_lt w
  cases i with
  | crc kind d m c =>
    obtain ⟨hlt, hgap, _⟩ := subfields_crcField kind (of_decide_eq_true hw) d m c
    rw [← show fieldOf w = crcField kind d m c from hf] at hlt hgap
    exact ⟨ho, hi ▸ Nat.one_pos, hlt, fun _ => hgap⟩
  | nop | brInit | brAlign | bwInit | bwAlign | sdvlEnc | sdvlDec =>
    exact ⟨ho, hi ▸ Nat.one_pos, hf ▸ Nat.one_pos, fun h => nomatch h⟩
  | brRead n | brPeek n | bwWrite n =>
    exact ⟨ho, hi ▸ Nat.one_pos, hf ▸ of_decide_eq_true hw, fun h => nomatch h⟩
  | weCfg j | weAdd j | weK j | weEntry j | wdCfg j | wdSetref j | tseCfg j | tseEnc j | tsdCfg j | tsdStride j
  | tsdScaled j | tsdDeduce j | tsdCommit j =>
    exact ⟨ho, hinst, hf ▸ Nat.one_pos, fun h => nomatch h⟩
  | weInfo j v | wdDec j v | wdRd j v | tseRd j v | tsdRd j v =>
    exact ⟨ho, hinst, hf ▸ of_decide_eq_true ((Bool.and_eq_true _ _).mp hw).2, fun h => nomatch h⟩

/-- A word that passes the checks of some row decodes, its operands read from its own fields. -/
theorem decodes_of_fitsRow {w : Word} {i : Instr} (h : FitsRow w i) : ∃ j, decode w = .ok j := by
  obtain ⟨ho, hi, hf, hgap⟩ := h
  rw [decode, ho]
  cases i with
  | nop | brInit | brRead _ | brPeek _ | brAlign | bwInit | bwWrite _ | bwAlign | sdvlEnc | sdvlDec =>
    exact ⟨_, decodePlain_ok.2 ⟨hf, Nat.lt_one_iff.1 hi, rfl⟩⟩
  | crc _ _ _ _ => exact ⟨_, decodeCrc_ok.2 ⟨hf, hgap rfl, Nat.lt_one_iff.1 hi, rfl⟩⟩
  | weCfg _ | weAdd _ | weK _ | weInfo _ _ | weEntry _ | wdCfg _ | wdSetref _ | wdDec _ _ | wdRd _ _ | tseCfg _
  | tseEnc _ | tseRd _ _ | tsdCfg _ | tsdStride _ | tsdScaled _ | tsdDeduce _ | tsdCommit _ | tsdRd _ _ =>
    exact ⟨_, decodeInst_ok.2 ⟨hf, rfl⟩⟩

/-! ### The rows of opcode_table.json -/

/-- The reserved bits of a command's FIELD (30_encoding.md R92). -/
def Instr.reservedField : Instr → BitVec 16
  | .crc _ _ _ _ => BitVec.allOnes 16 <<< 7 ||| BitVec.twoPow 16 3
  | i => BitVec.allOnes 16 <<< i.fieldWidth

/-- A command's row of opcode_table.json: OPC over zeros, and the mask of OPC and the reserved bits. -/
def tableRow (i : Instr) : Word × Word :=
  (i.opc ++ 0#8 ++ 0#16, BitVec.allOnes 8 ++ (BitVec.allOnes 8 <<< i.instWidth) ++ i.reservedField)

theorem tableRow_mem (i : Instr) : tableRow i ∈ opcodeTable := by
  cases i <;> simp only [tableRow, Instr.opc, Instr.instWidth, Instr.fieldWidth, Instr.reservedField] <;> decide

/-- Every row of the table is that of a command. -/
theorem exists_tableRow : ∀ row ∈ opcodeTable, ∃ i, row = tableRow i := by
  simp only [opcodeTable, List.cons_append, List.nil_append, List.forall_mem_cons]
  exact ⟨⟨.nop, rfl⟩, ⟨.brInit, rfl⟩, ⟨.brRead 0, rfl⟩, ⟨.brPeek 0, rfl⟩, ⟨.brAlign, rfl⟩, ⟨.bwInit, rfl⟩,
    ⟨.bwWrite 0, rfl⟩, ⟨.bwAlign, rfl⟩, ⟨.sdvlEnc, rfl⟩, ⟨.sdvlDec, rfl⟩, ⟨.crc 0 false false false, rfl⟩,
    ⟨.weCfg 0, rfl⟩, ⟨.weAdd 0, rfl⟩, ⟨.weK 0, rfl⟩, ⟨.weInfo 0 0, rfl⟩, ⟨.weEntry 0, rfl⟩, ⟨.wdCfg 0, rfl⟩,
    ⟨.wdSetref 0, rfl⟩, ⟨.wdDec 0 0, rfl⟩, ⟨.wdRd 0 0, rfl⟩, ⟨.tseCfg 0, rfl⟩, ⟨.tseEnc 0, rfl⟩,
    ⟨.tseRd 0 0, rfl⟩, ⟨.tsdCfg 0, rfl⟩, ⟨.tsdStride 0, rfl⟩, ⟨.tsdScaled 0, rfl⟩, ⟨.tsdDeduce 0, rfl⟩,
    ⟨.tsdCommit 0, rfl⟩, ⟨.tsdRd 0 0, rfl⟩, nofun⟩

/-- A vector is 0 under the mask of all bits from k up iff it is below 2 ^ k. -/
theorem and_allOnes_shiftLeft_eq_zero_iff {n : Nat} (x : BitVec n) (k : Nat) :
    x &&& BitVec.allOnes n <<< k = 0#n ↔ x.toNat < 2 ^ k := by
  constructor
  · intro h
    refine Nat.lt_pow_two_of_testBit _ fun j hj => ?_
    have hbit := congrArg (·.getLsbD j) h
    by_cases hn : j < n
    · rw [← BitVec.getLsbD]
      simpa [hn, Nat.not_lt.2 hj, Nat.sub_lt_of_lt hn] using hbit
    · exact BitVec.getLsbD_of_ge x j (Nat.not_lt.1 hn)
  · intro h
    apply BitVec.eq_of_getLsbD_eq
    intro j hj
    by_cases hk : j < k
    · simp [hk]
    · have hbit : x.getLsbD j = false :=
        Nat.testBit_lt_two_pow (h.trans_le (Nat.pow_le_pow_right Nat.two_pos (Nat.not_lt.1 hk)))
      simp [hbit]

theorem and_reservedField_eq_zero_iff (f : BitVec 16) (i : Instr) :
    f &&& i.reservedField = 0#16 ↔
      f.toNat < 2 ^ i.fieldWidth ∧ (i.opc = 0x10#8 → f.toNat.testBit 3 = false) := by
  cases i with
  | crc _ _ _ _ =>
    have hbit : f &&& BitVec.twoPow 16 3 = 0#16 ↔ f.toNat.testBit 3 = false := by
      rw [BitVec.and_twoPow, ← BitVec.getLsbD]
      cases f.getLsbD 3 <;> decide
    rw [Instr.reservedField, BitVec.and_or_distrib_left, BitVec.or_eq_zero_iff,
      and_allOnes_shiftLeft_eq_zero_iff, hbit]
    exact and_congr Iff.rfl ⟨fun h _ => h, fun h => h rfl⟩
  | _ =>
    exact (and_allOnes_shiftLeft_eq_zero_iff f _).trans ⟨fun h => ⟨h, fun h => nomatch h⟩, And.left⟩

theorem append_eq_append_iff {m n : Nat} {a c : BitVec m} {b d : BitVec n} : a ++ b = c ++ d ↔ a = c ∧ b = d := by
  refine ⟨fun h => ⟨?_, ?_⟩, fun ⟨hac, hbd⟩ => by rw [hac, hbd]⟩
  · simpa only [BitVec.extractLsb'_append_eq_left] using congrArg (BitVec.extractLsb' n m) h
  · simpa only [BitVec.extractLsb'_append_eq_right] using congrArg (BitVec.extractLsb' 0 n) h

/-- A word is its OPC, INST and FIELD in that order (30_encoding.md R90). -/
theorem word_eq_append (w : Word) : w = w.extractLsb' 24 8 ++ w.extractLsb' 16 8 ++ w.extractLsb' 0 16 := by
  apply BitVec.eq_of_toNat_eq
  rw [word_split, toNat_append_eq, toNat_append_eq, opcOf, instOf, fieldOf]
  omega

/-- A word has the fixed bits of a command's row iff it passes that row's checks. -/
theorem matches_tableRow_iff (w : Word) (i : Instr) : w &&& (tableRow i).2 = (tableRow i).1 ↔ FitsRow w i := by
  have hopc : w.extractLsb' 24 8 &&& BitVec.allOnes 8 = i.opc ↔ opcOf w = i.opc.toNat := by
    rw [BitVec.and_allOnes, ← BitVec.toNat_inj, opcOf]
  rw [word_eq_append w, tableRow, BitVec.and_append, BitVec.and_append, append_eq_append_iff, append_eq_append_iff,
    and_allOnes_shiftLeft_eq_zero_iff, and_reservedField_eq_zero_iff, ← word_eq_append w, hopc]
  exact ⟨fun ⟨⟨ho, hi⟩, hf, hg⟩ => ⟨ho, hi, hf, hg⟩, fun ⟨ho, hi, hf, hg⟩ => ⟨⟨ho, hi⟩, hf, hg⟩⟩

/-- Settles O3: the rows of the table are those of the commands, and matching a row is passing its checks. -/
theorem decodesExactlyTheRowsOfTheTable : Obligations.DecodesExactlyTheRowsOfTheTable := by
  unfold Obligations.DecodesExactlyTheRowsOfTheTable
  intro w
  have hrow : ∀ i, decode w = .ok i → w &&& (tableRow i).2 = (tableRow i).1 := fun i h =>
    (matches_tableRow_iff w i).2 (fitsRow_of_decode h)
  refine ⟨⟨fun ⟨i, h⟩ => ⟨_, tableRow_mem i, hrow i h⟩, fun ⟨row, hmem, h⟩ => ?_⟩,
    fun i h => ⟨_, tableRow_mem i, hrow i h, ?_⟩⟩
  · obtain ⟨i, rfl⟩ := exists_tableRow row hmem
    exact decodes_of_fitsRow ((matches_tableRow_iff w i).1 h)
  · simp only [tableRow, toNat_append_eq, BitVec.toNat_ofNat]
    omega

end Sys2Proof

/-! SUPPORT. How an illegal word, a sub-field out of its range and an instance past the count complete (30_encoding.md
R91, R92, R95), and the statements about them (O4, O5, O6). -/

namespace Sys2Proof

open Sys2Proof.Machine Sys2Proof.Safety

/-! ### Illegal words -/

/-- A word that decodes to no command completes with ILLEGAL_COMMAND, OPC in STATUS (30_encoding.md R95,
60_exceptions.md R281). -/
theorem runCommand_of_not_decodes {w : Word} (h : ∀ i, decode w ≠ .ok i) (s : State) :
    runCommand w s = .next { s with
      status := { code := .illegalCommand, sticky := true, lastOpc := BitVec.ofNat 8 (opcOf w) }
      cmdCount := s.cmdCount + 1#32 } := by
  rw [runCommand]
  split
  next i hi => exact absurd hi (h i)
  next =>
    have hsticky : (s.status.sticky || ErrCode.illegalCommand != .ok) = true := Bool.or_true _
    rw [raise, complete, hsticky, opcOf, BitVec.ofNat_toNat, BitVec.setWidth_eq]

/-- The three kinds of illegal word: an OPC outside the map, a reserved FIELD bit, an INST that is not 0 on a
command that takes none (30_encoding.md R95). -/
def IllegalFields (opc inst field : Nat) : Prop :=
  (0x0A ≤ opc ∧ opc ≤ 0x0F) ∨ (0x11 ≤ opc ∧ opc ≤ 0x1F) ∨ (0x25 ≤ opc ∧ opc ≤ 0x27) ∨
    (0x2C ≤ opc ∧ opc ≤ 0x2F) ∨ (0x33 ≤ opc ∧ opc ≤ 0x37) ∨ 0x3E ≤ opc ∨
    (opc ∈ [0x02, 0x03, 0x06, 0x2A] ∧ 2 ^ 6 ≤ field) ∨
    (opc = 0x10 ∧ (field.testBit 3 = true ∨ 2 ^ 7 ≤ field)) ∨
    (opc ∈ [0x23, 0x2B] ∧ 2 ≤ field) ∨
    (opc ∈ [0x32, 0x3D] ∧ 2 ^ 4 ≤ field) ∨
    (opc ∉ [0x02, 0x03, 0x06, 0x2A, 0x10, 0x23, 0x2B, 0x32, 0x3D] ∧ field ≠ 0) ∨
    (opc ≤ 0x10 ∧ inst ≠ 0)

/-- No row of the opcode map admits an illegal word. -/
theorem not_fitsRow_of_illegal {w : Word} (h : IllegalFields (opcOf w) (instOf w) (fieldOf w)) (i : Instr) :
    ¬ FitsRow w i := by
  rintro ⟨ho, hi, hf, hgap⟩
  simp only [IllegalFields, List.mem_cons, List.not_mem_nil, or_false] at h
  cases i with
  | crc kind d m c =>
    simp only [hgap rfl, Bool.false_eq_true, false_or] at h
    simp only [Instr.opc, Instr.instWidth, Instr.fieldWidth, BitVec.toNat_ofNat] at ho hi hf
    omega
  | _ =>
    simp only [Instr.opc, Instr.instWidth, Instr.fieldWidth, BitVec.toNat_ofNat] at ho hi hf
    omega

theorem runCommand_of_illegal {w : Word} (h : IllegalFields (opcOf w) (instOf w) (fieldOf w)) (s : State) :
    runCommand w s = .next { s with
      status := { code := .illegalCommand, sticky := true, lastOpc := BitVec.ofNat 8 (opcOf w) }
      cmdCount := s.cmdCount + 1#32 } :=
  runCommand_of_not_decodes (fun i hi => not_fitsRow_of_illegal h i (fitsRow_of_decode hi)) s

/-! ### Sub-fields out of their range -/

/-- KIND 5..7 names no CRC (41_crc.md R160). -/
theorem crcRow?_eq_none (s : State) {kind : Nat} (h : 4 < kind) : crcRow? s kind = none := by
  obtain ⟨j, rfl⟩ := Nat.exists_eq_add_of_le' h
  rfl

/-- SEL 10..15 of TSE_RD names no field (43_ts_scaled.md R240). -/
theorem tseField?_eq_none (x : TseInst) {sel : Nat} (h : 9 < sel) : x.field? sel = none := by
  obtain ⟨j, rfl⟩ := Nat.exists_eq_add_of_le' h
  rfl

/-- SEL 7..15 of TSD_RD names no field (43_ts_scaled.md R256). -/
theorem tsdField?_eq_none (x : TsdInst) {sel : Nat} (h : 6 < sel) : x.field? sel = none := by
  obtain ⟨j, rfl⟩ := Nat.exists_eq_add_of_le' h
  rfl

theorem exec_bitCommands_of_countOver (s : State) {n : Nat} (h : 32 < n) :
    exec (.brRead n) s = .next (complete 0x02#8 .illegalOperand s) ∧
    exec (.brPeek n) s = .next (complete 0x03#8 .illegalOperand s) ∧
    exec (.bwWrite n) s = .next (complete 0x06#8 .illegalOperand s) :=
  ⟨if_pos h, if_pos h, if_pos h⟩

theorem exec_crc_of_kindOver (s : State) {kind : Nat} (d m c : Bool) (h : 4 < kind) :
    exec (.crc kind d m c) s = .next (complete 0x10#8 .illegalOperand s) := by
  rw [exec, execCrc, crcRow?_eq_none s h]
  rfl

/-- An instance past the count and a K over the instance's n end alike (30_encoding.md R91, R92). -/
theorem exec_wdDec_of_countOver (s : State) {i k : Nat} (h : ∀ x, s.wd[i]? = some x → x.n.bits < k) :
    exec (.wdDec i k) s = .next (complete 0x2A#8 .illegalOperand s) := by
  rw [exec, execWdDec]
  cases hx : s.wd[i]? with
  | none => rfl
  | some x => exact if_pos (h x hx)

theorem exec_tseRd_of_selOver (s : State) (i : Nat) {sel : Nat} (h : 9 < sel) :
    exec (.tseRd i sel) s = .next (complete 0x32#8 .illegalOperand s) := by
  rw [exec, execTseRd]
  cases s.tse[i]? with
  | none => rfl
  | some x => simp only [tseField?_eq_none x h, raise]

theorem exec_tsdRd_of_selOver (s : State) (i : Nat) {sel : Nat} (h : 6 < sel) :
    exec (.tsdRd i sel) s = .next (complete 0x3D#8 .illegalOperand s) := by
  rw [exec, execTsdRd]
  cases s.tsd[i]? with
  | none => rfl
  | some x => simp only [tsdField?_eq_none x h, raise]

/-- Settles O4: an illegal word fits no row, so it does not decode and runs as ILLEGAL_COMMAND; each command with a
sub-field out of its range stops at its check of that sub-field. -/
theorem illegalEncodingsOnlySetTheErrorCode : Obligations.IllegalEncodingsOnlySetTheErrorCode := by
  unfold Obligations.IllegalEncodingsOnlySetTheErrorCode
  refine ⟨fun w s opc inst field ho hi hf h => ?_, fun s n h => exec_bitCommands_of_countOver s h,
    fun s kind d m c h => exec_crc_of_kindOver s d m c h, fun s i k h => exec_wdDec_of_countOver s h,
    fun s i sel h => exec_tseRd_of_selOver s i h, fun s i sel h => exec_tsdRd_of_selOver s i h⟩
  rw [← opcOf_eq] at ho
  rw [← instOf_eq] at hi
  rw [← fieldOf_eq] at hf
  subst ho hi hf
  exact runCommand_of_illegal h s

/-! ### Instances past the count, and words written out -/

theorem exec_we_of_none {s : State} {i : Nat} (h : s.we[i]? = none) (k : Nat) :
    ∀ c ∈ [Instr.weCfg i, .weAdd i, .weK i, .weInfo i k, .weEntry i],
      exec c s = .next (complete c.opc .illegalOperand s) := by
  simp only [List.forall_mem_cons, exec, execWeCfg, execWeAdd, execWeK, execWeInfo, execWeEntry, h]
  exact ⟨rfl, rfl, rfl, rfl, rfl, nofun⟩

theorem exec_wd_of_none {s : State} {i : Nat} (h : s.wd[i]? = none) (k : Nat) :
    ∀ c ∈ [Instr.wdCfg i, .wdSetref i, .wdDec i k, .wdRd i k],
      exec c s = .next (complete c.opc .illegalOperand s) := by
  simp only [List.forall_mem_cons, exec, execWdCfg, execWdSetref, execWdDec, execWdRd, h]
  exact ⟨rfl, rfl, rfl, rfl, nofun⟩

theorem exec_tse_of_none {s : State} {i : Nat} (h : s.tse[i]? = none) (k : Nat) :
    ∀ c ∈ [Instr.tseCfg i, .tseEnc i, .tseRd i k], exec c s = .next (complete c.opc .illegalOperand s) := by
  simp only [List.forall_mem_cons, exec, execTseCfg, execTseEnc, execTseRd, h]
  exact ⟨rfl, rfl, rfl, nofun⟩

theorem exec_tsd_of_none {s : State} {i : Nat} (h : s.tsd[i]? = none) (k : Nat) :
    ∀ c ∈ [Instr.tsdCfg i, .tsdStride i, .tsdScaled i, .tsdDeduce i, .tsdCommit i, .tsdRd i k],
      exec c s = .next (complete c.opc .illegalOperand s) := by
  simp only [List.forall_mem_cons, exec, execTsdCfg, execTsdStride, execTsdScaled, execTsdDeduce, execTsdCommit,
    execTsdRd, h]
  exact ⟨rfl, rfl, rfl, rfl, rfl, rfl, nofun⟩

/-- Settles O5: past the count there is no instance, which every instance command looks up first. -/
theorem instancePastTheCountIsAnIllegalOperand : Obligations.InstancePastTheCountIsAnIllegalOperand := by
  unfold Obligations.InstancePastTheCountIsAnIllegalOperand
  intro s i k
  exact ⟨fun h => exec_we_of_none (List.getElem?_eq_none h) k, fun h => exec_wd_of_none (List.getElem?_eq_none h) k,
    fun h => exec_tse_of_none (List.getElem?_eq_none h) k, fun h => exec_tsd_of_none (List.getElem?_eq_none h) k⟩

/-- Settles O6: each of the ten words is evaluated. -/
theorem writtenOutWordsDecode : Obligations.WrittenOutWordsDecode := by
  unfold Obligations.WrittenOutWordsDecode
  decide

end Sys2Proof

/-! SUPPORT. The frame of every command (30_encoding.md R94, writes column): one law per update of State, one walk
over the commands, and the two statements that read it (O10, O11). -/

namespace Sys2Proof.Safety

open Sys2Proof.Machine

/-! ### What a command leaves unchanged -/

/-- The state t differs from s, beside STATUS and CMD_COUNT, only in what the opcode map lists as written by the
command i and, in the units, only at the instance that its INST names (30_encoding.md R90, R94). -/
structure Framed (i : Instr) (s t : State) : Prop where
  args : t.args = s.args
  params : t.params = s.params
  host : t.draw = s.draw ∧ t.bus = s.bus ∧ t.seen = s.seen
  res0 : .res0 ∉ writesColumn i → t.res0 = s.res0
  res1 : .res1 ∉ writesColumn i → t.res1 = s.res1
  brRegion : .brRegion ∉ writesColumn i → t.reader.base = s.reader.base ∧ t.reader.len = s.reader.len
  brPos : .brPos ∉ writesColumn i → t.reader.pos = s.reader.pos
  bwRegion : .bwRegion ∉ writesColumn i → t.writer.base = s.writer.base ∧ t.writer.len = s.writer.len
  bwPos : .bwPos ∉ writesColumn i → t.writer.pos = s.writer.pos
  mem : .mem ∉ writesColumn i → t.mem = s.mem
  weConfig : .weConfig ∉ writesColumn i → t.we.map weConfigOf = s.we.map weConfigOf
  weWin : .weWin ∉ writesColumn i → t.we.map (·.win) = s.we.map (·.win)
  wdConfig : .wdConfig ∉ writesColumn i → t.wd.map wdConfigOf = s.wd.map wdConfigOf
  wdRef : .wdRef ∉ writesColumn i →
    t.wd.map (fun x => (x.ref, x.refValid)) = s.wd.map (fun x => (x.ref, x.refValid))
  tse : .tse ∉ writesColumn i → t.tse = s.tse
  tsd : .tsd ∉ writesColumn i → t.tsd = s.tsd
  others : ∀ j, j ≠ i.instField →
    t.we[j]? = s.we[j]? ∧ t.wd[j]? = s.wd[j]? ∧ t.tse[j]? = s.tse[j]? ∧ t.tsd[j]? = s.tsd[j]?

theorem Framed.refl (i : Instr) (s : State) : Framed i s s where
  args := rfl
  params := rfl
  host := ⟨rfl, rfl, rfl⟩
  res0 _ := rfl
  res1 _ := rfl
  brRegion _ := ⟨rfl, rfl⟩
  brPos _ := rfl
  bwRegion _ := ⟨rfl, rfl⟩
  bwPos _ := rfl
  mem _ := rfl
  weConfig _ := rfl
  weWin _ := rfl
  wdConfig _ := rfl
  wdRef _ := rfl
  tse _ := rfl
  tsd _ := rfl
  others _ _ := ⟨rfl, rfl, rfl, rfl⟩

/-- An instance replaced by one with the same view f leaves the view of the whole list. -/
theorem map_set_eq_map {α β : Type} {f : α → β} {l : List α} {j : Nat} {x y : α} (hx : l[j]? = some x)
    (hy : f y = f x) : (l.set j y).map f = l.map f := by
  rw [List.map_set, hy, map_set_view hx]

section
variable {i : Instr} {s u : State} (h : Framed i s u)
include h

/-! An update of a listed resource keeps the frame. -/

theorem Framed.complete (o : Byte) (c : ErrCode) : Framed i s (complete o c u) := { h with }

theorem Framed.setRes0 (v : Word) (hw : .res0 ∈ writesColumn i := by simp [writesColumn]) : Framed i s (u.setRes0 v) :=
  { h with res0 := fun hn => absurd hw hn }

theorem Framed.setRes1 (v : Word) (hw : .res1 ∈ writesColumn i := by simp [writesColumn]) : Framed i s (u.setRes1 v) :=
  { h with res1 := fun hn => absurd hw hn }

/-- Setting a reader writes its region and its cursor. -/
theorem Framed.setReader (r : Stream) (hr : .brRegion ∈ writesColumn i := by simp [writesColumn])
    (hp : .brPos ∈ writesColumn i := by simp [writesColumn]) : Framed i s (u.setReader r) :=
  { h with brRegion := fun hn => absurd hr hn, brPos := fun hn => absurd hp hn }

/-- Moving the reader's cursor writes the cursor alone. -/
theorem Framed.setReaderPos (p : Word) (hp : .brPos ∈ writesColumn i := by simp [writesColumn]) :
    Framed i s (u.setReader { u.reader with pos := p }) :=
  { h with brPos := fun hn => absurd hp hn }

theorem Framed.setWriter (r : Stream) (hr : .bwRegion ∈ writesColumn i := by simp [writesColumn])
    (hp : .bwPos ∈ writesColumn i := by simp [writesColumn]) : Framed i s (u.setWriter r) :=
  { h with bwRegion := fun hn => absurd hr hn, bwPos := fun hn => absurd hp hn }

/-- A field write writes MEM and the writer's cursor. -/
theorem Framed.writeField (n v : Nat) (hm : .mem ∈ writesColumn i := by simp [writesColumn])
    (hp : .bwPos ∈ writesColumn i := by simp [writesColumn]) : Framed i s (writeField u n v) := by
  rw [writeField_eq]
  exact { h with mem := fun hn => absurd hm hn, bwPos := fun hn => absurd hp hn }

/-- Replacing the encoder that INST names writes its window, and its configuration unless that is kept. -/
theorem Framed.setWe (y : WeInst)
    (hc : .weConfig ∉ writesColumn i → (u.we.set i.instField y).map weConfigOf = u.we.map weConfigOf)
    (hw : .weWin ∈ writesColumn i := by simp [writesColumn]) : Framed i s (u.setWe i.instField y) :=
  { h with
    params := by rw [← h.params]; simp [State.params]
    weConfig := fun hn => (hc hn).trans (h.weConfig hn)
    weWin := fun hn => absurd hw hn
    others := fun j hj => by rw [State.setWe_we, List.getElem?_set_ne hj.symm]; exact h.others j hj }

/-- Replacing the decoder that INST names writes its reference, and its configuration unless that is kept. -/
theorem Framed.setWd (y : WdInst)
    (hc : .wdConfig ∉ writesColumn i → (u.wd.set i.instField y).map wdConfigOf = u.wd.map wdConfigOf)
    (hw : .wdRef ∈ writesColumn i := by simp [writesColumn]) : Framed i s (u.setWd i.instField y) :=
  { h with
    params := by rw [← h.params]; simp [State.params]
    wdConfig := fun hn => (hc hn).trans (h.wdConfig hn)
    wdRef := fun hn => absurd hw hn
    others := fun j hj => by rw [State.setWd_wd, List.getElem?_set_ne hj.symm]; exact h.others j hj }

theorem Framed.setTse (y : TseInst) (hw : .tse ∈ writesColumn i := by simp [writesColumn]) :
    Framed i s (u.setTse i.instField y) :=
  { h with
    params := by rw [← h.params]; simp [State.params]
    tse := fun hn => absurd hw hn
    others := fun j hj => by rw [State.setTse_tse, List.getElem?_set_ne hj.symm]; exact h.others j hj }

theorem Framed.setTsd (y : TsdInst) (hw : .tsd ∈ writesColumn i := by simp [writesColumn]) :
    Framed i s (u.setTsd i.instField y) :=
  { h with
    params := by rw [← h.params]; simp [State.params]
    tsd := fun hn => absurd hw hn
    others := fun j hj => by rw [State.setTsd_tsd, List.getElem?_set_ne hj.symm]; exact h.others j hj }

end

/-- The next state, if the result has one, keeps the frame of the command. -/
def KeepsFrame (i : Instr) (s : State) (r : Result) : Prop := ∀ t, r = .next t → Framed i s t

section
variable {i : Instr} {s u : State} {r : Result}

theorem keepsFrame_of_fault {f : Fault} (hr : r = .fault f) : KeepsFrame i s r := by
  rintro t rfl
  cases hr

theorem keepsFrame_of_next {o : Byte} {c : ErrCode} (hr : r = .next (complete o c u)) (h : Framed i s u) :
    KeepsFrame i s r := by
  rintro t rfl
  cases hr
  exact h.complete o c

theorem keepsFrame_of_raises {o : Byte} (h : Raises o s r) : KeepsFrame i s r := by
  obtain ⟨_, hr, _⟩ := h
  exact keepsFrame_of_next hr (.refl i s)

end

/-- Every command keeps its frame: it ends in a fault, in an error that changed only STATUS and CMD_COUNT, or in an
effect made of updates that the opcode map lists for it. -/
theorem exec_keepsFrame (i : Instr) (s : State) : KeepsFrame i s (exec i s) := by
  have h : ∀ i, Framed i s s := fun i => .refl i s
  cases i with
  | nop => exact keepsFrame_of_next rfl (h _)
  | brInit =>
    rcases execBrInit_cases s with hr | ⟨_, hn⟩
    exacts [keepsFrame_of_raises hr, keepsFrame_of_next hn ((h _).setReader _)]
  | brRead n =>
    rcases execBrRead_cases n s with hr | ⟨_, ⟨_, hf⟩ | ⟨_, hn⟩⟩
    exacts [keepsFrame_of_raises hr, keepsFrame_of_fault hf,
      keepsFrame_of_next hn (((h _).setRes0 _).setReaderPos _)]
  | brPeek n =>
    rcases execBrPeek_cases n s with hr | ⟨_, ⟨_, hf⟩ | ⟨_, hn⟩⟩
    exacts [keepsFrame_of_raises hr, keepsFrame_of_fault hf, keepsFrame_of_next hn ((h _).setRes0 _)]
  | brAlign => exact keepsFrame_of_next (execBrAlign_eq s) ((h _).setReaderPos _)
  | bwInit =>
    rcases execBwInit_cases s with hr | ⟨_, hn⟩
    exacts [keepsFrame_of_raises hr, keepsFrame_of_next hn ((h _).setWriter _)]
  | bwWrite n =>
    rcases execBwWrite_cases n s with hr | ⟨_, ⟨_, hf⟩ | ⟨_, _, hn⟩⟩
    exacts [keepsFrame_of_raises hr, keepsFrame_of_fault hf, keepsFrame_of_next hn ((h _).writeField _ _)]
  | bwAlign =>
    rcases execBwAlign_cases s with ⟨_, hf⟩ | ⟨_, hn⟩
    exacts [keepsFrame_of_fault hf, keepsFrame_of_next hn ((h _).writeField _ _)]
  | sdvlEnc =>
    rcases execSdvlEnc_cases s with hr | ⟨_, _, ⟨_, hf⟩ | ⟨_, hn⟩⟩
    exacts [keepsFrame_of_raises hr, keepsFrame_of_fault hf,
      keepsFrame_of_next hn (((h _).writeField _ _).setRes0 _)]
  | sdvlDec =>
    rcases execSdvlDec_cases s with hr | ⟨_, _, hf⟩ | ⟨_, _, hf⟩ | ⟨_, hn⟩
    exacts [keepsFrame_of_raises hr, keepsFrame_of_fault hf, keepsFrame_of_fault hf,
      keepsFrame_of_next hn ((((h _).setRes0 _).setRes1 _).setReaderPos _)]
  | crc kind d m c =>
    rcases execCrc_cases kind d m c s with hr | ⟨_, _, _, _, _, hn⟩
    exacts [keepsFrame_of_raises hr, keepsFrame_of_next hn ((h _).setRes0 _)]
  | weCfg j =>
    rcases execWeCfg_cases j s with hr | ⟨x, _, hn⟩
    exacts [keepsFrame_of_raises hr,
      keepsFrame_of_next hn ((h (.weCfg j)).setWe x fun hc => absurd (by simp [writesColumn]) hc)]
  | weAdd j =>
    rcases execWeAdd_cases j s with ⟨_, hr⟩ | ⟨x, hx, hn⟩
    exacts [keepsFrame_of_raises hr,
      keepsFrame_of_next hn ((h (.weAdd j)).setWe _ fun _ => map_set_eq_map hx (weConfigOf_add x _ _))]
  | weK j =>
    rcases execWeK_cases j s with ⟨_, hr⟩ | ⟨_, _, hn⟩
    exacts [keepsFrame_of_raises hr, keepsFrame_of_next hn (((h _).setRes0 _).setRes1 _)]
  | weInfo j sel =>
    rcases execWeInfo_cases j sel s with ⟨_, hr⟩ | ⟨_, _, _, _, hn⟩
    exacts [keepsFrame_of_raises hr, keepsFrame_of_next hn (((h _).setRes0 _).setRes1 _)]
  | weEntry j =>
    rcases execWeEntry_cases j s with hr | ⟨_, _, _, _, hn⟩
    exacts [keepsFrame_of_raises hr, keepsFrame_of_next hn (((h _).setRes0 _).setRes1 _)]
  | wdCfg j =>
    rcases execWdCfg_cases j s with hr | ⟨x, _, hn⟩
    exacts [keepsFrame_of_raises hr,
      keepsFrame_of_next hn ((h (.wdCfg j)).setWd x fun hc => absurd (by simp [writesColumn]) hc)]
  | wdSetref j =>
    rcases execWdSetref_cases j s with ⟨_, hr⟩ | ⟨x, hx, hn⟩
    exacts [keepsFrame_of_raises hr,
      keepsFrame_of_next hn ((h (.wdSetref j)).setWd _ fun _ => map_set_eq_map hx (wdConfigOf_setRef x _))]
  | wdDec j k =>
    rcases execWdDec_cases j k s with hr | ⟨_, _, _, _, hn⟩
    exacts [keepsFrame_of_raises hr, keepsFrame_of_next hn ((h _).setRes0 _)]
  | wdRd j sel =>
    rcases execWdRd_cases j sel s with ⟨_, hr⟩ | ⟨_, _, _, _, hn⟩
    exacts [keepsFrame_of_raises hr, keepsFrame_of_next hn (((h _).setRes0 _).setRes1 _)]
  | tseCfg j =>
    rcases execTseCfg_cases j s with hr | ⟨x, _, hn⟩
    exacts [keepsFrame_of_raises hr, keepsFrame_of_next hn ((h (.tseCfg j)).setTse x)]
  | tseEnc j =>
    rcases execTseEnc_cases j s with ⟨_, hr⟩ | ⟨x, _, ⟨_, hf⟩ | ⟨_, hn⟩⟩
    exacts [keepsFrame_of_raises hr, keepsFrame_of_fault hf,
      keepsFrame_of_next hn ((((h (.tseEnc j)).setTse _).setRes0 _).setRes1 _)]
  | tseRd j sel =>
    rcases execTseRd_cases j sel s with hr | ⟨_, _, _, _, hn⟩
    exacts [keepsFrame_of_raises hr, keepsFrame_of_next hn (((h _).setRes0 _).setRes1 _)]
  | tsdCfg j =>
    rcases execTsdCfg_cases j s with hr | ⟨x, _, hn⟩
    exacts [keepsFrame_of_raises hr, keepsFrame_of_next hn ((h (.tsdCfg j)).setTsd x)]
  | tsdStride j =>
    rcases execTsdStride_cases j s with hr | ⟨x, _, _, _, hn⟩
    exacts [keepsFrame_of_raises hr, keepsFrame_of_next hn ((h (.tsdStride j)).setTsd _)]
  | tsdScaled j =>
    rcases execTsdScaled_cases j s with hr | ⟨_, _, _, hn⟩
    exacts [keepsFrame_of_raises hr, keepsFrame_of_next hn ((h _).setRes0 _)]
  | tsdDeduce j =>
    rcases execTsdDeduce_cases j s with hr | ⟨_, _, _, _, hn⟩
    exacts [keepsFrame_of_raises hr, keepsFrame_of_next hn (((h _).setRes0 _).setRes1 _)]
  | tsdCommit j =>
    rcases execTsdCommit_cases j s with ⟨_, hr⟩ | ⟨x, _, hn⟩
    exacts [keepsFrame_of_raises hr, keepsFrame_of_next hn ((h (.tsdCommit j)).setTsd _)]
  | tsdRd j sel =>
    rcases execTsdRd_cases j sel s with hr | ⟨_, _, _, _, hn⟩
    exacts [keepsFrame_of_raises hr, keepsFrame_of_next hn (((h _).setRes0 _).setRes1 _)]

/-- Settles O10: the frame of a command, field by field; the parameters say the instance counts, and MEM with the
draw says every byte read. -/
theorem commandsChangeOnlyWhatTheMapLists : Obligations.CommandsChangeOnlyWhatTheMapLists := by
  unfold Obligations.CommandsChangeOnlyWhatTheMapLists
  intro i s t hexec
  have h := exec_keepsFrame i s t hexec
  have hparams := h.params
  simp only [State.params, Params.mk.injEq] at hparams
  obtain ⟨hsize, hwe, hwd, htse, htsd, hpoly, hinit⟩ := hparams
  obtain ⟨hdraw, hbus, hseen⟩ := h.host
  have hmem : .mem ∉ writesColumn i → ∀ a, t.memRead a = s.memRead a := fun hm a => by
    rw [State.memRead_eq, State.memRead_eq, hdraw, h.mem hm]
  exact ⟨⟨h.args, hsize, hpoly, hinit, hdraw, hbus, hseen⟩, ⟨hwe, hwd, htse, htsd⟩, h.res0, h.res1, h.brRegion,
    h.brPos, h.bwRegion, h.bwPos, hmem, h.weConfig, h.weWin, h.wdConfig, h.wdRef, h.tse, h.tsd⟩

/-- Settles O11: the last clause of the frame. -/
theorem commandsChangeOnlyTheirInstance : Obligations.CommandsChangeOnlyTheirInstance := by
  unfold Obligations.CommandsChangeOnlyTheirInstance
  intro i s t j hexec hj
  exact (exec_keepsFrame i s t hexec).others j hj

end Sys2Proof.Safety

/-! SUPPORT. The BIO commands (40_bitio_sdvl.md): which check of a command stops it and what it does when none
does, the fields it reads and writes at a cursor, and the statements on the bit reader, the bit writer and the SDVL
codec (O13 to O22). -/

namespace Sys2Proof.Machine

open Sys2Proof.Safety

/-! ### Command words -/

/-- The word of a command with INST 0 is its OPC and its FIELD (30_encoding.md R90). -/
theorem encode_of_noInst {i : Instr} (hi : i.instField = 0) (hf : i.fieldBits < 2 ^ 16) :
    encode i = BitVec.ofNat 32 (2 ^ 24 * i.opc.toNat + i.fieldBits) := by
  apply BitVec.eq_of_toNat_eq
  have hopc := i.opc.isLt
  rw [encode_toNat, hi, BitVec.toNat_ofNat]
  omega

/-! ### The checks and the cursor -/

theorem regionLegal_iff (s : State) (a len : Nat) : regionLegal s a len = true ↔ a + len ≤ s.memSize := by
  simp [regionLegal]

theorem Stream.not_holds_iff (r : Stream) (n : Nat) : (!r.holds n) = true ↔ 8 * r.len.toNat < r.pos.toNat + n := by
  simp [Stream.holds]

/-- A field that fits its region passes the check of the region. -/
theorem Stream.holds_passes {r : Stream} {n : Nat} (h : r.pos.toNat + n ≤ 8 * r.len.toNat) :
    ¬ (!r.holds n) = true := by
  rw [Stream.not_holds_iff]
  omega

/-- A field that fits its region passes the check of MEM (10_state.md R40, R41). -/
theorem Stream.inMem_passes {s : State} {r : Stream} {n : Nat} (hr : StreamInv s.memSize r)
    (h : r.pos.toNat + n ≤ 8 * r.len.toNat) : ¬ (!Stream.inMem s r n) = true := by
  simp [Stream.inMem_of_holds hr h]

theorem getBits_congr {s t : State} (h : ∀ a, t.memRead a = s.memRead a) (base q n : Nat) :
    getBits t base q n = getBits s base q n := by
  induction n with
  | zero => rfl
  | succ n ih => simp only [getBits, streamBit, h, ih]

@[simp] theorem readerField_complete (o : Byte) (c : ErrCode) (s : State) (n : Nat) :
    readerField (complete o c s) n = readerField s n :=
  congrArg toWord (getBits_congr (complete_memRead o c s) _ _ n)

@[simp] theorem readerField_setRes0 (s : State) (v : Word) (n : Nat) :
    readerField (s.setRes0 v) n = readerField s n :=
  congrArg toWord (getBits_congr (State.setRes0_memRead s v) _ _ n)

/-- The bits at the cursor of the reader are the field there. -/
theorem fieldIs_atReader (s : State) (n : Nat) :
    FieldIs s (cursorBit s.reader) n (getBits s s.reader.base.toNat s.reader.pos.toNat n) :=
  fieldIs_getBits s _ _ n

/-- A field write changes MEM and moves the cursor, and does nothing else. -/
theorem writeField_eq_update (s : State) (n v : Nat) :
    writeField s n v = { s with
      mem := (writeField s n v).mem, writer := { s.writer with pos := s.writer.pos + BitVec.ofNat 32 n } } := by
  rw [writeField_eq, Stream.advance_eq]
  rfl

theorem fieldWritten_writeField (s : State) (n v : Nat) :
    FieldWritten s (writeField s n v).mem (cursorBit s.writer) n v := by
  rw [writeField_eq]
  exact fieldWritten_setBits s _ _ n v

/-- The first m bits of a field are the field of its upper m bits. -/
theorem fieldIs_upper {s : State} {start n m w : Nat} (h : FieldIs s start n w) (hm : m ≤ n) :
    FieldIs s start m (w / 2 ^ (n - m)) where
  width := by
    rw [Nat.div_lt_iff_lt_mul (by positivity), ← Nat.pow_add, Nat.add_sub_cancel' hm]
    exact h.width
  bits j hj := by
    rw [Nat.testBit_div_two_pow, ← h.bits j (by omega)]
    congr 1
    omega

/-! ### BR_INIT and BW_INIT -/

/-- Settles O13: the two commands have the one check of the region. -/
theorem initCommandsSetTheRegionOrReportBadAddress : Obligations.InitCommandsSetTheRegionOrReportBadAddress := by
  unfold Obligations.InitCommandsSetTheRegionOrReportBadAddress
  refine ⟨by decide, fun s => ⟨fun h => ?_, fun h => ?_⟩⟩
  · have hlegal := (regionLegal_iff s _ _).2 h
    exact ⟨if_pos hlegal, if_pos hlegal⟩
  · have hillegal : ¬ regionLegal s s.args.arg0.toNat s.args.arg1.toNat = true := by
      rw [regionLegal_iff]
      omega
    exact ⟨if_neg hillegal, if_neg hillegal⟩

/-! ### The bit reader -/

theorem exec_brRead_of_cutOff {s : State} {n : Nat} (hn : n ≤ 32)
    (h : 8 * s.reader.len.toNat < s.reader.pos.toNat + n) :
    exec (.brRead n) s = .next (complete 0x02#8 .malformed s) := by
  rw [exec, execBrRead, if_neg (by omega), if_pos ((Stream.not_holds_iff _ _).2 h), raise]

/-- BR_READ of a field that is left (40_bitio_sdvl.md R122). -/
theorem exec_brRead_of_fits {s : State} {n : Nat} (hr : StreamInv s.memSize s.reader) (hn : n ≤ 32)
    (h : s.reader.pos.toNat + n ≤ 8 * s.reader.len.toNat) :
    exec (.brRead n) s = .next (complete 0x02#8 .ok { s with
      res0 := readerField s n
      reader := { s.reader with pos := s.reader.pos + BitVec.ofNat 32 n } }) := by
  rw [exec, execBrRead, if_neg (by omega), if_neg (Stream.holds_passes h), if_neg (Stream.inMem_passes hr h),
    Stream.advance_eq]
  rfl

/-- Settles O14: one law for each outcome of the command. -/
theorem brReadReturnsTheFieldAndAdvances : Obligations.BrReadReturnsTheFieldAndAdvances := by
  unfold Obligations.BrReadReturnsTheFieldAndAdvances
  refine ⟨fun n hn => encode_of_noInst rfl (Nat.lt_trans hn (by decide)), fun s n _ hr => ⟨fun hn => ?_,
    fun hn h => exec_brRead_of_cutOff hn h, fun hn h => ⟨_, fieldIs_atReader s n, exec_brRead_of_fits hr hn h⟩⟩⟩
  obtain ⟨hread, -, -⟩ := exec_bitCommands_of_countOver s hn
  exact hread

theorem exec_brPeek_of_cutOff {s : State} {n : Nat} (hn : n ≤ 32)
    (h : 8 * s.reader.len.toNat < s.reader.pos.toNat + n) :
    exec (.brPeek n) s = .next (complete 0x03#8 .malformed s) := by
  rw [exec, execBrPeek, if_neg (by omega), if_pos ((Stream.not_holds_iff _ _).2 h), raise]

/-- BR_PEEK of a field that is left (40_bitio_sdvl.md R124). -/
theorem exec_brPeek_of_fits {s : State} {n : Nat} (hr : StreamInv s.memSize s.reader) (hn : n ≤ 32)
    (h : s.reader.pos.toNat + n ≤ 8 * s.reader.len.toNat) :
    exec (.brPeek n) s = .next (complete 0x03#8 .ok { s with res0 := readerField s n }) := by
  rw [exec, execBrPeek, if_neg (by omega), if_neg (Stream.holds_passes h), if_neg (Stream.inMem_passes hr h)]
  rfl

/-- A peek leaves all that its checks and its field depend on, so a second one takes the same branch: it changes
nothing but STATUS and CMD_COUNT. -/
theorem exec_brPeek_again {s t : State} {n : Nat} (h : exec (.brPeek n) s = .next t) :
    exec (.brPeek n) t = .next (complete 0x03#8 t.status.code t) := by
  rw [exec, execBrPeek] at h
  split at h
  · rename_i hover
    cases h
    exact if_pos hover
  · rename_i hcount
    split at h
    · rename_i hshort
      cases h
      exact (if_neg hcount).trans (if_pos hshort)
    · rename_i hholds
      split at h
      · cases h
      · rename_i hmem
        cases h
        refine (if_neg hcount).trans ((if_neg hholds).trans ((if_neg hmem).trans ?_))
        rw [readerField_complete, readerField_setRes0]
        rfl

/-- Settles O15: one law for each outcome, and the law of the second peek. -/
theorem brPeekReturnsTheFieldAndKeepsTheCursor : Obligations.BrPeekReturnsTheFieldAndKeepsTheCursor := by
  unfold Obligations.BrPeekReturnsTheFieldAndKeepsTheCursor
  refine ⟨fun n hn => encode_of_noInst rfl (Nat.lt_trans hn (by decide)), fun s n _ hr => ⟨fun hn => ?_,
    fun hn h => exec_brPeek_of_cutOff hn h, fun hn h => ⟨_, fieldIs_atReader s n, exec_brPeek_of_fits hr hn h⟩⟩,
    fun s t u n ht hu => ?_⟩
  · obtain ⟨-, hpeek, -⟩ := exec_bitCommands_of_countOver s hn
    exact hpeek
  · rw [exec_brPeek_again ht] at hu
    cases hu
    exact ⟨rfl, rfl⟩

/-- Settles O16: the new cursor is the old one rounded up to a multiple of 8, which the region's end is too. -/
theorem brAlignMovesToTheNextByte : Obligations.BrAlignMovesToTheNextByte := by
  unfold Obligations.BrAlignMovesToTheNextByte
  refine ⟨by decide, fun s hsize hr => ⟨_, execBrAlign_eq s, ?_⟩⟩
  have hregion := hr.region
  have hcursor := hr.cursor
  rw [toWord_toNat_of_lt (by omega)]
  omega

/-! ### The bit writer -/

theorem exec_bwWrite_of_full {s : State} {n : Nat} (hn : n ≤ 32)
    (h : 8 * s.writer.len.toNat < s.writer.pos.toNat + n) :
    exec (.bwWrite n) s = .next (complete 0x06#8 .outputTooSmall s) := by
  rw [exec, execBwWrite, if_neg (by omega), if_pos ((Stream.not_holds_iff _ _).2 h), raise]

/-- BW_WRITE of a field that fits (40_bitio_sdvl.md R131). -/
theorem exec_bwWrite_of_fits {s : State} {n : Nat} (hr : StreamInv s.memSize s.writer) (hn : n ≤ 32)
    (h : s.writer.pos.toNat + n ≤ 8 * s.writer.len.toNat) :
    exec (.bwWrite n) s = .next (complete 0x06#8 .ok (writeField s n (s.args.arg0.toNat % 2 ^ n))) := by
  rw [exec, execBwWrite, if_neg (by omega), if_neg (Stream.holds_passes h), if_neg (Stream.inMem_passes hr h), finish]

/-- Settles O17: one law for each outcome, the written field being that of `writeField`. -/
theorem bwWriteWritesExactlyTheField : Obligations.BwWriteWritesExactlyTheField := by
  unfold Obligations.BwWriteWritesExactlyTheField
  refine ⟨fun n hn => encode_of_noInst rfl (Nat.lt_trans hn (by decide)), fun s n _ hr => ⟨fun hn => ?_,
    fun hn h => exec_bwWrite_of_full hn h, fun hn h => ⟨_, fieldWritten_writeField s n _, ?_⟩⟩⟩
  · obtain ⟨-, -, hwrite⟩ := exec_bitCommands_of_countOver s hn
    exact hwrite
  · rw [exec_bwWrite_of_fits hr hn h, ← writeField_eq_update]

/-- BW_ALIGN always fits: the region ends at a multiple of 8 (40_bitio_sdvl.md R133). -/
theorem exec_bwAlign_eq {s : State} (hr : StreamInv s.memSize s.writer) :
    exec .bwAlign s = .next (complete 0x07#8 .ok (writeField s s.writer.padding 0)) :=
  if_neg (Stream.inMem_passes hr (Stream.padding_fits hr))

/-- Settles O18: the padding is a field of zeros up to the next multiple of 8. -/
theorem bwAlignPadsWithZeroBits : Obligations.BwAlignPadsWithZeroBits := by
  unfold Obligations.BwAlignPadsWithZeroBits
  refine ⟨by decide, fun s _ hr => ⟨s.writer.padding, _, Stream.padding_lt _, Stream.padding_aligns _,
    Stream.padding_fits hr, fieldWritten_writeField s _ 0, ?_⟩⟩
  rw [exec_bwAlign_eq hr, ← writeField_eq_update]

/-- A BW_WRITE that fits leaves the field at the place of the cursor it found. -/
theorem fieldIs_after_bwWrite {s t : State} {n : Nat} (hw : StreamInv s.memSize s.writer) (hn : n ≤ 32)
    (hfit : s.writer.pos.toNat + n ≤ 8 * s.writer.len.toNat) (h : exec (.bwWrite n) s = .next t) :
    t.memSize = s.memSize ∧ FieldIs t (cursorBit s.writer) n (s.args.arg0.toNat % 2 ^ n) := by
  rw [exec_bwWrite_of_fits hw hn hfit, writeField_eq_update] at h
  cases h
  exact ⟨rfl, fieldIs_of_fieldWritten (fieldWritten_writeField s n _) (Nat.mod_lt _ (by positivity)) rfl rfl⟩

/-- Settles O21: the write leaves the field where the read takes one (O14), and a field has one value. -/
theorem bwWriteIsReadBackByBrRead : Obligations.BwWriteIsReadBackByBrRead := by
  unfold Obligations.BwWriteIsReadBackByBrRead
  intro s t n hsize hw hn hfit hexec
  obtain ⟨hkeep, hwritten⟩ := fieldIs_after_bwWrite hw hn hfit hexec
  rw [← hkeep] at hsize hw
  obtain ⟨-, hbrRead⟩ := brReadReturnsTheFieldAndAdvances
  obtain ⟨-, -, hread⟩ := hbrRead { t with reader := s.writer } n hsize hw
  obtain ⟨v, hfield, hrun⟩ := hread hn hfit
  have hv : v = s.args.arg0.toNat % 2 ^ n := FieldIs_unique hfield ⟨hwritten.width, hwritten.bits⟩
  have hlt : v < 2 ^ 32 := Nat.lt_of_lt_of_le hfield.width (Nat.pow_le_pow_right (by decide) hn)
  exact ⟨_, hrun, rfl, (toWord_toNat_of_lt hlt).trans hv⟩

/-! ### The SDVL codec -/

theorem exec_sdvlEnc_of_tooLarge {s : State} (h : 2 ^ 29 - 1 < s.args.arg0.toNat) :
    exec .sdvlEnc s = .next (complete 0x08#8 .malformedSdvl s) :=
  if_pos h

theorem exec_sdvlEnc_of_full {s : State} (hv : s.args.arg0.toNat ≤ 2 ^ 29 - 1)
    (h : 8 * s.writer.len.toNat < s.writer.pos.toNat + 8 * sdvlLength s.args.arg0.toNat) :
    exec .sdvlEnc s = .next (complete 0x08#8 .outputTooSmall s) :=
  (if_neg (Nat.not_lt.2 hv)).trans (if_pos ((Stream.not_holds_iff _ _).2 h))

/-- SDVL_ENC of a code word that fits (40_bitio_sdvl.md R140). -/
theorem exec_sdvlEnc_of_fits {s : State} (hr : StreamInv s.memSize s.writer) (hv : s.args.arg0.toNat ≤ 2 ^ 29 - 1)
    (h : s.writer.pos.toNat + 8 * sdvlLength s.args.arg0.toNat ≤ 8 * s.writer.len.toNat) :
    exec .sdvlEnc s = .next (complete 0x08#8 .ok
      ((writeField s (8 * sdvlLength s.args.arg0.toNat) (sdvlCode s.args.arg0.toNat)).setRes0
        (toWord (sdvlLength s.args.arg0.toNat)))) :=
  (if_neg (Nat.not_lt.2 hv)).trans
    ((if_neg (Stream.holds_passes h)).trans (if_neg (Stream.inMem_passes hr h)))

/-- Settles O19: the value is checked before the capacity, and the form written is the shortest. -/
theorem sdvlEncWritesTheShortestForm : Obligations.SdvlEncWritesTheShortestForm := by
  unfold Obligations.SdvlEncWritesTheShortestForm
  refine ⟨by decide, fun s _ hr => ⟨exec_sdvlEnc_of_tooLarge, fun hv => ⟨_, _, sdvlForm_shortest hv,
    exec_sdvlEnc_of_full hv, fun h => ⟨_, fieldWritten_writeField s _ _, ?_⟩⟩⟩⟩
  rw [exec_sdvlEnc_of_fits hr hv h, writeField_eq_update]
  rfl

theorem exec_sdvlDec_of_noByte {s : State} (h : 8 * s.reader.len.toNat < s.reader.pos.toNat + 8) :
    exec .sdvlDec s = .next (complete 0x09#8 .malformedSdvl s) :=
  if_pos ((Stream.not_holds_iff _ _).2 h)

theorem exec_sdvlDec_of_cutOff {s : State} (hr : StreamInv s.memSize s.reader)
    (h8 : s.reader.pos.toNat + 8 ≤ 8 * s.reader.len.toNat)
    (h : 8 * s.reader.len.toNat < s.reader.pos.toNat + 8 * readerSdvlLength s) :
    exec .sdvlDec s = .next (complete 0x09#8 .malformedSdvl s) :=
  (if_neg (Stream.holds_passes h8)).trans
    ((if_neg (Stream.inMem_passes hr h8)).trans (if_pos ((Stream.not_holds_iff _ _).2 h)))

/-- SDVL_DEC of a code that is left whole (40_bitio_sdvl.md R141). -/
theorem exec_sdvlDec_of_fits {s : State} (hr : StreamInv s.memSize s.reader)
    (h8 : s.reader.pos.toNat + 8 ≤ 8 * s.reader.len.toNat)
    (h : s.reader.pos.toNat + 8 * readerSdvlLength s ≤ 8 * s.reader.len.toNat) :
    exec .sdvlDec s = .next (complete 0x09#8 .ok { s with
      res0 := BitVec.ofNat 32 (getBits s s.reader.base.toNat s.reader.pos.toNat (8 * readerSdvlLength s)
        % 2 ^ sdvlValueBits (readerSdvlLength s))
      res1 := BitVec.ofNat 32 (readerSdvlLength s)
      reader := { s.reader with pos := s.reader.pos + BitVec.ofNat 32 (8 * readerSdvlLength s) } }) := by
  rw [exec, execSdvlDec, if_neg (Stream.holds_passes h8), if_neg (Stream.inMem_passes hr h8),
    if_neg (Stream.holds_passes h), if_neg (Stream.inMem_passes hr h), Stream.advance_eq]
  rfl

/-- The value bits that a first byte announces are at most 29, so decoding cannot overflow (40_bitio_sdvl.md R139). -/
theorem sdvlValue_le {b0 len bits : Nat} (h : SdvlPrefix b0 len bits) (w : Nat) : w % 2 ^ bits ≤ 2 ^ 29 - 1 := by
  rcases h with ⟨-, -, rfl⟩ | ⟨-, -, -, rfl⟩ | ⟨-, -, -, rfl⟩ | ⟨-, -, -, rfl⟩ <;> omega

/-- The first byte of a shortest form announces the form's own length and leaves the value (40_bitio_sdvl.md R142). -/
theorem sdvlPrefix_of_form {v len w len' bits : Nat} (hf : SdvlForm v len w)
    (hp : SdvlPrefix (w / 2 ^ (8 * len - 8)) len' bits) : len' = len ∧ w % 2 ^ bits = v := by
  unfold SdvlPrefix at hp
  rcases hf with ⟨_, rfl, rfl⟩ | ⟨_, _, rfl, rfl⟩ | ⟨_, _, rfl, rfl⟩ | ⟨_, _, rfl, rfl⟩
  · obtain ⟨rfl, rfl⟩ : len' = 1 ∧ bits = 7 := by omega
    omega
  · obtain ⟨rfl, rfl⟩ : len' = 2 ∧ bits = 14 := by omega
    omega
  · obtain ⟨rfl, rfl⟩ : len' = 3 ∧ bits = 21 := by omega
    omega
  · obtain ⟨rfl, rfl⟩ : len' = 4 ∧ bits = 29 := by omega
    omega

/-- Settles O20: the first byte's field announces the form, and the whole code is the field of that length. -/
theorem sdvlDecReadsThePrefixedValue : Obligations.SdvlDecReadsThePrefixedValue := by
  unfold Obligations.SdvlDecReadsThePrefixedValue
  refine ⟨by decide, fun s _ hr => ⟨exec_sdvlDec_of_noByte, fun h8 => ?_⟩⟩
  have hbyte := fieldIs_atReader s 8
  have hprefix := sdvlPrefix_firstByte hbyte.width
  exact ⟨_, _, _, hbyte, hprefix, exec_sdvlDec_of_cutOff hr h8, fun h =>
    ⟨_, fieldIs_atReader s _, sdvlValue_le hprefix _, exec_sdvlDec_of_fits hr h8 h⟩⟩

theorem sdvlForm_bounds {v len w : Nat} (h : SdvlForm v len w) : 1 ≤ len ∧ w < 2 ^ (8 * len) := by
  rcases h with ⟨_, rfl, rfl⟩ | ⟨_, _, rfl, rfl⟩ | ⟨_, _, rfl, rfl⟩ | ⟨_, _, rfl, rfl⟩ <;> omega

/-- An SDVL_ENC that ends with OK leaves the shortest form at the place of the cursor it found. -/
theorem fieldIs_after_sdvlEnc {s t : State} (hw : StreamInv s.memSize s.writer) (hv : s.args.arg0.toNat ≤ 2 ^ 29 - 1)
    (h : exec .sdvlEnc s = .next t) (hok : t.status.code = .ok) :
    t.memSize = s.memSize ∧ ∃ len w, SdvlForm s.args.arg0.toNat len w ∧
      s.writer.pos.toNat + 8 * len ≤ 8 * s.writer.len.toNat ∧ FieldIs t (cursorBit s.writer) (8 * len) w ∧
      t.res0 = BitVec.ofNat 32 len := by
  rcases Nat.lt_or_ge (8 * s.writer.len.toNat) (s.writer.pos.toNat + 8 * sdvlLength s.args.arg0.toNat) with
    hfull | hfit
  · rw [exec_sdvlEnc_of_full hv hfull] at h
    cases h
    cases hok
  · rw [exec_sdvlEnc_of_fits hw hv hfit, writeField_eq_update] at h
    cases h
    have hform := sdvlForm_shortest hv
    obtain ⟨-, hlt⟩ := sdvlForm_bounds hform
    exact ⟨rfl, _, _, hform, hfit, fieldIs_of_fieldWritten (fieldWritten_writeField s _ _) hlt rfl rfl, rfl⟩

/-- A reader at a shortest form decodes it (O20): the first byte is the field's upper 8 bits. -/
theorem exec_sdvlDec_of_form {s : State} {v len w : Nat} (hsize : s.memSize ≤ 65536)
    (hr : StreamInv s.memSize s.reader) (hform : SdvlForm v len w)
    (hfield : FieldIs s (cursorBit s.reader) (8 * len) w)
    (hfit : s.reader.pos.toNat + 8 * len ≤ 8 * s.reader.len.toNat) :
    ∃ u, exec .sdvlDec s = .next u ∧ u.status.code = .ok ∧ u.res0 = BitVec.ofNat 32 v ∧
      u.res1 = BitVec.ofNat 32 len := by
  obtain ⟨hlen, -⟩ := sdvlForm_bounds hform
  obtain ⟨-, hsdvlDec⟩ := sdvlDecReadsThePrefixedValue
  obtain ⟨-, hdec⟩ := hsdvlDec s hsize hr
  obtain ⟨b0, len', bits, hbyte, hprefix, -, hread⟩ := hdec (by omega)
  obtain rfl := FieldIs_unique hbyte (fieldIs_upper hfield (by omega))
  obtain ⟨rfl, hvalue⟩ := sdvlPrefix_of_form hform hprefix
  obtain ⟨w', hcode, -, hrun⟩ := hread hfit
  obtain rfl := FieldIs_unique hcode hfield
  exact ⟨_, hrun, rfl, congrArg (BitVec.ofNat 32) hvalue, rfl⟩

/-- Settles O22: the encode leaves the shortest form, and a reader there decodes it. -/
theorem sdvlRoundTripReturnsTheValue : Obligations.SdvlRoundTripReturnsTheValue := by
  unfold Obligations.SdvlRoundTripReturnsTheValue
  intro s t hsize hw hv hexec hok
  obtain ⟨hkeep, len, w, hform, hfit, hwritten, hlen⟩ := fieldIs_after_sdvlEnc hw hv hexec hok
  rw [← hkeep] at hsize hw
  obtain ⟨u, hdec, hcode, hres0, hres1⟩ := exec_sdvlDec_of_form (s := { t with reader := s.writer }) hsize hw hform
    ⟨hwritten.width, hwritten.bits⟩ hfit
  exact ⟨u, hdec, hcode, hres0.trans (toWord_toNat_self _), hres1.trans hlen.symm⟩

end Sys2Proof.Machine

/-! SUPPORT. The CRC unit (41_crc.md): its byte update as eight bit-serial shifts, the width of its register, which
check of CRC stops it and what it computes when none does, and the statements on it (O23 to O26). -/

namespace Sys2Proof.Machine

open Sys2Proof.Safety

/-! ### The byte update -/

/-- A shift takes bit 0 of the data XORed into the register as one bit-serial step does, and leaves the other data
bits XORed in, one place lower (41_crc.md R162). -/
theorem crcShift_xor (poly crc x : Byte) :
    crcShift poly (crc ^^^ x) = crcBit poly crc (x.getLsbD 0) ^^^ (x >>> 1) := by
  unfold crcShift crcBit
  rw [BitVec.getLsbD_xor, BitVec.ushiftRight_xor_distrib]
  split
  · rw [BitVec.xor_assoc, BitVec.xor_comm (x >>> 1), ← BitVec.xor_assoc]
  · rfl

/-- After k shifts the low k bits of the data have been fed from bit 0 up, and the others are still XORed in. -/
theorem crcShifts_xor (poly : Byte) (k : Nat) (crc x : Byte) :
    crcShifts poly k (crc ^^^ x) =
      (List.range k).foldl (fun r j => crcBit poly r (x.getLsbD j)) crc ^^^ (x >>> k) := by
  induction k generalizing crc x with
  | zero => rw [BitVec.ushiftRight_zero]; rfl
  | succ k ih =>
    rw [crcShifts, crcShift_xor, ih, List.range_succ_eq_map, List.foldl_cons, List.foldl_map,
      ← BitVec.shiftRight_add, Nat.add_comm 1 k]
    simp only [BitVec.getLsbD_ushiftRight, Nat.add_comm 1]

theorem crcByte_eq_foldl (poly crc b : Byte) :
    crcByte poly crc b = (List.range 8).foldl (fun r j => crcBit poly r (b.getLsbD j)) crc := by
  rw [crcByte, crcShifts_xor, BitVec.ushiftRight_eq_zero (Nat.le_refl 8), BitVec.xor_zero]

/-! ### The width of the register -/

theorem crcBit_lt {poly crc : Byte} {w : Nat} (hpoly : poly.toNat < 2 ^ w) (hcrc : crc.toNat < 2 ^ w) (b : Bool) :
    (crcBit poly crc b).toNat < 2 ^ w := by
  have hshift : (crc >>> 1).toNat < 2 ^ w := Nat.lt_of_le_of_lt (Nat.shiftRight_le _ _) hcrc
  unfold crcBit
  split
  · exact Nat.xor_lt_two_pow hshift hpoly
  · exact hshift

theorem crcByte_lt {poly crc : Byte} {w : Nat} (hpoly : poly.toNat < 2 ^ w) (hcrc : crc.toNat < 2 ^ w) (b : Byte) :
    (crcByte poly crc b).toNat < 2 ^ w := by
  rw [crcByte_eq_foldl]
  exact List.foldlRecOn (motive := fun r : Byte => r.toNat < 2 ^ w) _ _ hcrc fun _ hr _ _ => crcBit_lt hpoly hr _

theorem crcRegion_lt {s : State} {poly init : Byte} {w : Nat} (hpoly : poly.toNat < 2 ^ w)
    (hinit : init.toNat < 2 ^ w) (m : Bool) (a len : Nat) : (crcRegion s poly m a init len).toNat < 2 ^ w := by
  rw [crcRegion_eq_foldl]
  exact List.foldlRecOn (motive := fun r : Byte => r.toNat < 2 ^ w) _ _ hinit fun _ hr _ _ => crcByte_lt hpoly hr _

/-- Settles O24: a shift of the XOR is a bit-serial step, and no such step leaves the width. -/
theorem crcByteFoldsTheLeastSignificantBitFirst : Obligations.CrcByteFoldsTheLeastSignificantBitFirst := by
  unfold Obligations.CrcByteFoldsTheLeastSignificantBitFirst
  exact fun poly crc b => ⟨crcByte_eq_foldl poly crc b, fun _ _ hpoly hcrc => crcByte_lt hpoly hcrc b⟩

/-- POLY and the default init of a kind have its width (41_crc.md R161). -/
theorem crcTable_lt {s : State} {kind w : Nat} {poly init : Byte} (h : CrcTable s kind w poly init) :
    poly.toNat < 2 ^ w ∧ init.toNat < 2 ^ w := by
  rcases h with ⟨-, rfl, rfl, rfl⟩ | ⟨-, rfl, rfl, rfl⟩ | ⟨-, rfl, hpoly, hinit⟩ | ⟨-, rfl, rfl, rfl⟩ |
    ⟨-, rfl, rfl, rfl⟩
  case inr.inr.inl => exact ⟨hpoly ▸ s.crc6Poly.isLt, hinit ▸ s.crc6Init.isLt⟩
  all_goals decide

/-- The init of a run has the width of its row (41_crc.md R164). -/
theorem crcInit_lt {s : State} {row : CrcRow} {d : Bool} (hrow : row.init.toNat < 2 ^ row.width)
    (h : crcInitLegal s row d = true) : (crcInit s row d).toNat < 2 ^ row.width := by
  cases d with
  | true => exact hrow
  | false =>
    rw [crcInit, if_neg Bool.false_ne_true, BitVec.toNat_setWidth]
    exact Nat.lt_of_le_of_lt (Nat.mod_le _ _) (of_decide_eq_true h)

/-- RES0 holds the CRC register as a number. -/
theorem toNat_crcResult (s : State) (row : CrcRow) (d m : Bool) :
    (crcResult s row d m).toNat =
      (crcRegion s row.poly m s.args.arg0.toNat (crcInit s row d) s.args.arg1.toNat).toNat :=
  BitVec.toNat_setWidth_of_le (by decide)

/-- Settles O25: a CRC that ends so has run from a legal init, and every byte keeps the width. -/
theorem crcResultHasTheWidthOfItsKind : Obligations.CrcResultHasTheWidthOfItsKind := by
  unfold Obligations.CrcResultHasTheWidthOfItsKind
  intro s t kind w d m c poly init htable hexec hcode
  obtain ⟨hpoly, hinit⟩ := crcTable_lt htable
  change execCrc kind d m c s = .next t at hexec
  rcases execCrc_cases kind d m c s with ⟨e, he, hok, hmismatch, -⟩ | ⟨row, hrow, -, -, hlegal, hrun⟩
  · obtain rfl := Host.Outcome.next.inj (hexec.symm.trans he)
    exact absurd hcode (not_or.2 ⟨hok, hmismatch⟩)
  · obtain rfl := Host.Outcome.next.inj (hexec.symm.trans hrun)
    obtain rfl := Option.some.inj ((crcRow?_of_table htable).symm.trans hrow)
    rw [complete_res0, State.setRes0_res0, toNat_crcResult]
    exact crcRegion_lt hpoly (crcInit_lt hinit hlegal) m _ _

/-! ### The checks and the result of CRC -/

theorem not_regionLegal_iff (s : State) (a len : Nat) : (!regionLegal s a len) = true ↔ s.memSize < a + len := by
  simp [regionLegal]

theorem not_crcMaskLegal_iff (s : State) (m : Bool) :
    (!crcMaskLegal s m) = true ↔ m = true ∧ s.memSize < s.args.arg3.toNat + (s.args.arg1.toNat + 7) / 8 := by
  cases m <;> simp [crcMaskLegal, regionLegal]

theorem not_crcInitLegal_iff (s : State) (row : CrcRow) (d : Bool) :
    (!crcInitLegal s row d) = true ↔ d = false ∧ 2 ^ row.width ≤ s.args.arg2.toNat := by
  cases d <;> simp [crcInitLegal]

/-- CRC of a legal kind: its checks in their order, then its result (41_crc.md R164). -/
theorem exec_crc_of_table {s : State} {kind w : Nat} {poly init : Byte} (h : CrcTable s kind w poly init)
    (d m c : Bool) : exec (.crc kind d m c) s =
      if s.memSize < s.args.arg0.toNat + s.args.arg1.toNat then .next (complete 0x10#8 .badAddress s)
      else if m = true ∧ s.memSize < s.args.arg3.toNat + (s.args.arg1.toNat + 7) / 8 then
        .next (complete 0x10#8 .badAddress s)
      else if d = false ∧ 2 ^ w ≤ s.args.arg2.toNat then .next (complete 0x10#8 .illegalOperand s)
      else .next (complete 0x10#8 (crcCode s c (crcResult s ⟨w, poly, init⟩ d m))
        (s.setRes0 (crcResult s ⟨w, poly, init⟩ d m))) := by
  simp only [exec, execCrc, crcRow?_of_table h, not_regionLegal_iff, not_crcMaskLegal_iff, not_crcInitLegal_iff,
    raise]

/-- The result is the fold over the fed bytes, from the default init or ARG2 (41_crc.md R163, R164). -/
theorem crcResult_eq_foldl (s : State) (row : CrcRow) (d m : Bool) :
    crcResult s row d m =
      BitVec.ofNat 32 ((crcFed s m s.args.arg0.toNat s.args.arg1.toNat s.args.arg3.toNat).foldl (crcByte row.poly)
        (if d then row.init else BitVec.ofNat 8 s.args.arg2.toNat)).toNat := by
  rw [crcResult, crcRegion_eq_foldl, crcInit, BitVec.ofNat_toNat, BitVec.ofNat_toNat]

theorem crcCode_ofByte (s : State) (c : Bool) (crc : Byte) :
    crcCode s c (BitVec.ofNat 32 crc.toNat) =
      if c = true ∧ crc.toNat ≠ s.args.arg4.toNat then .crcMismatch else .ok := by
  have hword : BitVec.ofNat 32 crc.toNat = s.args.arg4 ↔ crc.toNat = s.args.arg4.toNat := by
    rw [← BitVec.toNat_inj, BitVec.toNat_ofNat, Nat.mod_eq_of_lt (Nat.lt_trans crc.isLt (by decide))]
  simp only [crcCode, Bool.and_eq_true, bne_iff_ne, Ne, hword]

/-- Settles O23: the four checks fail in their order, and past them the result is the fold. -/
theorem crcFoldsTheFedBytesOrReportsTheFirstError : Obligations.CrcFoldsTheFedBytesOrReportsTheFirstError := by
  unfold Obligations.CrcFoldsTheFedBytesOrReportsTheFirstError
  refine ⟨fun kind d m c hkind => ?_, fun s kind d m c =>
    ⟨exec_crc_of_kindOver s d m c, fun w poly init htable => ?_⟩⟩
  · obtain ⟨hfield, -⟩ := subfields_crcField kind hkind d m c
    rw [encode_of_noInst rfl (Nat.lt_trans hfield (by decide))]
    simp only [Instr.opc, Instr.fieldBits, crcField, Nat.add_assoc]
    rfl
  · rw [exec_crc_of_table htable]
    refine ⟨fun hpast => if_pos hpast, fun hdata => ?_⟩
    rw [if_neg (Nat.not_lt.2 hdata)]
    refine ⟨fun hm hpast => if_pos ⟨hm, hpast⟩, fun hmask => ?_⟩
    rw [if_neg fun ⟨hm, hpast⟩ => Nat.not_lt.2 (hmask hm) hpast]
    refine ⟨fun hd hover => if_pos ⟨hd, hover⟩, fun hinit => ⟨_, rfl, ?_⟩⟩
    rw [if_neg fun ⟨hd, hover⟩ => Nat.not_lt.2 hover (hinit hd), crcResult_eq_foldl, crcCode_ofByte]
    rfl

/-! ### Chaining -/

/-- With M = 0, a region that holds A then B feeds the bytes of A and then those of B (41_crc.md R163). -/
theorem crcFed_append {s : State} {a la b lb x : Nat} (hA : ∀ i, i < la → s.memRead (x + i) = s.memRead (a + i))
    (hB : ∀ i, i < lb → s.memRead (x + la + i) = s.memRead (b + i)) (ma : Nat) :
    crcFed s false x (la + lb) ma = crcFed s false a la ma ++ crcFed s false b lb ma := by
  simp only [crcFed, Bool.not_false, Bool.true_or, List.filter_true, List.range_add, List.map_append, List.map_map]
  congr 1
  · exact List.map_congr_left fun i hi => hA i (List.mem_range.1 hi)
  · refine List.map_congr_left fun i hi => ?_
    rw [Function.comp_apply, ← Nat.add_assoc, hB i (List.mem_range.1 hi)]

theorem foldl_crcFed_append {s : State} {a la b lb x : Nat}
    (hA : ∀ i, i < la → s.memRead (x + i) = s.memRead (a + i))
    (hB : ∀ i, i < lb → s.memRead (x + la + i) = s.memRead (b + i)) (poly init : Byte) (ma : Nat) :
    (crcFed s false x (la + lb) ma).foldl (crcByte poly) init =
      (crcFed s false b lb ma).foldl (crcByte poly) ((crcFed s false a la ma).foldl (crcByte poly) init) := by
  rw [crcFed_append hA hB, List.foldl_append]

/-- CRC with no flags, its operands legal: OK, and RES0 is the fold over the region from ARG2 and has the width of the
kind (41_crc.md R164). -/
theorem exec_crc_noFlags {s : State} {kind w : Nat} {poly init : Byte} (htable : CrcTable s kind w poly init)
    (hdata : s.args.arg0.toNat + s.args.arg1.toNat ≤ s.memSize) (hinit : s.args.arg2.toNat < 2 ^ w) :
    ∃ t, exec (.crc kind false false false) s = .next t ∧ t.status.code = .ok ∧ t.res0.toNat < 2 ^ w ∧
      t.res0 = ((crcFed s false s.args.arg0.toNat s.args.arg1.toNat s.args.arg3.toNat).foldl (crcByte poly)
        (s.args.arg2.setWidth 8)).setWidth 32 := by
  have hrun := exec_crc_of_table htable false false false
  rw [if_neg (Nat.not_lt.2 hdata), if_neg fun h => Bool.false_ne_true h.1,
    if_neg fun h => Nat.not_le.2 hinit h.2] at hrun
  refine ⟨_, hrun, rfl, crcResultHasTheWidthOfItsKind _ _ _ _ _ _ _ _ _ htable hrun (.inl rfl), ?_⟩
  rw [← crcRegion_eq_foldl]
  rfl

/-- Settles O26: the fold over A then B is the fold over B from the fold over A, and RES0 of the first run is a legal
init of the second (O25). -/
theorem crcChainsOverConcatenation : Obligations.CrcChainsOverConcatenation := by
  unfold Obligations.CrcChainsOverConcatenation
  intro s kind w poly init a la b lb x v htable hv ha hb hx hlen hA hB
  have hsum : (la + lb).toNat = la.toNat + lb.toNat := by rw [BitVec.toNat_add, Nat.mod_eq_of_lt hlen]
  rw [← hsum] at hx
  obtain ⟨t1, hrun1, hok1, hlt1, hres1⟩ := exec_crc_noFlags
    (s := { s with args := { s.args with arg0 := a, arg1 := la, arg2 := v } }) htable ha hv
  obtain ⟨t2, hrun2, hok2, -, hres2⟩ := exec_crc_noFlags
    (s := { s with args := { s.args with arg0 := b, arg1 := lb, arg2 := t1.res0 } }) htable hb hlt1
  obtain ⟨t3, hrun3, hok3, -, hres3⟩ := exec_crc_noFlags
    (s := { s with args := { s.args with arg0 := x, arg1 := la + lb, arg2 := v } }) htable hx hv
  refine ⟨t1, t2, t3, hrun1, hrun2, hrun3, hok1, hok2, hok3, ?_⟩
  have hfold := foldl_crcFed_append hA hB poly (v.setWidth 8) s.args.arg3.toNat
  rw [← hsum] at hfold
  rw [hres3, hres2, hres1, BitVec.setWidth_setWidth_of_le _ (by decide), BitVec.setWidth_eq]
  exact congrArg (BitVec.setWidth 32) hfold

end Sys2Proof.Machine

/-! SUPPORT. The WLSB unit (42_wlsb.md): the interpretation intervals as arithmetic mod 2^n, what each command of the
encoder and of the decoder does with an instance, and the statements on it (O27 to O36), with the reset instances of
O38. -/

namespace Sys2Proof.Machine

open Sys2Proof.Safety

/-! ### Command words -/

/-- The word of a command is its OPC, its INST and its FIELD (30_encoding.md R90). -/
theorem encode_eq_ofNat {i : Instr} (hi : i.instField < 2 ^ 8) (hf : i.fieldBits < 2 ^ 16) :
    encode i = BitVec.ofNat 32 (2 ^ 24 * i.opc.toNat + 2 ^ 16 * i.instField + i.fieldBits) := by
  apply BitVec.eq_of_toNat_eq
  have hopc := i.opc.isLt
  rw [encode_toNat, BitVec.toNat_ofNat]
  omega

/-- The word of a command with FIELD 0 is its OPC and its INST (30_encoding.md R90). -/
theorem encode_of_noField {i : Instr} (hi : i.instField < 2 ^ 8) (hf : i.fieldBits = 0) :
    encode i = BitVec.ofNat 32 (2 ^ 24 * i.opc.toNat + 2 ^ 16 * i.instField) := by
  rw [encode_eq_ofNat hi (by omega), hf, Nat.add_zero]

/-! ### The shift and the intervals -/

/-- From k to k + 1 the shift grows by at most 2^k, and never shrinks (42_wlsb.md R191). -/
theorem shiftP_succ_bounds (pmode : PMode) (pconst : Word) (k : Nat) :
    shiftP pmode pconst k ≤ shiftP pmode pconst (k + 1) ∧
    shiftP pmode pconst (k + 1) ≤ shiftP pmode pconst k + ((2 ^ k : Nat) : Int) := by
  have hpos : 0 < 2 ^ k := by positivity
  cases pmode with
  | constant => simp only [shiftP]; omega
  | rtpTs =>
    match k with
    | 0 | 1 => simp [shiftP]
    | j + 2 =>
      simp only [shiftP, Nat.pow_succ, show ¬ j + 2 < 2 by omega, show ¬ j + 2 + 1 < 2 by omega, if_false,
        Nat.add_sub_cancel, show j + 2 + 1 - 2 = j + 1 by omega]
      omega

/-- One more bit keeps a value in the interval when the shift grows by at most 2^k. -/
theorem inInterval_succ {n k : Nat} {r v p q : Int} (hk : k < n) (hle : p ≤ q)
    (hgrow : q ≤ p + ((2 ^ k : Nat) : Int)) (h : InInterval n r v p k) : InInterval n r v q (k + 1) := by
  have hdouble : 2 ^ (k + 1) = 2 * 2 ^ k := by rw [Nat.pow_succ, Nat.mul_comm]
  have hroom : 2 ^ (k + 1) ≤ 2 ^ n := Nat.pow_le_pow_right (by decide) hk
  have hnonneg := Int.emod_nonneg (v - (r - p)) (b := ((2 ^ n : Nat) : Int)) (by positivity)
  unfold InInterval at h ⊢
  rw [show v - (r - q) = v - (r - p) + (q - p) by omega, ← Int.emod_add_emod, Int.emod_eq_of_lt] <;> omega

/-- The interval with k = n is everything (42_wlsb.md R192). -/
theorem inInterval_width (n : Nat) (r v p : Int) : InInterval n r v p n :=
  Int.emod_lt_of_pos _ (by positivity)

/-- An interval of 2^k values holds at most one value for each residue mod 2^k (42_wlsb.md R190). -/
theorem eq_of_inInterval {n k v v' : Nat} {r p : Int} (hk : k ≤ n) (hv : v < 2 ^ n) (hv' : v' < 2 ^ n)
    (h : InInterval n r v p k) (h' : InInterval n r v' p k) (hmod : v % 2 ^ k = v' % 2 ^ k) : v = v' := by
  have hdvd : ((2 ^ k : Nat) : Int) ∣ ((2 ^ n : Nat) : Int) := Int.natCast_dvd_natCast.2 (Nat.pow_dvd_pow 2 hk)
  have hne : ((2 ^ n : Nat) : Int) ≠ 0 := by positivity
  have hres : (v - (r - p)) % ((2 ^ k : Nat) : Int) = (v' - (r - p)) % ((2 ^ k : Nat) : Int) :=
    (Int.emod_sub_cancel_right _).2 (by exact_mod_cast hmod)
  have hoff : (v - (r - p)) % ((2 ^ n : Nat) : Int) = (v' - (r - p)) % ((2 ^ n : Nat) : Int) := by
    rwa [← Int.emod_emod_of_dvd _ hdvd, ← Int.emod_emod_of_dvd (v' - _) hdvd,
      Int.emod_eq_of_lt (Int.emod_nonneg _ hne) h, Int.emod_eq_of_lt (Int.emod_nonneg _ hne) h'] at hres
  have heq : v % 2 ^ n = v' % 2 ^ n := by exact_mod_cast (Int.emod_sub_cancel_right _).1 hoff
  rwa [Nat.mod_eq_of_lt hv, Nat.mod_eq_of_lt hv'] at heq

/-- Settles O27: sext_32 of a 32-bit word is its signed reading. -/
theorem shiftFollowsTheConfiguredMode : Obligations.ShiftFollowsTheConfiguredMode := by
  unfold Obligations.ShiftFollowsTheConfiguredMode
  refine ⟨by decide, fun pconst k => ⟨?_, fun hk => ?_, fun hk => if_pos hk⟩⟩
  · rw [shiftP, sextN_eq_toInt (by decide), BitVec.ofInt_natCast, BitVec.ofNat_toNat, BitVec.setWidth_eq]
  · rw [shiftP, if_neg (Nat.not_lt.2 hk)]
    push_cast
    rfl

/-- Settles O28: from k to k + 1 the offset in the interval grows by at most 2^k, to below 2^(k + 1). -/
theorem intervalsAreNested : Obligations.IntervalsAreNested := by
  unfold Obligations.IntervalsAreNested
  intro n pmode pconst r v k
  obtain ⟨hle, hgrow⟩ := shiftP_succ_bounds pmode pconst k
  exact ⟨fun hk h => inInterval_succ hk hle hgrow h, inInterval_width _ _ _ _⟩

/-! ### Configuration -/

theorem weConfig?_eq_some {a : Args} {x : WeInst} :
    weConfig? a = some x ↔ x.n.bits = a.arg0.toNat ∧ x.pmode.bit.toNat = a.arg1.toNat ∧ x.pconst = a.arg2 ∧
      x.w.toNat = a.arg3.toNat ∧ x.snw.bits = a.arg4.toNat ∧ x.win = [] := by
  obtain ⟨n, pmode, pconst, w, snw, win⟩ := x
  simp only [weConfig?, Option.bind_eq_some_iff, Option.map_eq_some_iff, Width.ofWord?_eq_some,
    PMode.ofWord?_eq_some, WindowWidth.ofWord?_eq_some, WeInst.mk.injEq]
  constructor
  · rintro ⟨_, hn, _, hp, _, hw, _, hs, rfl, rfl, rfl, rfl, rfl, rfl⟩
    exact ⟨hn, hp, rfl, hw, hs, rfl⟩
  · rintro ⟨hn, hp, rfl, hw, hs, rfl⟩
    exact ⟨n, hn, pmode, hp, w, hw, snw, hs, rfl, rfl, rfl, rfl, rfl, rfl⟩

theorem Width.ofWord?_ne_none {v : Word} : Width.ofWord? v ≠ none ↔ v.toNat ∈ [12, 16, 32] := by
  rw [Ne, Width.ofWord?_eq_none, not_not]

theorem PMode.ofWord?_ne_none {v : Word} : PMode.ofWord? v ≠ none ↔ v.toNat ∈ [0, 1] := by
  rw [Ne, PMode.ofWord?_eq_none, not_not]

theorem WindowWidth.ofWord?_ne_none {v : Word} :
    WindowWidth.ofWord? v ≠ none ↔ v.toNat ∈ [1, 2, 4, 8, 16, 32, 64, 128, 256] := by
  rw [Ne, WindowWidth.ofWord?_eq_none, not_not]

/-- WE_CFG has an instance to configure iff every operand is in its set (42_wlsb.md R196). -/
theorem exists_weConfig?_iff {a : Args} :
    (∃ x, weConfig? a = some x) ↔ a.arg0.toNat ∈ [12, 16, 32] ∧ a.arg1.toNat ∈ [0, 1] ∧
      a.arg3.toNat ∈ [1, 2, 4, 8, 16, 32, 64, 128, 256] ∧ a.arg4.toNat ∈ [12, 16, 32] := by
  rw [← Width.ofWord?_ne_none, ← PMode.ofWord?_ne_none, ← WindowWidth.ofWord?_ne_none, ← Width.ofWord?_ne_none]
  simp [weConfig?, Option.ne_none_iff_exists', Option.bind_eq_some_iff]

theorem wdConfig?_eq_some {a : Args} {x : WdInst} :
    wdConfig? a = some x ↔ x.n.bits = a.arg0.toNat ∧ x.pmode.bit.toNat = a.arg1.toNat ∧ x.pconst = a.arg2 ∧
      x.ref = 0#32 ∧ x.refValid = false := by
  obtain ⟨n, pmode, pconst, ref, refValid⟩ := x
  simp only [wdConfig?, Option.bind_eq_some_iff, Option.map_eq_some_iff, Width.ofWord?_eq_some,
    PMode.ofWord?_eq_some, WdInst.mk.injEq]
  constructor
  · rintro ⟨_, hn, _, hp, rfl, rfl, rfl, rfl, rfl⟩
    exact ⟨hn, hp, rfl, rfl, rfl⟩
  · rintro ⟨hn, hp, rfl, rfl, rfl⟩
    exact ⟨n, hn, pmode, hp, rfl, rfl, rfl, rfl, rfl⟩

/-- WD_CFG has an instance to configure iff both operands are in their sets (42_wlsb.md R210). -/
theorem exists_wdConfig?_iff {a : Args} :
    (∃ x, wdConfig? a = some x) ↔ a.arg0.toNat ∈ [12, 16, 32] ∧ a.arg1.toNat ∈ [0, 1] := by
  rw [← Width.ofWord?_ne_none, ← PMode.ofWord?_ne_none]
  simp [wdConfig?, Option.ne_none_iff_exists', Option.bind_eq_some_iff]

theorem exec_weCfg_of_some {s : State} {i : Nat} {x : WeInst} (hi : i < s.we.length) (hx : weConfig? s.args = some x) :
    exec (.weCfg i) s = .next (complete 0x20#8 .ok { s with we := s.we.set i x }) := by
  rw [exec, execWeCfg, List.getElem?_eq_getElem hi, hx]
  rfl

theorem exec_weCfg_of_none {s : State} {i : Nat} (hi : i < s.we.length) (hx : weConfig? s.args = none) :
    exec (.weCfg i) s = .next (complete 0x20#8 .illegalOperand s) := by
  rw [exec, execWeCfg, List.getElem?_eq_getElem hi, hx]
  rfl

theorem exec_wdCfg_of_some {s : State} {i : Nat} {x : WdInst} (hi : i < s.wd.length) (hx : wdConfig? s.args = some x) :
    exec (.wdCfg i) s = .next (complete 0x28#8 .ok { s with wd := s.wd.set i x }) := by
  rw [exec, execWdCfg, List.getElem?_eq_getElem hi, hx]
  rfl

theorem exec_wdCfg_of_none {s : State} {i : Nat} (hi : i < s.wd.length) (hx : wdConfig? s.args = none) :
    exec (.wdCfg i) s = .next (complete 0x28#8 .illegalOperand s) := by
  rw [exec, execWdCfg, List.getElem?_eq_getElem hi, hx]
  rfl

/-- Settles O29: the operands are legal exactly when there is an instance to configure, and it has them as its
fields. -/
theorem wlsbConfigurationAcceptsExactlyItsSets : Obligations.WlsbConfigurationAcceptsExactlyItsSets := by
  unfold Obligations.WlsbConfigurationAcceptsExactlyItsSets
  refine ⟨fun i hi => ⟨encode_of_noField hi rfl, encode_of_noField hi rfl⟩,
    fun s i hi => ⟨fun h => ?_, fun h => ?_⟩, fun s i hi => ⟨fun h => ?_, fun h => ?_⟩⟩
  · obtain ⟨x, hx⟩ := exists_weConfig?_iff.2 h
    exact ⟨x, exec_weCfg_of_some hi hx, weConfig?_eq_some.1 hx⟩
  · exact exec_weCfg_of_none hi (Option.eq_none_iff_forall_ne_some.2 fun x hx => h (exists_weConfig?_iff.1 ⟨x, hx⟩))
  · obtain ⟨x, hx⟩ := exists_wdConfig?_iff.2 h
    exact ⟨x, exec_wdCfg_of_some hi hx, wdConfig?_eq_some.1 hx⟩
  · exact exec_wdCfg_of_none hi (Option.eq_none_iff_forall_ne_some.2 fun x hx => h (exists_wdConfig?_iff.1 ⟨x, hx⟩))

/-- Settles O38: the reset instance has the operands given as its fields. -/
theorem configurationRestoresReset : Obligations.ConfigurationRestoresReset := by
  unfold Obligations.ConfigurationRestoresReset
  intro s i
  refine ⟨fun hi h0 h1 h2 h3 h4 => exec_weCfg_of_some hi (weConfig?_eq_some.2 ?_),
    fun hi h0 h1 h2 => exec_wdCfg_of_some hi (wdConfig?_eq_some.2 ?_), fun hi h0 h1 => ?_, fun hi h0 => ?_⟩
  · rw [h0, h1, h2, h3, h4]; decide
  · rw [h0, h1, h2]; decide
  · have hx : tseConfig? s.args = some TseInst.reset := by rw [tseConfig?, h0, h1]; rfl
    rw [exec, execTseCfg, List.getElem?_eq_getElem hi, hx]
    rfl
  · have hx : tsdConfig? s.args = some TsdInst.reset := by rw [tsdConfig?, h0]; rfl
    rw [exec, execTsdCfg, List.getElem?_eq_getElem hi, hx]
    rfl

/-! ### The encoder -/

theorem exec_weAdd_of_some {s : State} {i : Nat} {x : WeInst} (hx : s.we[i]? = some x) :
    exec (.weAdd i) s = .next (complete 0x21#8 .ok (s.setWe i (x.add s.args.arg0 s.args.arg1))) := by
  rw [exec, execWeAdd, hx]
  rfl

/-- The purge by the reduced SN is the purge by the SN (42_wlsb.md R195). -/
theorem purged_eq_filter (x : WeInst) (sn : Word) :
    x.purged (uN x.snw.bits sn.toNat) = x.win.filter (fun e =>
      decide (((sn.toNat : Int) - e.sn.toNat) % ((2 ^ x.snw.bits : Nat) : Int)
        ≤ ((2 ^ (x.snw.bits - 1) : Nat) : Int))) := by
  unfold WeInst.purged
  congr 1
  funext e
  rw [← Int.emod_sub_emod, ← uN_cast, ← uN_cast]
  simp only [Nat.cast_le]

theorem evicted_eq_tail (x : WeInst) (win : List WeEntry) :
    x.evicted win = if win.length = x.w.toNat then win.tail else win := by
  rw [WeInst.evicted, List.drop_one]

/-- Settles O30: the purge keeps at most the entries there were, and a window of W entries loses one before the new
entry comes. -/
theorem weAddPurgesEvictsAndAppends : Obligations.WeAddPurgesEvictsAndAppends := by
  unfold Obligations.WeAddPurgesEvictsAndAppends
  refine ⟨fun i hi => encode_of_noField hi rfl, fun s i x hx => ⟨_, _, rfl, rfl, ?_, fun hlen => ?_⟩⟩
  · rw [← purged_eq_filter, ← evicted_eq_tail, ← uN_natCast, ← uN_natCast]
    exact exec_weAdd_of_some hx
  · rw [← purged_eq_filter, ← evicted_eq_tail, List.length_append]
    exact evicted_length_lt (Nat.le_trans (purged_length_le x _) hlen)

/-- kmin is the least count that covers (42_wlsb.md R193). -/
theorem not_coversAll_of_lt_kmin {x : WeInst} {v j : Nat} (hwin : x.win ≠ []) (hj : j < x.kmin v) :
    ¬ x.coversAll v j = true := by
  have hrange : j < x.n.bits + 1 := Nat.lt_succ_of_lt (Nat.lt_of_lt_of_le hj (kmin_le x v))
  rw [WeInst.kmin, if_neg (by simpa using hwin)] at hj
  cases hfind : (List.range (x.n.bits + 1)).find? (fun k => x.coversAll v k) with
  | none => exact List.find?_eq_none.1 hfind j (List.mem_range.2 hrange)
  | some k =>
    rw [hfind] at hj
    have hleast := (List.find?_range_eq_some.1 hfind).2.2 j hj
    simpa using hleast

theorem exec_weK_of_some {s : State} {i v : Nat} {x : WeInst} (hx : s.we[i]? = some x)
    (hv : v = s.args.arg0.toNat % 2 ^ x.n.bits) :
    exec (.weK i) s = .next (complete 0x22#8 .ok { s with
      res0 := BitVec.ofNat 32 (x.kmin v), res1 := BitVec.ofNat 32 (v % 2 ^ x.kmin v) }) := by
  rw [exec, execWeK, hx, hv, ← uN_natCast]
  rfl

/-- Settles O31: k is kmin, which covers every entry and below which some entry is not covered. -/
theorem weKReturnsTheLeastCoveringCount : Obligations.WeKReturnsTheLeastCoveringCount := by
  unfold Obligations.WeKReturnsTheLeastCoveringCount
  refine ⟨fun i hi => encode_of_noField hi rfl, fun s i x hx => ⟨_, _, rfl, kmin_le x _,
    exec_weK_of_some hx rfl, fun hwin => ?_, coversAll_iff.1 (coversAll_kmin x _), fun hwin j hj => ?_⟩⟩
  · rw [WeInst.kmin, hwin, List.isEmpty_nil, if_pos rfl]
  · have hnot := not_coversAll_of_lt_kmin hwin hj
    rw [coversAll_iff] at hnot
    push Not at hnot
    exact hnot

/-- RES1 of WE_INFO with SEL 0 as a number (42_wlsb.md R198). -/
theorem WeInst.infoWord_eq (x : WeInst) :
    x.infoWord = BitVec.ofNat 32
      (2 ^ 24 * x.pmode.bit.toNat + 2 ^ 16 * x.snw.bits + 2 ^ 8 * x.n.bits + (x.w.toNat - 1)) := by
  apply BitVec.eq_of_toNat_eq
  have hsnw := x.snw.bits_le
  have hn := x.n.bits_le
  have hw := x.w.le
  have hpmode := Bool.toNat_le x.pmode.bit
  simp only [WeInst.infoWord, bit, toNat_append_eq, BitVec.toNat_ofBool, BitVec.toNat_ofNat]
  omega

/-- Settles O32: each read returns the fields of the instance, packed as a number, and an index at or past the count has
no entry. -/
theorem encoderReadsReportItsFields : Obligations.EncoderReadsReportItsFields := by
  unfold Obligations.EncoderReadsReportItsFields
  refine ⟨fun i sel hi hsel => ⟨encode_eq_ofNat hi (by simp only [Instr.fieldBits]; omega),
    encode_of_noField hi rfl⟩, fun s i x hx => ⟨?_, ?_, fun e he => ?_, fun hlen => ?_⟩⟩
  · rw [← x.infoWord_eq, exec, execWeInfo, hx]; rfl
  · rw [exec, execWeInfo, hx]; rfl
  · rw [exec, execWeEntry, hx]; simp only [he]; rfl
  · rw [exec, execWeEntry, hx]; simp only [List.getElem?_eq_none hlen]; rfl

/-! ### The decoder -/

/-- u_K after u_N is u_K for K at most N (00_scope.md R11). -/
theorem uN_mod_of_le {n k : Nat} (hk : k ≤ n) (y : Int) : uN n y % 2 ^ k = uN k y := by
  have hdvd : ((2 ^ k : Nat) : Int) ∣ ((2 ^ n : Nat) : Int) := Int.natCast_dvd_natCast.2 (Nat.pow_dvd_pow 2 hk)
  rw [← uN_natCast]
  apply uN_congr
  rw [uN_cast, Int.emod_emod_of_dvd _ hdvd]

/-- Up from a by the distance from a to b mod 2^K is b mod 2^K. -/
theorem uN_add_uN_sub (k : Nat) (a b : Int) : uN k (a + uN k (b - a)) = uN k b := by
  apply uN_congr
  rw [uN_cast, Int.add_emod_emod, add_sub_cancel]

/-- The decoded value agrees with m in its low K bits (42_wlsb.md R212). -/
theorem decoded_mod (x : WdInst) {k : Nat} (m : Nat) (hk : k ≤ x.n.bits) : x.decoded k m % 2 ^ k = m % 2 ^ k := by
  rw [WdInst.decoded, uN_mod_of_le hk, uN_add_uN_sub, uN_of_lt (Nat.mod_lt _ (by positivity))]

/-- The decoded value lies in the interval of the reference (42_wlsb.md R212). -/
theorem decoded_inInterval (x : WdInst) {k : Nat} (m : Nat) (hk : k ≤ x.n.bits) :
    InInterval x.n.bits x.ref.toNat (x.decoded k m) (shiftP x.pmode x.pconst k) k := by
  have hoff := uN_lt k ((m % 2 ^ k : Nat) - (x.lower k : Int))
  have hroom : 2 ^ k ≤ 2 ^ x.n.bits := Nat.pow_le_pow_right (by decide) hk
  have hstart : ((x.lower k : Int) - (x.ref.toNat - shiftP x.pmode x.pconst k)) % ((2 ^ x.n.bits : Nat) : Int) = 0 := by
    rw [WdInst.lower, uN_cast, Int.emod_sub_emod, sub_self, Int.zero_emod]
  rw [InInterval, WdInst.decoded, uN_cast, Int.emod_sub_emod, add_sub_right_comm, ← Int.emod_add_emod, hstart,
    Int.zero_add, Int.emod_eq_of_lt] <;> omega

theorem exec_wdDec_of_noReference {s : State} {i k : Nat} {x : WdInst} (hx : s.wd[i]? = some x) (hk : k ≤ x.n.bits)
    (href : x.refValid = false) : exec (.wdDec i k) s = .next (complete 0x2A#8 .noReference s) := by
  rw [exec, execWdDec, hx]
  simp only [if_neg (Nat.not_lt.2 hk), href]
  rfl

theorem exec_wdDec_of_reference {s : State} {i k : Nat} {x : WdInst} (hx : s.wd[i]? = some x) (hk : k ≤ x.n.bits)
    (href : x.refValid = true) :
    exec (.wdDec i k) s = .next (complete 0x2A#8 .ok { s with
      res0 := BitVec.ofNat 32 (x.decoded k s.args.arg0.toNat) }) := by
  rw [exec, execWdDec, hx]
  simp only [if_neg (Nat.not_lt.2 hk), href]
  rfl

/-- A value of n bits in the interval with the low K bits of m is the decoded value (42_wlsb.md R212). -/
theorem eq_decoded {x : WdInst} {k m v : Nat} (hk : k ≤ x.n.bits) (hv : v < 2 ^ x.n.bits)
    (hmod : v % 2 ^ k = m % 2 ^ k) (hin : InInterval x.n.bits x.ref.toNat v (shiftP x.pmode x.pconst k) k) :
    v = x.decoded k m :=
  eq_of_inInterval hk hv (uN_lt _ _) hin (decoded_inInterval x m hk) (hmod.trans (decoded_mod x m hk).symm)

/-- Settles O34: the decoded value has the three properties, and an interval holds one value for each residue. -/
theorem wdDecReturnsTheOneValueOfTheInterval : Obligations.WdDecReturnsTheOneValueOfTheInterval := by
  unfold Obligations.WdDecReturnsTheOneValueOfTheInterval
  refine ⟨fun i k hi hk => encode_eq_ofNat hi (by simp only [Instr.fieldBits]; omega), fun s i k x hx =>
    ⟨fun hk => exec_wdDec_of_countOver s fun y hy => ?_, exec_wdDec_of_noReference hx, fun hk href =>
      ⟨_, exec_wdDec_of_reference hx hk href, ⟨uN_lt _ _, decoded_mod x _ hk, decoded_inInterval x _ hk⟩,
        fun v hv hmod hin => eq_decoded hk hv hmod hin⟩⟩⟩
  rw [hx] at hy
  obtain rfl := Option.some.inj hy
  exact hk

/-- A decoder whose interval holds v decodes the low K bits of v to v (42_wlsb.md R213). -/
theorem exec_wdDec_of_inInterval {s : State} {i k v : Nat} {x : WdInst} (hx : s.wd[i]? = some x) (hk : k ≤ x.n.bits)
    (href : x.refValid = true) (hv : v < 2 ^ x.n.bits)
    (hin : InInterval x.n.bits x.ref.toNat v (shiftP x.pmode x.pconst k) k) (hm : s.args.arg0.toNat = v % 2 ^ k) :
    exec (.wdDec i k) s = .next (complete 0x2A#8 .ok { s with res0 := BitVec.ofNat 32 v }) := by
  have hmod : v % 2 ^ k = s.args.arg0.toNat % 2 ^ k := by rw [hm, Nat.mod_mod]
  rw [exec_wdDec_of_reference hx hk href, ← eq_decoded hk hv hmod hin]

/-- Settles O35: v has the properties that single out the decoded value. -/
theorem decodingInvertsEncoding : Obligations.DecodingInvertsEncoding := by
  unfold Obligations.DecodingInvertsEncoding
  intro s i k v x hx hk href hv hin hm
  exact exec_wdDec_of_inInterval hx hk href hv hin hm

/-- Settles O36: kmin covers every entry, so v lies in the interval of the entry that is the reference; k and the
low k bits fit the result registers. -/
theorem anyWindowReferenceDecodesTheValue : Obligations.AnyWindowReferenceDecodesTheValue := by
  unfold Obligations.AnyWindowReferenceDecodesTheValue
  intro s t i x hx hrun e he u j y hy hn hpmode hpconst hye href hm
  rw [exec_weK_of_some hx rfl, Host.Outcome.next.injEq] at hrun
  subst hrun
  have hv : s.args.arg0.toNat % 2 ^ x.n.bits < 2 ^ x.n.bits := Nat.mod_lt _ (by positivity)
  generalize s.args.arg0.toNat % 2 ^ x.n.bits = v at hm hv ⊢
  have hle := kmin_le x v
  have hk : (BitVec.ofNat 32 (x.kmin v)).toNat = x.kmin v :=
    toWord_toNat_of_lt (by have := x.n.bits_le; omega)
  have hres1 : (BitVec.ofNat 32 (v % 2 ^ x.kmin v)).toNat = v % 2 ^ x.kmin v :=
    toWord_toNat_of_lt (Nat.lt_of_le_of_lt (Nat.mod_le _ _) (Nat.lt_of_lt_of_le hv x.n.pow_bits_le))
  have hin := coversAll_iff.1 (coversAll_kmin x v) e he
  simp only [complete_res0, hk]
  rw [← hn, ← hpmode, ← hpconst, ← hye] at hin
  exact exec_wdDec_of_inInterval hy (hn ▸ hle) href (hn ▸ hv) hin (by rw [hm]; exact hres1)

/-- RES1 of WD_RD with SEL 0 as a number (42_wlsb.md R214). -/
theorem WdInst.infoWord_eq (x : WdInst) :
    x.infoWord = BitVec.ofNat 32
      (2 ^ 31 * x.refValid.toNat + 2 ^ 24 * x.pmode.bit.toNat + 2 ^ 8 * x.n.bits) := by
  apply BitVec.eq_of_toNat_eq
  have hn := x.n.bits_le
  have href := Bool.toNat_le x.refValid
  have hpmode := Bool.toNat_le x.pmode.bit
  simp only [WdInst.infoWord, bit, toNat_append_eq, BitVec.toNat_ofBool, BitVec.toNat_ofNat]
  omega

/-- No WD_DEC changes a decoder (42_wlsb.md R211). -/
theorem exec_wdDec_keeps_wd {s t : State} {i k : Nat} (h : exec (.wdDec i k) s = .next t) : t.wd = s.wd := by
  rcases execWdDec_cases i k s with ⟨_, hraise, _⟩ | ⟨_, _, _, _, hok⟩
  · cases hraise.symm.trans h; rfl
  · cases hok.symm.trans h; rfl

/-- Settles O33: WD_SETREF sets only the reference, WD_RD packs the fields, and WD_DEC writes RES0 alone or raises. -/
theorem decoderReferenceIsSetAndRead : Obligations.DecoderReferenceIsSetAndRead := by
  unfold Obligations.DecoderReferenceIsSetAndRead
  refine ⟨fun i sel hi hsel => ⟨encode_of_noField hi rfl, encode_eq_ofNat hi (by simp only [Instr.fieldBits]; omega)⟩,
    fun s i x hx => ⟨?_, ?_, ?_, fun k t => exec_wdDec_keeps_wd⟩⟩
  · rw [← uN_natCast, exec, execWdSetref, hx]; rfl
  · rw [← x.infoWord_eq, exec, execWdRd, hx]; rfl
  · rw [exec, execWdRd, hx]; rfl

end Sys2Proof.Machine

/-! SUPPORT. The TSC unit (43_ts_scaled.md): what one packet does to an encoder, way by way, the words RES1 and the
flags as numbers, what each command of the encoder and of the decoder does with an instance, and the statements on it
(O37, O39 to O48). -/

namespace Sys2Proof.Machine

open Sys2Proof.Safety

/-! ### One packet through the encoder -/

theorem exec_tseEnc_of_packet {s : State} {i : Nat} {x y : TseInst} {f : TsFlags} (hx : s.tse[i]? = some x)
    (hz : x.dividesByZero s.args.arg0 = false) (hp : x.packet s.args.arg0 s.args.arg1 = (y, f)) :
    exec (.tseEnc i) s = .next (complete 0x31#8 .ok { s with
      tse := s.tse.set i y, res0 := y.tsScaled, res1 := tseResult y f }) := by
  rw [exec, execTseEnc, hx]
  simp only [hz, hp]
  rfl

/-- No prior TS, or a delta of 0 or past the SDVL capacity (43_ts_scaled.md R234). -/
theorem transition_of_rejected {x : TseInst} {ts : Word} (h : x.haveOld = false ∨ x.rejects ts = true) (sn : Nat) :
    x.transition ts sn = ({ x with state := .initTs }, .unscaled) := by
  unfold TseInst.transition
  rcases h with h | h <;> simp [h]

/-- The encoder in INIT_STRIDE with a stride that `count` packets have carried (43_ts_scaled.md R236). -/
def TseInst.holding (x : TseInst) (stride count : Nat) : TseInst :=
  { x with state := .initStride, tsStride := toWord stride, strideCount := BitVec.ofNat 8 count }

theorem newStride_eq_holding (x : TseInst) (stride : Nat) : x.newStride stride = x.holding stride 0 := rfl

theorem sameStride_eq_holding (x : TseInst) : x.sameStride = x.holding x.tsStride.toNat 0 := by
  rw [TseInst.holding, toWord_toNat_self]
  rfl

theorem eq_holding {x : TseInst} (h : x.state = .initStride) : x = x.holding x.tsStride.toNat x.strideCount.toNat := by
  rw [TseInst.holding, toWord_toNat_self, BitVec.ofNat_toNat, BitVec.setWidth_eq, ← h]

/-- The stride that the encoder sends with this packet, and how many packets have carried it before
(43_ts_scaled.md R235 to R237). -/
inductive SendsStride (x : TseInst) (ts : Word) : Nat → Nat → Prop where
  | fromInitTs (hst : x.state = .initTs) : SendsStride x ts (x.delta ts) 0
  | changed (hst : x.state = .initStride) (hd : x.delta ts ≠ x.tsStride.toNat) : SendsStride x ts (x.delta ts) 0
  | kept (hst : x.state = .initStride) (hd : x.delta ts = x.tsStride.toNat) :
      SendsStride x ts x.tsStride.toNat x.strideCount.toNat
  | noMultiple (hst : x.state = .sendScaled) (hd : x.delta ts % x.tsStride.toNat ≠ 0) :
      SendsStride x ts (x.delta ts) 0
  | wrapped (hst : x.state = .sendScaled) (hd : x.delta ts % x.tsStride.toNat = 0)
      (hw : x.wraps ts = true ∧ x.offsetOf ts ≠ x.tsOffset.toNat) : SendsStride x ts x.tsStride.toNat 0

/-- The encoder stays in SEND_SCALED: the delta is a multiple of the stride, and no wrap-around changes the offset
(43_ts_scaled.md R237, R238). -/
structure SendsScaled (x : TseInst) (ts : Word) : Prop where
  state    : x.state = .sendScaled
  multiple : x.delta ts % x.tsStride.toNat = 0
  noWrap   : ¬(x.wraps ts = true ∧ x.offsetOf ts ≠ x.tsOffset.toNat)

theorem transition_of_sendsStride {x : TseInst} {ts : Word} {stride count : Nat} (ho : x.haveOld = true)
    (hr : x.rejects ts = false) (h : SendsStride x ts stride count) (sn : Nat) :
    x.transition ts sn = ((x.holding stride count).sendStride ts, .withStride) := by
  cases h with
  | fromInitTs hst => simp [TseInst.transition, ho, hr, hst, newStride_eq_holding]
  | changed hst hd => simp [TseInst.transition, ho, hr, hst, hd, newStride_eq_holding]
  | kept hst hd => simp [TseInst.transition, ho, hr, hst, hd, ← eq_holding hst]
  | noMultiple hst hd => simp [TseInst.transition, ho, hr, hst, hd, newStride_eq_holding]
  | wrapped hst hd hw => simp [TseInst.transition, ho, hr, hst, hd, hw, sameStride_eq_holding]

theorem transition_of_sendsScaled {x : TseInst} {ts : Word} (ho : x.haveOld = true) (hr : x.rejects ts = false)
    (h : SendsScaled x ts) (sn : Nat) :
    x.transition ts sn = (x.sendScaled ts, .scaled (x.deduces ts sn)) := by
  simp only [TseInst.transition, ho, hr, h.state, h.multiple, if_neg h.noWrap]
  rfl

/-- Outside INIT_TS there is no third way. -/
theorem sendsStride_or_sendsScaled (x : TseInst) (ts : Word) :
    (∃ stride count, SendsStride x ts stride count) ∨ SendsScaled x ts := by
  cases hst : x.state with
  | initTs => exact .inl ⟨_, _, .fromInitTs hst⟩
  | initStride =>
    by_cases hd : x.delta ts = x.tsStride.toNat
    · exact .inl ⟨_, _, .kept hst hd⟩
    · exact .inl ⟨_, _, .changed hst hd⟩
  | sendScaled =>
    by_cases hd : x.delta ts % x.tsStride.toNat = 0
    · by_cases hw : x.wraps ts = true ∧ x.offsetOf ts ≠ x.tsOffset.toNat
      · exact .inl ⟨_, _, .wrapped hst hd hw⟩
      · exact .inr ⟨hst, hd, hw⟩
    · exact .inl ⟨_, _, .noMultiple hst hd⟩

theorem SendsStride.count_lt {x : TseInst} {ts : Word} {stride count : Nat} (h : SendsStride x ts stride count)
    (hinv : TseInv x) : count < x.l.toNat := by
  cases h with
  | kept hst _ => exact hinv.pending hst
  | _ => exact hinv.repetitions

theorem SendsStride.stride_lt {x : TseInst} {ts : Word} {stride count : Nat} (h : SendsStride x ts stride count)
    (hr : x.rejects ts = false) : stride < 2 ^ 32 := by
  have hcap : Config.sdvlMax < 2 ^ 32 := by decide
  have hr : ¬(x.delta ts = 0 ∨ Config.sdvlMax < x.delta ts) := by rw [← rejects_iff, hr]; decide
  cases h with
  | kept | wrapped => exact x.tsStride.isLt
  | _ => omega

/-- The count starts again, or goes up with the stride kept (43_ts_scaled.md R241). -/
theorem SendsStride.count_eq {x : TseInst} {ts : Word} {stride count : Nat} (h : SendsStride x ts stride count) :
    count = 0 ∨ count = x.strideCount.toNat ∧ stride = x.tsStride.toNat := by
  cases h with
  | kept => exact .inr ⟨rfl, rfl⟩
  | _ => exact .inl rfl

theorem packet_of_rejected {x : TseInst} {ts : Word} (h : x.haveOld = false ∨ x.rejects ts = true) (sn : Word) :
    x.packet ts sn = ({ x with
      state := .initTs, haveOld := true, oldTs := ts, oldSn := BitVec.ofNat 32 (sn.toNat % 2 ^ x.snw.bits)
      deducible := false }, .unscaled) := by
  rw [TseInst.packet, transition_of_rejected h, uN_natCast]
  rfl

/-- The count stays in its byte, as it stays at most L (43_ts_scaled.md R232). -/
theorem toNat_count_succ {count : Nat} {l : Byte} (h : count < l.toNat) :
    (BitVec.ofNat 8 (count + 1)).toNat = count + 1 := by
  have hl := l.isLt
  rw [BitVec.toNat_ofNat]
  omega

theorem packet_of_sendsStride {x : TseInst} {ts : Word} {stride count : Nat} (hinv : TseInv x)
    (ho : x.haveOld = true) (hr : x.rejects ts = false) (h : SendsStride x ts stride count) (sn : Word) :
    x.packet ts sn = (strideSent x ts sn.toNat stride count, .withStride) := by
  have hcount : BitVec.ofNat 8 count + 1#8 = BitVec.ofNat 8 (count + 1) := (BitVec.ofNat_add count 1).symm
  have hnat := toNat_count_succ (h.count_lt hinv)
  have hstride : (toWord stride).toNat = stride := toWord_toNat_of_lt (h.stride_lt hr)
  rw [TseInst.packet, transition_of_sendsStride ho hr h, uN_natCast]
  simp only [TseInst.sendStride, TseInst.remember, scaledOf_eq, TseInst.offsetOf, TseInst.holding, hstride, hcount,
    hnat]
  rfl

theorem packet_of_sendsScaled {x : TseInst} {ts : Word} (ho : x.haveOld = true) (hr : x.rejects ts = false)
    (h : SendsScaled x ts) (sn : Word) :
    x.packet ts sn = ({ x with
      haveOld := true, oldTs := ts, oldSn := BitVec.ofNat 32 (sn.toNat % 2 ^ x.snw.bits)
      tsOffset := BitVec.ofNat 32 (ts.toNat % x.tsStride.toNat)
      tsScaled := BitVec.ofNat 32 (ts.toNat / x.tsStride.toNat)
      deducible := x.deduces ts (uN x.snw.bits sn.toNat) }, .scaled (x.deduces ts (uN x.snw.bits sn.toNat))) := by
  rw [TseInst.packet, transition_of_sendsScaled ho hr h, ← scaledOf_eq, ← uN_natCast]
  rfl

/-- Settles O39: the packet is rejected whatever the state, and no division is made. -/
theorem tseEncGoesToInitTs : Obligations.TseEncGoesToInitTs := by
  unfold Obligations.TseEncGoesToInitTs
  intro s i x hx h
  have hrej : x.haveOld = false ∨ x.rejects s.args.arg0 = true := by rwa [rejects_iff, delta_eq]
  have hz : x.dividesByZero s.args.arg0 = false := by
    rcases hrej with h | h <;> simp [TseInst.dividesByZero, h]
  rw [exec_tseEnc_of_packet hx hz (packet_of_rejected hrej _), tseResult_eq]
  rfl

theorem tseResult_strideSent {x : TseInst} {count : Nat} (h : count < x.l.toNat) (ts : Word) (sn stride : Nat) :
    tseResult (strideSent x ts sn stride count) .withStride =
      BitVec.ofNat 32 (2 ^ 8 * (count + 1) + 12 + (if x.l.toNat ≤ count + 1 then 2 else 1)) := by
  rw [tseResult_eq]
  simp only [strideSent, toNat_count_succ h]
  split <;> rfl

/-- Settles O40: the five ways of the statement are those in which the encoder sends the stride. -/
theorem tseEncSendsTheStride : Obligations.TseEncSendsTheStride := by
  unfold Obligations.TseEncSendsTheStride
  intro s i x delta stride count hx hinv ho hdelta h1 h2 hway
  have hr : x.rejects s.args.arg0 = false := not_rejects (hdelta ▸ h1) (hdelta ▸ h2)
  rw [← delta_eq] at hdelta
  subst hdelta
  have hsends : SendsStride x s.args.arg0 stride count := by
    rcases hway with ⟨hst, rfl, rfl⟩ | ⟨hst, hd, rfl, rfl⟩ | ⟨hst, hd, rfl, rfl⟩ | ⟨hst, hd, rfl, rfl⟩ |
      ⟨hst, hd, hlt, hfwd, hoff, rfl, rfl⟩
    · exact .fromInitTs hst
    · exact .changed hst hd
    · rw [hd]; exact .kept hst hd
    · exact .noMultiple hst hd
    · exact .wrapped hst hd ⟨(wraps_iff _ _).2 ⟨hlt, hfwd⟩, hoff⟩
  rw [exec_tseEnc_of_packet hx (not_dividesByZero hinv _) (packet_of_sendsStride hinv ho hr hsends _),
    tseResult_strideSent (hsends.count_lt hinv)]
  rfl

/-- Settles O41: the encoder stays in SEND_SCALED, and DED is the comparison of the statement. -/
theorem tseEncSendsScaled : Obligations.TseEncSendsScaled := by
  unfold Obligations.TseEncSendsScaled
  intro s i x ded hx hinv ho hst h1 h2 hd hwrap hded
  have hscaled : SendsScaled x s.args.arg0 :=
    ⟨hst, by rwa [delta_eq], by rwa [wraps_iff, and_assoc]⟩
  rw [← deduces_iff, ← Bool.eq_iff_iff] at hded
  rw [exec_tseEnc_of_packet hx (not_dividesByZero hinv _) (packet_of_sendsScaled ho (not_rejects h1 h2) hscaled _),
    tseResult_eq, ← hded, hst]
  cases ded <;> rfl

/-! ### What a packet reports -/

/-- UNS, STF, DED and ALL in RES1, and the two bits above them (43_ts_scaled.md R239). -/
theorem tseResult_bits (x : TseInst) (f : TsFlags) :
    (tseResult x f).getLsbD 2 = f.uns ∧ (tseResult x f).getLsbD 3 = f.stf ∧ (tseResult x f).getLsbD 4 = f.ded ∧
    (tseResult x f).getLsbD 5 = f.all ∧ (tseResult x f).getLsbD 6 = false ∧ (tseResult x f).getLsbD 7 = false := by
  simp only [tseResult, bit, BitVec.getLsbD_append]
  simp

/-- COUNT is the upper byte of the 16 bits that RES1 uses, STATE its two lowest bits (43_ts_scaled.md R239). -/
theorem tseResult_fields (x : TseInst) (f : TsFlags) :
    (tseResult x f).toNat < 2 ^ 16 ∧ (tseResult x f).toNat / 2 ^ 8 = x.strideCount.toNat ∧
    (tseResult x f).toNat % 4 = x.state.code.toNat := by
  have hcount := x.strideCount.isLt
  have hcode := x.state.code.isLt
  have hall := Bool.toNat_le f.all
  have hded := Bool.toNat_le f.ded
  have hstf := Bool.toNat_le f.stf
  have huns := Bool.toNat_le f.uns
  rw [tseResult_eq, BitVec.toNat_ofNat, Nat.mod_eq_of_lt (by omega)]
  omega

/-- What a packet with the flags f has done to its instance x, which is y after it (43_ts_scaled.md R232). -/
inductive PacketForm (x : TseInst) (ts sn : Word) (y : TseInst) : TsFlags → Prop where
  | unscaled (hstate : y.state = .initTs) (hcount : y.strideCount = x.strideCount)
      (hstride : y.tsStride = x.tsStride) : PacketForm x ts sn y .unscaled
  | withStride (stride count : Nat) (hsends : SendsStride x ts stride count)
      (hy : y = strideSent x ts sn.toNat stride count) : PacketForm x ts sn y .withStride
  | scaled (hstate : x.state = .sendScaled) (hcount : y.strideCount = x.strideCount)
      (hstride : y.tsStride = x.tsStride) (hscaled : y.tsScaled = BitVec.ofNat 32 (ts.toNat / x.tsStride.toNat)) :
      PacketForm x ts sn y (.scaled (x.deduces ts (uN x.snw.bits sn.toNat)))

/-- Every packet takes one of the three forms. -/
theorem packetForm {x : TseInst} (hinv : TseInv x) (ts sn : Word) :
    PacketForm x ts sn (x.packet ts sn).1 (x.packet ts sn).2 := by
  by_cases hrej : x.haveOld = false ∨ x.rejects ts = true
  · rw [packet_of_rejected hrej]
    exact .unscaled rfl rfl rfl
  · rw [not_or, Bool.not_eq_false, Bool.not_eq_true] at hrej
    obtain ⟨ho, hr⟩ := hrej
    rcases sendsStride_or_sendsScaled x ts with ⟨stride, count, hsends⟩ | hscaled
    · rw [packet_of_sendsStride hinv ho hr hsends]
      exact .withStride stride count hsends rfl
    · rw [packet_of_sendsScaled ho hr hscaled]
      exact .scaled hscaled.state rfl rfl rfl

/-- L is set by TSE_CFG alone (43_ts_scaled.md R231). -/
theorem packet_l (x : TseInst) (ts sn : Word) : (x.packet ts sn).1.l = x.l := by
  simp only [TseInst.packet, TseInst.transition]
  repeat' split
  all_goals rfl

/-- TSE_ENC is one packet through its instance, reported in RES0 and RES1. -/
theorem exec_tseEnc_of_inv {s : State} {i : Nat} {x : TseInst} (hx : s.tse[i]? = some x) (hinv : TseInv x) :
    ∃ y f, exec (.tseEnc i) s = .next (complete 0x31#8 .ok { s with
        tse := s.tse.set i y, res0 := y.tsScaled, res1 := tseResult y f }) ∧
      (s.tse.set i y)[i]? = some y ∧ TseInv y ∧ y.l = x.l ∧ y.deducible = f.ded ∧
      PacketForm x s.args.arg0 s.args.arg1 y f := by
  obtain ⟨hi, -⟩ := List.getElem?_eq_some_iff.1 hx
  exact ⟨_, _, exec_tseEnc_of_packet hx (not_dividesByZero hinv _) rfl, List.getElem?_set_self hi,
    tseInv_packet hinv _ _, packet_l x _ _, rfl, packetForm hinv _ _⟩

/-- Settles O42: RES1 holds the flags of the packet beside the new count and state, and each form has one flag. -/
theorem tseEncReportsExactlyOneForm : Obligations.TseEncReportsExactlyOneForm := by
  unfold Obligations.TseEncReportsExactlyOneForm
  refine ⟨fun i hi => encode_of_noField hi rfl, fun s i x hx hinv => ?_⟩
  obtain ⟨y, f, hrun, hy, -, -, hdeducible, hform⟩ := exec_tseEnc_of_inv hx hinv
  obtain ⟨hlt, hcount, hstate⟩ := tseResult_fields y f
  obtain ⟨huns, hstf, hded, hall, h6, h7⟩ := tseResult_bits y f
  refine ⟨_, y, hrun, rfl, hy, rfl, hlt, hcount, hstate, h6, h7, hdeducible.trans hded.symm, ?_⟩
  simp only [complete_res1, huns, hstf, hded, hall]
  cases hform with
  | unscaled => decide
  | withStride => decide
  | scaled => cases x.deduces _ _ <;> decide

/-- Settles O43: a packet with STF sends a stride, whose count starts again or goes up; the other two forms keep the
count, and the invariant of the new instance says that SEND_SCALED has the count at L. -/
theorem sendScaledIsEnteredOnTheLthStride : Obligations.SendScaledIsEnteredOnTheLthStride := by
  unfold Obligations.SendScaledIsEnteredOnTheLthStride
  intro s t i x y hx hinv ht hy
  obtain ⟨z, f, hrun, hz, hzinv, hl, -, hform⟩ := exec_tseEnc_of_inv hx hinv
  cases hrun.symm.trans ht
  cases hz.symm.trans hy
  obtain ⟨-, hstf, -⟩ := tseResult_bits y f
  have hL : y.state = .sendScaled → y.strideCount.toNat = y.l.toNat :=
    fun hst => Nat.le_antisymm hzinv.count (hzinv.sent hst)
  simp only [complete_res1, hstf]
  cases hform with
  | unscaled hstate hcount hstride =>
    exact ⟨hl, nofun, fun _ => ⟨hcount, hstride⟩, hL, fun hst => by rw [hstate] at hst; cases hst⟩
  | scaled hstate hcount hstride =>
    exact ⟨hl, nofun, fun _ => ⟨hcount, hstride⟩, hL, fun _ hne => absurd hstate hne⟩
  | withStride stride count hsends hstride =>
    refine ⟨hl, fun _ => ?_, nofun, hL, fun _ _ => rfl⟩
    have hcount : y.strideCount.toNat = count + 1 := by rw [hstride]; exact toNat_count_succ (hsends.count_lt hinv)
    rw [hcount]
    rcases hsends.count_eq with rfl | ⟨rfl, rfl⟩
    · exact .inl rfl
    · exact .inr ⟨rfl, by rw [hstride]; exact toWord_toNat_self _⟩

/-! ### The decoder -/

/-- u_32 of a number in a register is its 32-bit vector (00_scope.md R11). -/
theorem toWord_uN (z : Int) : toWord (uN 32 z) = BitVec.ofInt 32 z := by
  apply BitVec.eq_of_toNat_eq
  rw [toWord_toNat_of_lt (uN_lt 32 z), BitVec.toNat_ofInt]
  rfl

theorem toWord_timestamp (x : TsdInst) (scaled : Nat) :
    toWord (x.timestamp scaled) = BitVec.ofNat 32 scaled * x.stride + x.offset := by
  rw [TsdInst.timestamp, toWord_uN, BitVec.ofInt_add, BitVec.ofInt_mul]
  simp

theorem toWord_deducedScaled (x : TsdInst) (sn : Word) :
    toWord (x.deducedScaled sn) = x.scaledRef + BitVec.ofInt 32
      (BitVec.ofNat x.snw.bits sn.toNat - BitVec.ofNat x.snw.bits x.snRef.toNat).toInt := by
  rw [TsdInst.deducedScaled, toWord_uN, BitVec.ofInt_add, sextN_sub x.snw.bits_pos]
  simp

theorem exec_tsdScaled_of_noStride {s : State} {i : Nat} {x : TsdInst} (hx : s.tsd[i]? = some x)
    (h : x.stride = 0#32) : exec (.tsdScaled i) s = .next (complete 0x3A#8 .noReference s) := by
  rw [exec, execTsdScaled, hx]
  exact if_pos h

theorem exec_tsdScaled_of_stride {s : State} {i : Nat} {x : TsdInst} (hx : s.tsd[i]? = some x)
    (h : x.stride ≠ 0#32) : exec (.tsdScaled i) s = .next (complete 0x3A#8 .ok { s with
      res0 := s.args.arg0 * x.stride + x.offset }) := by
  have hres := toWord_timestamp x s.args.arg0.toNat
  rw [BitVec.ofNat_toNat, BitVec.setWidth_eq] at hres
  rw [exec, execTsdScaled, hx, ← hres]
  exact if_neg h

theorem exec_tsdDeduce_of_unknown {s : State} {i : Nat} {x : TsdInst} (hx : s.tsd[i]? = some x)
    (h : x.stride = 0#32 ∨ x.refValid = false) :
    exec (.tsdDeduce i) s = .next (complete 0x3B#8 .noReference s) := by
  rw [exec, execTsdDeduce, hx]
  exact if_pos h

theorem exec_tsdDeduce_of_known {s : State} {i : Nat} {x : TsdInst} {scaled : Word} (hx : s.tsd[i]? = some x)
    (h : x.stride ≠ 0#32) (href : x.refValid = true)
    (hscaled : scaled = x.scaledRef + BitVec.ofInt 32
      (BitVec.ofNat x.snw.bits s.args.arg0.toNat - BitVec.ofNat x.snw.bits x.snRef.toNat).toInt) :
    exec (.tsdDeduce i) s = .next (complete 0x3B#8 .ok { s with
      res0 := scaled * x.stride + x.offset, res1 := scaled }) := by
  rw [← toWord_deducedScaled] at hscaled
  rw [exec, execTsdDeduce, hx, hscaled, toWord_eq (x.deducedScaled s.args.arg0), ← toWord_timestamp]
  exact if_neg (by simp [h, href])

/-- Settles O46: what the two commands put in the registers is, mod 2^32, the sum of the statement. -/
theorem tsdRebuildsTheTimestamp : Obligations.TsdRebuildsTheTimestamp := by
  unfold Obligations.TsdRebuildsTheTimestamp
  exact ⟨fun i hi => ⟨encode_of_noField hi rfl, encode_of_noField hi rfl⟩, fun s i x hx =>
    ⟨exec_tsdScaled_of_noStride hx, exec_tsdScaled_of_stride hx, exec_tsdDeduce_of_unknown hx,
      fun h href => ⟨_, rfl, exec_tsdDeduce_of_known hx h href rfl⟩⟩⟩

/-- A TS is its scaled value and its offset put together (43_ts_scaled.md R252). -/
theorem scaled_mul_stride_add_offset (ts stride offset : Word) (h : offset.toNat = ts.toNat % stride.toNat) :
    BitVec.ofNat 32 (ts.toNat / stride.toNat) * stride + offset = ts := by
  apply BitVec.eq_of_toNat_eq
  have hts := ts.isLt
  have hq := Nat.div_le_self ts.toNat stride.toNat
  have hscaled : ts.toNat / stride.toNat % 2 ^ 32 = ts.toNat / stride.toNat := Nat.mod_eq_of_lt (by omega)
  rw [BitVec.toNat_add, BitVec.toNat_mul, BitVec.toNat_ofNat, hscaled, h, Nat.mod_add_mod, Nat.div_add_mod', Nat.mod_eq_of_lt hts]

theorem tsStride_ne_zero {x : TseInst} (h : TseInv x) (hst : x.state ≠ .initTs) : x.tsStride ≠ 0#32 := by
  intro h0
  have hpos := h.stride hst
  rw [h0] at hpos
  exact absurd hpos (by decide)

/-- Settles O48: DED says that the signed SN difference is the scaled difference, which the decoder adds to the same
scaled reference; with the offset of the new TS the scaled value gives back the TS. -/
theorem deduceReturnsTheEncodersTimestamp : Obligations.DeduceReturnsTheEncodersTimestamp := by
  unfold Obligations.DeduceReturnsTheEncodersTimestamp
  intro s t u i j x y hx hinv hst ht hded hy hyinv hstride href htsRef hsnRef hsnw hoffset hsn
  have hout : x.state ≠ .initTs := by rw [hst]; decide
  have hne : y.stride ≠ 0#32 := hstride ▸ tsStride_ne_zero hinv hout
  have hsame : y.scaledRef = x.tsScaled := by
    apply BitVec.eq_of_toNat_eq
    rw [hyinv.scaled hne href, hinv.scaled hout, htsRef, hstride]
  obtain ⟨z, f, hrun, -, -, -, -, hform⟩ := exec_tseEnc_of_inv hx hinv
  cases hrun.symm.trans ht
  obtain ⟨-, -, hbit, -⟩ := tseResult_bits z f
  rw [complete_res1, hbit] at hded
  cases hform with
  | unscaled => cases hded
  | withStride => cases hded
  | scaled _ _ _ hscaled =>
    have hdiff := (deduces_iff x _ _).1 hded
    have hdeduced : z.tsScaled = y.scaledRef + BitVec.ofInt 32
        (BitVec.ofNat y.snw.bits u.args.arg0.toNat - BitVec.ofNat y.snw.bits y.snRef.toNat).toInt := by
      rw [hsn, hsnRef, hsnw, ← hdiff, BitVec.ofInt_toInt, hsame, hscaled, add_sub_cancel]
    rw [exec_tsdDeduce_of_known hy hne href hdeduced, hstride, hscaled, scaled_mul_stride_add_offset _ _ _ hoffset]
    rfl

/-- The reference TS split by the stride (43_ts_scaled.md R251). -/
theorem split_eq (x : TsdInst) : x.split = { x with
    offset := BitVec.ofNat 32 (x.tsRef.toNat % x.stride.toNat)
    scaledRef := BitVec.ofNat 32 (x.tsRef.toNat / x.stride.toNat) } := by
  rw [Nat.div_eq_sub_mod_div]
  rfl

theorem exec_tsdStride_of_illegal {s : State} {i : Nat} {x : TsdInst} (hx : s.tsd[i]? = some x)
    (h : s.args.arg0.toNat = 0 ∨ Config.sdvlMax < s.args.arg0.toNat) :
    exec (.tsdStride i) s = .next (complete 0x39#8 .illegalOperand s) := by
  rw [exec, execTsdStride, hx]
  exact if_pos (h.imp_left fun h0 => BitVec.eq_of_toNat_eq h0)

theorem exec_tsdStride_of_legal {s : State} {i : Nat} {x : TsdInst} (hx : s.tsd[i]? = some x)
    (h1 : 1 ≤ s.args.arg0.toNat) (h2 : s.args.arg0.toNat ≤ Config.sdvlMax) :
    exec (.tsdStride i) s = .next (complete 0x39#8 .ok { s with tsd := s.tsd.set i (x.setStride s.args.arg0) }) := by
  rw [exec, execTsdStride, hx]
  refine if_neg ?_
  rintro (h0 | hover)
  · rw [h0] at h1
    exact absurd h1 (by decide)
  · omega

/-- Settles O45: a legal stride is recorded, and a committed reference is split by it. -/
theorem tsdStrideSplitsTheReference : Obligations.TsdStrideSplitsTheReference := by
  unfold Obligations.TsdStrideSplitsTheReference
  refine ⟨fun i hi => encode_of_noField hi rfl, fun s i x hx =>
    ⟨exec_tsdStride_of_illegal hx, fun h1 h2 => ⟨fun href => ?_, fun href => ?_⟩⟩⟩
  · rw [exec_tsdStride_of_legal hx h1 h2, TsdInst.setStride, href]
    rfl
  · rw [exec_tsdStride_of_legal hx h1 h2, TsdInst.setStride, href, if_pos rfl, split_eq]

theorem exec_tsdCommit_of_some {s : State} {i : Nat} {x : TsdInst} (hx : s.tsd[i]? = some x) :
    exec (.tsdCommit i) s = .next (complete 0x3C#8 .ok { s with
      tsd := s.tsd.set i (x.commit s.args.arg0 s.args.arg1) }) := by
  rw [exec, execTsdCommit, hx]
  rfl

/-- Settles O47: the reference is set, and split if a stride is known. -/
theorem tsdCommitSetsTheReference : Obligations.TsdCommitSetsTheReference := by
  unfold Obligations.TsdCommitSetsTheReference
  refine ⟨fun i hi => encode_of_noField hi rfl, fun s i x hx => ⟨fun h => ?_, fun h => ?_⟩⟩
  · rw [exec_tsdCommit_of_some hx, TsdInst.commit, if_pos h, uN_natCast]
    rfl
  · rw [exec_tsdCommit_of_some hx, TsdInst.commit, if_neg h, split_eq, uN_natCast]
    rfl

/-! ### Configuration -/

/-- TSE_CFG has an instance to configure iff L and snw are in their sets (43_ts_scaled.md R231). -/
theorem tseConfig?_eq_some {a : Args} {x : TseInst} :
    tseConfig? a = some x ↔ (1 ≤ a.arg0.toNat ∧ a.arg0.toNat ≤ 255) ∧ ∃ snw : Width, snw.bits = a.arg1.toNat ∧
      x = { TseInst.reset with l := BitVec.ofNat 8 a.arg0.toNat, snw := snw } := by
  rw [tseConfig?, BitVec.ofNat_toNat]
  split
  · exact ⟨nofun, fun h => by omega⟩
  · simp only [Option.map_eq_some_iff, Width.ofWord?_eq_some, eq_comm (b := x)]
    exact ⟨fun h => ⟨by omega, h⟩, fun h => h.2⟩

theorem Width.exists_bits_eq {n : Nat} (h : n ∈ [12, 16, 32]) : ∃ w : Width, w.bits = n := by
  simp only [List.mem_cons, List.not_mem_nil, or_false] at h
  rcases h with rfl | rfl | rfl
  exacts [⟨.w12, rfl⟩, ⟨.w16, rfl⟩, ⟨.w32, rfl⟩]

theorem tsdConfig?_eq_some {a : Args} {x : TsdInst} :
    tsdConfig? a = some x ↔ ∃ snw : Width, snw.bits = a.arg0.toNat ∧ x = { TsdInst.reset with snw := snw } := by
  simp only [tsdConfig?, Option.map_eq_some_iff, Width.ofWord?_eq_some, eq_comm (b := x)]
  rfl

theorem exec_tseCfg_of_some {s : State} {i : Nat} {x : TseInst} (hi : i < s.tse.length)
    (hx : tseConfig? s.args = some x) :
    exec (.tseCfg i) s = .next (complete 0x30#8 .ok { s with tse := s.tse.set i x }) := by
  rw [exec, execTseCfg, List.getElem?_eq_getElem hi, hx]
  rfl

theorem exec_tseCfg_of_none {s : State} {i : Nat} (hi : i < s.tse.length) (hx : tseConfig? s.args = none) :
    exec (.tseCfg i) s = .next (complete 0x30#8 .illegalOperand s) := by
  rw [exec, execTseCfg, List.getElem?_eq_getElem hi, hx]
  rfl

theorem exec_tsdCfg_of_some {s : State} {i : Nat} {x : TsdInst} (hi : i < s.tsd.length)
    (hx : tsdConfig? s.args = some x) :
    exec (.tsdCfg i) s = .next (complete 0x38#8 .ok { s with tsd := s.tsd.set i x }) := by
  rw [exec, execTsdCfg, List.getElem?_eq_getElem hi, hx]
  rfl

theorem exec_tsdCfg_of_none {s : State} {i : Nat} (hi : i < s.tsd.length) (hx : tsdConfig? s.args = none) :
    exec (.tsdCfg i) s = .next (complete 0x38#8 .illegalOperand s) := by
  rw [exec, execTsdCfg, List.getElem?_eq_getElem hi, hx]
  rfl

/-- Settles O37: the operands are legal exactly when there is an instance to configure, and it is the reset instance
but for them. -/
theorem tsConfigurationResetsTheInstance : Obligations.TsConfigurationResetsTheInstance := by
  unfold Obligations.TsConfigurationResetsTheInstance
  refine ⟨fun i hi => ⟨encode_of_noField hi rfl, encode_of_noField hi rfl⟩,
    fun s i hi => ⟨fun ⟨hmin, hmax, hwidth⟩ => ?_, fun h => exec_tseCfg_of_none hi ?_⟩,
    fun s i hi => ⟨fun hwidth => ?_, fun h => exec_tsdCfg_of_none hi ?_⟩⟩
  · obtain ⟨snw, hsnw⟩ := Width.exists_bits_eq hwidth
    exact ⟨snw, hsnw, exec_tseCfg_of_some hi (tseConfig?_eq_some.2 ⟨⟨hmin, hmax⟩, snw, hsnw, rfl⟩)⟩
  · refine Option.eq_none_iff_forall_ne_some.2 fun x hx => ?_
    obtain ⟨⟨hmin, hmax⟩, snw, hsnw, -⟩ := tseConfig?_eq_some.1 hx
    exact h ⟨hmin, hmax, hsnw ▸ snw.bits_mem⟩
  · obtain ⟨snw, hsnw⟩ := Width.exists_bits_eq hwidth
    exact ⟨snw, hsnw, exec_tsdCfg_of_some hi (tsdConfig?_eq_some.2 ⟨snw, hsnw, rfl⟩)⟩
  · refine Option.eq_none_iff_forall_ne_some.2 fun x hx => ?_
    obtain ⟨snw, hsnw, -⟩ := tsdConfig?_eq_some.1 hx
    exact h (hsnw ▸ snw.bits_mem)

/-! ### The reads -/

theorem TseInst.flagWord_eq (x : TseInst) : x.flagWord = BitVec.ofNat 32 (2 * x.deducible.toNat + x.haveOld.toNat) := by
  apply BitVec.eq_of_toNat_eq
  have hded := Bool.toNat_le x.deducible
  have hold := Bool.toNat_le x.haveOld
  simp only [TseInst.flagWord, bit, toNat_append_eq, BitVec.toNat_ofBool, BitVec.toNat_ofNat]
  omega

theorem TsdInst.flagWord_eq (x : TsdInst) :
    x.flagWord = BitVec.ofNat 32 (2 * (if x.stride = 0#32 then 0 else 1) + x.refValid.toNat) := by
  apply BitVec.eq_of_toNat_eq
  have href := Bool.toNat_le x.refValid
  simp only [TsdInst.flagWord, bit, toNat_append_eq, BitVec.toNat_ofBool, BitVec.toNat_ofNat]
  by_cases h : x.stride = 0#32 <;> simp [h] <;> omega

theorem exec_tseRd_of_field {s : State} {i sel : Nat} {x : TseInst} {v : Word} (hx : s.tse[i]? = some x)
    (hv : x.field? sel = some v) :
    exec (.tseRd i sel) s = .next (complete 0x32#8 .ok { s with res0 := v, res1 := 0#32 }) := by
  rw [exec, execTseRd, hx]
  simp only [hv]
  rfl

theorem exec_tsdRd_of_field {s : State} {i sel : Nat} {x : TsdInst} {v : Word} (hx : s.tsd[i]? = some x)
    (hv : x.field? sel = some v) :
    exec (.tsdRd i sel) s = .next (complete 0x3D#8 .ok { s with res0 := v, res1 := 0#32 }) := by
  rw [exec, execTsdRd, hx]
  simp only [hv]
  rfl

/-- Settles O44: each selector of the statement names its field. -/
theorem tsReadsReportEveryField : Obligations.TsReadsReportEveryField := by
  unfold Obligations.TsReadsReportEveryField
  refine ⟨by decide, fun i sel hi hsel => ⟨encode_eq_ofNat hi (by simp only [Instr.fieldBits]; omega),
    encode_eq_ofNat hi (by simp only [Instr.fieldBits]; omega)⟩, fun s i x hx p hp => exec_tseRd_of_field hx ?_,
    fun s i x hx p hp => exec_tsdRd_of_field hx ?_,
    fun s i sel => ⟨exec_tseRd_of_selOver s i, exec_tsdRd_of_selOver s i⟩⟩
  · revert p
    simp [TseInst.field?, TseInst.flagWord_eq, toWord_eq]
  · revert p
    simp [TsdInst.field?, TsdInst.flagWord_eq, toWord_eq]

end Sys2Proof.Machine

/-! SUPPORT. NOP (45_control.md R270), and the absence of stops (R274; 70_reset_and_hazards.md R336): under the
invariant every command ends, so that only an access that reaches no target stops the block (O12, O58). -/

namespace Sys2Proof.Machine

open Sys2Proof.Safety

/-! ### NOP -/

theorem exec_nop (s : State) : exec .nop s = .next { s with
    status := { code := .ok, sticky := s.status.sticky, lastOpc := 0x00#8 }
    cmdCount := s.cmdCount + 1#32 } := by
  have hsticky : (s.status.sticky || ErrCode.ok != .ok) = s.status.sticky := Bool.or_false _
  rw [exec, execNop, finish, complete, hsticky]

/-- A word with OPC 0 other than NOP's has a bit of INST or of FIELD set (30_encoding.md R91, R95). -/
theorem illegalFields_of_opcZero {w : Word} (ho : opcOf w = 0) (hw : w ≠ 0#32) :
    IllegalFields 0 (instOf w) (fieldOf w) := by
  have hfields : fieldOf w ≠ 0 ∨ instOf w ≠ 0 := by
    by_contra hzero
    obtain ⟨hf, hi⟩ : fieldOf w = 0 ∧ instOf w = 0 := by omega
    have hsplit := word_split w
    rw [ho, hi, hf] at hsplit
    exact hw (BitVec.eq_of_toNat_eq hsplit)
  unfold IllegalFields
  rcases hfields with hf | hi
  · simp [hf]
  · simp [hi]

/-- Settles O12: NOP is its completion alone, and any other word with OPC 0 fails a check of the decoder. -/
theorem nopSetsCodeOkAndKeepsSticky : Obligations.NopSetsCodeOkAndKeepsSticky := by
  unfold Obligations.NopSetsCodeOkAndKeepsSticky
  refine ⟨by decide, exec_nop, fun s w hlt hw => ?_⟩
  have ho : opcOf w = 0 := by rw [opcOf_eq, Nat.div_eq_of_lt hlt]
  have hrun := runCommand_of_illegal (w := w) (ho ▸ illegalFields_of_opcZero ho hw) s
  rwa [ho] at hrun

/-! ### Commands that do not stop -/

section
variable {s t : State} {r : Result}

theorem not_stops_of_next (hr : r = .next t) : ¬ stops r := fun hstops => hstops t hr

theorem not_stops_of_raises {o : Byte} (h : Raises o s r) : ¬ stops r := by
  obtain ⟨_, hr, _⟩ := h
  exact not_stops_of_next hr

/-- The check of MEM does not fail on a field of a region (10_state.md R40, R41). -/
theorem Stream.inMem_ne_false {x : Stream} {n : Nat} (hx : StreamInv s.memSize x)
    (hfit : x.pos.toNat + n ≤ 8 * x.len.toNat) : Stream.inMem s x n ≠ false :=
  ne_false_of_eq_true (Stream.inMem_of_holds hx hfit)

end

/-- Under the invariant no command ends in a fault or a refusal: a field that fits its region is in MEM, and a TS
encoder outside INIT_TS has a stride to divide by (logs 9 and 10). -/
theorem exec_not_stops {s : State} (h : Inv s) (i : Instr) : ¬ stops (exec i s) := by
  cases i with
  | nop => exact not_stops_of_next rfl
  | brInit =>
    rcases execBrInit_cases s with hr | ⟨_, hn⟩
    exacts [not_stops_of_raises hr, not_stops_of_next hn]
  | brRead n =>
    rcases execBrRead_cases n s with hr | ⟨hfit, ⟨hm, _⟩ | ⟨_, hn⟩⟩
    exacts [not_stops_of_raises hr, absurd hm (Stream.inMem_ne_false h.reader hfit), not_stops_of_next hn]
  | brPeek n =>
    rcases execBrPeek_cases n s with hr | ⟨hfit, ⟨hm, _⟩ | ⟨_, hn⟩⟩
    exacts [not_stops_of_raises hr, absurd hm (Stream.inMem_ne_false h.reader hfit), not_stops_of_next hn]
  | brAlign => exact not_stops_of_next (execBrAlign_eq s)
  | bwInit =>
    rcases execBwInit_cases s with hr | ⟨_, hn⟩
    exacts [not_stops_of_raises hr, not_stops_of_next hn]
  | bwWrite n =>
    rcases execBwWrite_cases n s with hr | ⟨hfit, ⟨hm, _⟩ | ⟨_, _, hn⟩⟩
    exacts [not_stops_of_raises hr, absurd hm (Stream.inMem_ne_false h.writer hfit), not_stops_of_next hn]
  | bwAlign => exact not_stops_of_next (exec_bwAlign_eq h.writer)
  | sdvlEnc =>
    rcases execSdvlEnc_cases s with hr | ⟨_, hfit, ⟨hm, _⟩ | ⟨_, hn⟩⟩
    exacts [not_stops_of_raises hr, absurd hm (Stream.inMem_ne_false h.writer hfit), not_stops_of_next hn]
  | sdvlDec =>
    rcases execSdvlDec_cases s with hr | ⟨hfit, hm, _⟩ | ⟨hfit, hm, _⟩ | ⟨_, hn⟩
    exacts [not_stops_of_raises hr, absurd hm (Stream.inMem_ne_false h.reader hfit),
      absurd hm (Stream.inMem_ne_false h.reader hfit), not_stops_of_next hn]
  | crc kind d m c =>
    rcases execCrc_cases kind d m c s with hr | ⟨_, _, _, _, _, hn⟩
    exacts [not_stops_of_raises hr, not_stops_of_next hn]
  | weCfg j =>
    rcases execWeCfg_cases j s with hr | ⟨_, _, hn⟩
    exacts [not_stops_of_raises hr, not_stops_of_next hn]
  | weAdd j =>
    rcases execWeAdd_cases j s with ⟨_, hr⟩ | ⟨_, _, hn⟩
    exacts [not_stops_of_raises hr, not_stops_of_next hn]
  | weK j =>
    rcases execWeK_cases j s with ⟨_, hr⟩ | ⟨_, _, hn⟩
    exacts [not_stops_of_raises hr, not_stops_of_next hn]
  | weInfo j sel =>
    rcases execWeInfo_cases j sel s with ⟨_, hr⟩ | ⟨_, _, _, _, hn⟩
    exacts [not_stops_of_raises hr, not_stops_of_next hn]
  | weEntry j =>
    rcases execWeEntry_cases j s with hr | ⟨_, _, _, _, hn⟩
    exacts [not_stops_of_raises hr, not_stops_of_next hn]
  | wdCfg j =>
    rcases execWdCfg_cases j s with hr | ⟨_, _, hn⟩
    exacts [not_stops_of_raises hr, not_stops_of_next hn]
  | wdSetref j =>
    rcases execWdSetref_cases j s with ⟨_, hr⟩ | ⟨_, _, hn⟩
    exacts [not_stops_of_raises hr, not_stops_of_next hn]
  | wdDec j k =>
    rcases execWdDec_cases j k s with hr | ⟨_, _, _, _, hn⟩
    exacts [not_stops_of_raises hr, not_stops_of_next hn]
  | wdRd j sel =>
    rcases execWdRd_cases j sel s with ⟨_, hr⟩ | ⟨_, _, _, _, hn⟩
    exacts [not_stops_of_raises hr, not_stops_of_next hn]
  | tseCfg j =>
    rcases execTseCfg_cases j s with hr | ⟨_, _, hn⟩
    exacts [not_stops_of_raises hr, not_stops_of_next hn]
  | tseEnc j =>
    rcases execTseEnc_cases j s with ⟨_, hr⟩ | ⟨x, hx, ⟨hz, _⟩ | ⟨_, hn⟩⟩
    · exact not_stops_of_raises hr
    · exact absurd hz (ne_true_of_eq_false (not_dividesByZero (h.tse x (List.mem_of_getElem? hx)) _))
    · exact not_stops_of_next hn
  | tseRd j sel =>
    rcases execTseRd_cases j sel s with hr | ⟨_, _, _, _, hn⟩
    exacts [not_stops_of_raises hr, not_stops_of_next hn]
  | tsdCfg j =>
    rcases execTsdCfg_cases j s with hr | ⟨_, _, hn⟩
    exacts [not_stops_of_raises hr, not_stops_of_next hn]
  | tsdStride j =>
    rcases execTsdStride_cases j s with hr | ⟨_, _, _, _, hn⟩
    exacts [not_stops_of_raises hr, not_stops_of_next hn]
  | tsdScaled j =>
    rcases execTsdScaled_cases j s with hr | ⟨_, _, _, hn⟩
    exacts [not_stops_of_raises hr, not_stops_of_next hn]
  | tsdDeduce j =>
    rcases execTsdDeduce_cases j s with hr | ⟨_, _, _, _, hn⟩
    exacts [not_stops_of_raises hr, not_stops_of_next hn]
  | tsdCommit j =>
    rcases execTsdCommit_cases j s with ⟨_, hr⟩ | ⟨_, _, hn⟩
    exacts [not_stops_of_raises hr, not_stops_of_next hn]
  | tsdRd j sel =>
    rcases execTsdRd_cases j sel s with hr | ⟨_, _, _, _, hn⟩
    exacts [not_stops_of_raises hr, not_stops_of_next hn]

/-! ### Accesses that do not stop -/

/-- No command word stops the block, whether it decodes or not. -/
theorem runCommand_not_stops {s : State} (h : Inv s) (w : Word) : ¬ stops (runCommand w s) := by
  unfold runCommand
  split
  · exact exec_not_stops h _
  · exact not_stops_of_raises (raises_illegalCommand _ _)

/-- Of the register writes only that of CMD does more than set a field. -/
theorem writeReg_not_stops {s : State} (h : Inv s) (r : HostReg) (d : Word) : ¬ stops (writeReg r d s) := by
  cases r with
  | cmd => exact runCommand_not_stops h d
  | _ => exact not_stops_of_next rfl

theorem writeTarget_not_stops {s : State} (h : Inv s) (t : Target) (d : Word) : ¬ stops (writeTarget t d s) := by
  cases t with
  | reg r => exact writeReg_not_stops h r d
  | none | mem a => exact not_stops_of_next rfl

/-- The accesses that reach no target: past the window, of a width and alignment the port does not take, a byte
access of a register, a word access of MEM (10_state.md R31, 20_memory.md R80; log 8). -/
theorem outside_of_locate_error {s : State} {offset bytes : Nat} {r : Refusal} (h : locate s offset bytes = .error r) :
    0x20000 ≤ offset ∨ (bytes ≠ 4 ∨ offset % 4 ≠ 0) ∧ bytes ≠ 1 ∨ (bytes = 1 ∧ offset < 0x10000) ∨
      (bytes = 4 ∧ 0x10000 ≤ offset ∧ offset < 0x10000 + s.memSize) := by
  unfold locate at h
  split at h
  · exact .inl ‹_›
  split at h
  · split at h
    · cases h
    · rename_i hwidth
      simp only [Bool.or_eq_true, beq_iff_eq, wordAccess_iff] at hwidth
      omega
  split at h
  · split at h
    · cases h
    · rename_i hwidth
      rw [beq_iff_eq] at hwidth
      omega
  split at h
  · split at h <;> cases h
  · rename_i hwidth
    rw [wordAccess_iff] at hwidth
    omega

theorem step_of_noAccess {s : State} (hb : s.bus = []) : step s = .next s := by
  simp only [step, hb]

/-- Settles O58: a reset and an access that reaches a target have a next state, so what stops the block is a read
or a write that reaches none. -/
theorem onlyRefusedAccessesStopTheBlock : Obligations.OnlyRefusedAccessesStopTheBlock := by
  unfold Obligations.OnlyRefusedAccessesStopTheBlock
  intro s h hstops
  cases hb : s.bus with
  | nil => exact absurd hstops (not_stops_of_next (step_of_noAccess hb))
  | cons a rest =>
    cases a with
    | reset => exact absurd hstops (not_stops_of_next (step_reset hb))
    | read offset bytes =>
      cases hl : locate (s.setBus rest) offset bytes with
      | ok t => exact absurd hstops (not_stops_of_next (step_read hb hl))
      | error r => exact ⟨offset, bytes, rest, .inr rfl, outside_of_locate_error hl⟩
    | write offset bytes d =>
      cases hl : locate (s.setBus rest) offset bytes with
      | ok t =>
        rw [step_write hb hl] at hstops
        exact absurd hstops (writeTarget_not_stops (h.setBus rest) t d)
      | error r => exact ⟨offset, bytes, rest, .inl ⟨d, rfl⟩, outside_of_locate_error hl⟩

end Sys2Proof.Machine

/-! SUPPORT. How a command word completes, whether it decodes or not (60_exceptions.md R281, R283), and the three
statements on completion and the idle block (O8, O9, O54). -/

namespace Sys2Proof.Machine

open Sys2Proof.Safety

/-! ### The completion of a command word -/

/-- The next state after a command word is one completion with OPC in LAST_OPC. What stood before the completion is the
effect of the command if the code is OK, else the old state, but for RES0 of a CRC with CRC_MISMATCH. -/
theorem completes_of_runCommand {s t : State} {w : Word} (h : runCommand w s = .next t) :
    ∃ o c u, t = complete o c u ∧ o.toNat = opcOf w ∧ u.status = s.status ∧ u.cmdCount = s.cmdCount ∧
      (c = .ok ∨ u = s ∨
        c = .crcMismatch ∧ (∃ kind d m, decode w = .ok (.crc kind d m true)) ∧ ∃ v, u = s.setRes0 v) := by
  cases hdec : decode w with
  | error e =>
    simp only [runCommand, hdec] at h
    cases h
    exact ⟨_, _, s, rfl, rfl, rfl, rfl, .inr (.inl rfl)⟩
  | ok i =>
    rw [runCommand_of_decode hdec] at h
    have hopc : i.opc.toNat = opcOf w := (decode_inv hdec).1.symm
    have hends := exec_ends i s
    rw [h] at hends
    rcases hends with ⟨_, hfault⟩ | ⟨c, hraise, _⟩ | ⟨c, u, hnext, hstatus, hcount, _, heffect⟩
    · cases hfault
    · cases hraise
      exact ⟨_, c, s, rfl, hopc, rfl, rfl, .inr (.inl rfl)⟩
    · cases hnext
      refine ⟨_, c, u, rfl, hopc, hstatus, hcount, ?_⟩
      rcases heffect with hok | ⟨hc, ⟨kind, d, m, rfl⟩, hu⟩
      · exact .inl hok
      · exact .inr (.inr ⟨hc, ⟨kind, d, m, rfl⟩, _, hu⟩)

/-- Under the invariant a command word does not stop the block, so it has a next state. -/
theorem exists_next_of_runCommand {s : State} (h : Inv s) (w : Word) : ∃ t, runCommand w s = .next t :=
  Classical.not_forall_not.mp (runCommand_not_stops h w)

theorem errCode_bne_ok (c : ErrCode) : (c != .ok) = decide (c ≠ .ok) := by
  rw [bne, Bool.beq_eq_decide_eq, ← decide_not]

/-! ### The statements -/

/-- Settles O8: the next state is one completion of a state with the old STATUS and CMD_COUNT. -/
theorem commandWordCompletesWithOneCode : Obligations.CommandWordCompletesWithOneCode := by
  unfold Obligations.CommandWordCompletesWithOneCode
  refine ⟨fun o c s => by rw [complete, errCode_bne_ok], fun s w hinv => ?_⟩
  obtain ⟨t, hrun⟩ := exists_next_of_runCommand hinv w
  obtain ⟨o, c, u, rfl, hopc, hstatus, hcount, _⟩ := completes_of_runCommand hrun
  refine ⟨_, hrun, ?_, ?_, ?_⟩
  · rw [complete_status, hopc, opcOf_eq]
  · rw [complete_status, hstatus, errCode_bne_ok]
  · rw [complete_cmdCount, hcount]

/-- Settles O9: with a code other than OK what stood before the completion is the old state, or for CRC the old state
with RES0 written. -/
theorem errorsChangeOnlyStatusAndCount : Obligations.ErrorsChangeOnlyStatusAndCount := by
  unfold Obligations.ErrorsChangeOnlyStatusAndCount
  intro s t w hrun herror
  obtain ⟨o, c, u, rfl, _, _, _, hok | rfl | ⟨hc, hcrc, v, rfl⟩⟩ := completes_of_runCommand hrun
  · exact absurd hok herror
  · exact .inl rfl
  · exact .inr ⟨hc, hcrc, rfl⟩

/-- Settles O54: the step without an access. -/
theorem idleBlockHoldsItsState : Obligations.IdleBlockHoldsItsState := by
  unfold Obligations.IdleBlockHoldsItsState
  exact fun _ hb => step_of_noAccess hb

end Sys2Proof.Machine

/-! SUPPORT. The state after reset read through its observers, and the two statements on reset (O55, O56). -/

namespace Sys2Proof.Machine

open Sys2Proof.Safety

/-! ### The state after reset -/

@[simp] theorem State.resetWith_params (p : Params) (draw : Nat) (bus : List Access) (seen : List Word) :
    (State.resetWith p draw bus seen).params = p := by
  simp only [State.params, State.resetWith, List.length_replicate]

/-- STATUS after a reset reads as the word 0 (10_state.md R33). -/
@[simp] theorem State.resetWith_statusWord (p : Params) (draw : Nat) (bus : List Access) (seen : List Word) :
    (State.resetWith p draw bus seen).status.word = 0#32 :=
  show Status.word { code := .ok, sticky := false, lastOpc := 0#8 } = 0#32 by decide

/-- After a reset MEM lists no byte, so every byte is the draw of that reset (70_reset_and_hazards.md R311). -/
@[simp] theorem State.resetWith_memRead (p : Params) (draw : Nat) (bus : List Access) (seen : List Word) (a : Nat) :
    (State.resetWith p draw bus seen).memRead a = Config.powerOnByte draw a :=
  Memory.read_nil draw a

/-- An instance list after reset has the number of instances the parameter gives, and what holds of the unit's reset
instance holds of each of them. -/
theorem replicate_length_and_forall {α : Type} {P : α → Prop} {x : α} (n : Nat) (h : P x) :
    (List.replicate n x).length = n ∧ ∀ y ∈ List.replicate n x, P y :=
  ⟨List.length_replicate, List.forall_mem_replicate.mpr (.inr h)⟩

/-- The parameters that State.reset takes are in the ranges of 00_scope.md R7. -/
theorem Params.wf_chosen : Params.chosen.wf := by decide

/-! ### The statements -/

/-- Settles O55: the registers by definition, each instance list through the unit's reset instance, the parameters and
MEM through their readers; a platform reset is the step on its access. -/
theorem resetValuesAreThoseOfTheTable : Obligations.ResetValuesAreThoseOfTheTable := by
  unfold Obligations.ResetValuesAreThoseOfTheTable
  refine ⟨?_, fun s rest hb => step_reset hb⟩
  rintro p draw bus seen s rfl
  refine ⟨⟨State.resetWith_statusWord p draw bus seen, rfl⟩, ⟨rfl, rfl, rfl, rfl, rfl, rfl, rfl, rfl⟩, ⟨rfl, rfl, rfl⟩,
    ⟨rfl, rfl, rfl⟩, ?we, ?wd, ?tse, ?tsd, State.resetWith_params p draw bus seen,
    State.resetWith_memRead p draw bus seen, ⟨rfl, rfl, rfl⟩⟩
  case we => exact replicate_length_and_forall p.numWe ⟨rfl, rfl, rfl, rfl, rfl, rfl⟩
  case wd => exact replicate_length_and_forall p.numWd ⟨rfl, rfl, rfl, rfl, rfl⟩
  case tse => exact replicate_length_and_forall p.numTse ⟨rfl, rfl, rfl, rfl, rfl, rfl, rfl, rfl, rfl, rfl, rfl⟩
  case tsd => exact replicate_length_and_forall p.numTsd ⟨rfl, rfl, rfl, rfl, rfl, rfl, rfl⟩

/-- Settles O56: State.reset is the reset with the chosen parameters, which are in their ranges. -/
theorem resetMeetsTheInvariant : Obligations.ResetMeetsTheInvariant := by
  unfold Obligations.ResetMeetsTheInvariant
  exact ⟨fun _ draw bus seen hp => inv_resetWith hp draw bus seen, inv_resetWith Params.wf_chosen 0 [] []⟩

end Sys2Proof.Machine
